-- ==== Sys2Proof/Word.lean ====
section
/-! DEFINITION. The word types of OFDMTX: 32-bit registers, 8-bit cells, 7-bit shift registers, 40-bit command words
(spec/00_scope.md R7, spec/10_state.md R36, R37). -/

namespace Sys2Proof

/-- The value of one register of the register space, `REG_W` = 32 bits (00_scope.md R7). -/
abbrev Word := BitVec 32

/-- The value of one buffer cell, `CELL_W` = 8 bits (00_scope.md R7). -/
abbrev Byte := BitVec 8

/-- The scrambler's and the encoder's shift register, K = 7 bits (00_scope.md R6). -/
abbrev ShiftReg := BitVec 7

/-- A command word, `CW_W` = 40 bits: OP in bits 39:32, ARG in bits 31:0 (30_encoding.md R70). -/
abbrev CommandWord := BitVec 40

end Sys2Proof
end

