-- ==== Sys2Proof/Syntax.lean ====
section
/-! DEFINITION. The commands of OFDMTX, one constructor per row of spec/opcode_table.json (spec/30_encoding.md R71),
with the operands R72 and R78 give them. -/

namespace Sys2Proof

/-- One command. Operands are numbers, as 30_encoding.md R78 writes them; `Instr.wf` bounds them by their fields. -/
inductive Instr where
  /-- `OFDM_PARAM rb0, rb1, rb2, rb3`: OP 0x01, four 8-bit encoding codes, block 0 in the lowest byte. -/
  | ofdmParam (rb0 rb1 rb2 rb3 : Nat)
  /-- `FRAME_PARAM n`: OP 0x02, a two's-complement 32-bit payload length in bytes. -/
  | frameParam (len : Int)
  /-- `ASSEMBLE`: OP 0x03. -/
  | assemble
  /-- `SCRAMBLE seed` (also spelt `DESCRAMBLE seed`, R79): OP 0x04, an unsigned 32-bit seed. -/
  | scramble (seed : Nat)
  /-- `TAIL_RESET`: OP 0x05. -/
  | tailReset
  /-- `CONV_ENCODE`: OP 0x06. -/
  | convEncode
  /-- `PUNCTURE`: OP 0x07. -/
  | puncture
  /-- `INTERLEAVE`: OP 0x08. -/
  | interleave
  /-- `DEINTERLEAVE`: OP 0x09. -/
  | deinterleave
  /-- `SPLIT`: OP 0x0A. -/
  | split
  /-- `ENCODE_FRAME seed`: OP 0x0B, an unsigned 32-bit seed. -/
  | encodeFrame (seed : Nat)
  deriving DecidableEq, Repr

end Sys2Proof
end

