-- ==== Sys2Proof/WellFormed.lean ====
section
/-! DEFINITION. Which commands have an encoding: every operand fits its field (spec/30_encoding.md R72, R78). -/

namespace Sys2Proof

/-- A command is well formed when its operands fit the fields of its command word: each resource-block code in 8 bits,
the length in 32 bits two's complement, the seed in 32 bits unsigned (30_encoding.md R72, R78). Whether the operand is
legal (a code up to 3, a seed up to 127) is not asked here: an illegal one is a fault of the command, not an ill-formed
term. -/
def Instr.wf : Instr → Bool
  | .ofdmParam rb0 rb1 rb2 rb3 => rb0 < 2 ^ 8 && rb1 < 2 ^ 8 && rb2 < 2 ^ 8 && rb3 < 2 ^ 8
  | .frameParam len => -2 ^ 31 ≤ len && len < 2 ^ 31
  | .assemble => true
  | .scramble seed => seed < 2 ^ 32
  | .tailReset => true
  | .convEncode => true
  | .puncture => true
  | .interleave => true
  | .deinterleave => true
  | .split => true
  | .encodeFrame seed => seed < 2 ^ 32

end Sys2Proof
end

