-- ==== Sys2Proof/Decode.lean ====
section
/-! DEFINITION. The decoder, total on every 40-bit command word, rejecting by name, and after it the encoder
(spec/30_encoding.md R70 to R72, R76). -/

namespace Sys2Proof

/-- Why a command word is illegal (30_encoding.md R76). -/
inductive DecodeError where
  /-- (a) OP is 0x00 or 0x0C to 0xFF. -/
  | unknownOpcode
  /-- (b) OP is 0x03 or 0x05 to 0x0A and ARG is not 0. -/
  | reservedArg
  deriving DecidableEq, Repr

/-- OP, bits 39:32 of the command word (30_encoding.md R70). -/
def opField (cw : CommandWord) : Byte := cw.extractLsb' 32 8

/-- ARG, bits 31:0 of the command word (30_encoding.md R70). -/
def argField (cw : CommandWord) : Word := cw.extractLsb' 0 32

/-- Byte `k` of a 32-bit word, bits 8k+7 to 8k, as a number: the field of resource block `k` (30_encoding.md R72,
10_state.md R26, R27). -/
def byteField (w : Word) (k : Nat) : Nat := (w.extractLsb' (8 * k) 8).toNat

/-- A command whose ARG is reserved: illegal unless ARG is 0 (30_encoding.md R72, R76 (b)). -/
def needZeroArg (arg : Word) (i : Instr) : Except DecodeError Instr :=
  if arg = 0 then .ok i else .error .reservedArg

/-- The decoder: OP first, then ARG as R72 reads it for that OP (30_encoding.md R71, R72, R76). -/
def decode (cw : CommandWord) : Except DecodeError Instr :=
  let arg := argField cw
  match (opField cw).toNat with
  | 0x01 => .ok (.ofdmParam (byteField arg 0) (byteField arg 1) (byteField arg 2) (byteField arg 3))
  | 0x02 => .ok (.frameParam arg.toInt)
  | 0x03 => needZeroArg arg .assemble
  | 0x04 => .ok (.scramble arg.toNat)
  | 0x05 => needZeroArg arg .tailReset
  | 0x06 => needZeroArg arg .convEncode
  | 0x07 => needZeroArg arg .puncture
  | 0x08 => needZeroArg arg .interleave
  | 0x09 => needZeroArg arg .deinterleave
  | 0x0A => needZeroArg arg .split
  | 0x0B => .ok (.encodeFrame arg.toNat)
  | _ => .error .unknownOpcode

/-- The opcode of a command (30_encoding.md R71). -/
def Instr.opcode : Instr → Byte
  | .ofdmParam _ _ _ _ => 0x01
  | .frameParam _ => 0x02
  | .assemble => 0x03
  | .scramble _ => 0x04
  | .tailReset => 0x05
  | .convEncode => 0x06
  | .puncture => 0x07
  | .interleave => 0x08
  | .deinterleave => 0x09
  | .split => 0x0A
  | .encodeFrame _ => 0x0B

/-- Four block values in one word, block 0 in bits 7:0: v0 + 2^8 v1 + 2^16 v2 + 2^24 v3 (30_encoding.md R78,
20_memory.md R53 (e)). -/
def packBlocks (v0 v1 v2 v3 : Nat) : Word :=
  BitVec.ofNat 32 (v0 + 2 ^ 8 * v1 + 2 ^ 16 * v2 + 2 ^ 24 * v3)

/-- The ARG of a command (30_encoding.md R72, R78). -/
def Instr.arg : Instr → Word
  | .ofdmParam rb0 rb1 rb2 rb3 => packBlocks rb0 rb1 rb2 rb3
  | .frameParam len => BitVec.ofInt 32 len
  | .assemble => 0
  | .scramble seed => BitVec.ofNat 32 seed
  | .tailReset => 0
  | .convEncode => 0
  | .puncture => 0
  | .interleave => 0
  | .deinterleave => 0
  | .split => 0
  | .encodeFrame seed => BitVec.ofNat 32 seed

/-- The encoder: the command word of a command, OP above ARG (30_encoding.md R70, R78). -/
def encode (i : Instr) : CommandWord := i.opcode ++ i.arg

/-- The decoder on the number `w` of an `nbits`-bit table row, numbered as spec/opcode_table.json numbers it: the whole
command word is one word, so bit 0 of `w` is bit 0 of ARG. Bits from `nbits` up are 0; a number that does not fit
40 bits is no command word (20_memory.md R55). -/
def decodeTableWord (nbits w : Nat) : Option Instr :=
  let cw := w % 2 ^ nbits
  if cw < 2 ^ 40 then
    match decode (BitVec.ofNat 40 cw) with
    | .ok i => some i
    | .error _ => none
  else none

end Sys2Proof
end

