-- ==== Sys2Proof/Config.lean ====
section
/-! DEFINITION. What the spec leaves open: the parameter PSDU_MAX and the unspecified values. All are opaque constants
with no body, so nothing can be proved about them beyond their types (spec/93_implementation_defined.md U1 to U4, U9). -/

namespace Sys2Proof.Config

/-- The type of the parameter PSDU_MAX: a natural number below 2^27 (00_scope.md R7). -/
abbrev PsduMax := Fin (2 ^ 27)

/-- DESIGN CHOICE (log 1), safe: PSDU_MAX of the instance that `State.reset` describes. The spec leaves it OPEN
(00_scope.md R7, D6); every state carries its own `psduMax`, and statements hold for each. -/
opaque psduMax : PsduMax

/-- FREE VALUE (log 5), safe for one run: the unspecified value that cell `i` of the buffer with id `b` takes at
event number `era` (10_state.md R40; U1, U2, U4). -/
opaque freeCell (era b i : Nat) : Byte

/-- FREE VALUE (log 6), safe for one run: SCR_STATE after event number `era`, a fault of SCRAMBLE
(10_state.md R36; U3). -/
opaque freeScrState (era : Nat) : ShiftReg

/-- FREE VALUE (log 6), safe for one run: ENC_STATE after event number `era`, a fault of CONV_ENCODE
(10_state.md R37; U3). -/
opaque freeEncState (era : Nat) : ShiftReg

end Sys2Proof.Config
end

