-- ==== Sys2Proof/Machine/State.lean ====
section
/-! DEFINITION. The state of one OFDMTX instance as plain data: every register of spec/10_state.md R22, the seven buffers
of R39, and the model's own bookkeeping fields; the fault causes, the refusals, and the state after reset (R43). -/

namespace Sys2Proof.Machine

/-- The seven buffers, in the order of their ids 0 to 6 (10_state.md R39). -/
inductive BufId where
  | psdu | data | scr | enc | pun | int | sym
  deriving DecidableEq, Repr

/-- The stored cells of one buffer: (index, value) pairs, indices strictly rising. A cell that is not listed was not
written since the buffer last took unspecified values (log 12). -/
abbrev Memory := List Host.Cell

/-- One buffer (10_state.md R38 to R40). -/
structure Buffer where
  /-- The LEN register of the buffer: how many cells, from index 0, are its present content (R38). -/
  len : Word
  /-- MODEL'S OWN (log 5): the number of the event (a reset or a stage fault) at which the cells of this buffer last
  took unspecified values; an unlisted cell holds `Config.freeCell era id index`. -/
  era : Nat
  /-- The cells written since that event. -/
  cells : Memory
  deriving DecidableEq, Repr

/-- The seven buffers (10_state.md R39). -/
structure Buffers where
  psdu : Buffer
  data : Buffer
  scr : Buffer
  enc : Buffer
  pun : Buffer
  int : Buffer
  sym : Buffer
  deriving DecidableEq, Repr

/-- The fields of STATUS (10_state.md R23); bits 31:24 of the register are always 0 and need no storage (log 13). -/
structure Status where
  /-- Bits 3:0. -/
  code : BitVec 4
  /-- Bits 7:4. -/
  sub : BitVec 4
  /-- Bits 15:8: OP of the command executed. -/
  op : Byte
  /-- Bits 23:16: opcode of the stage that raised the fault. -/
  stage : Byte
  deriving DecidableEq, Repr

/-- OFDM_VALID and the OfdmParam, registers 3 to 7 (10_state.md R25 to R30). -/
structure OfdmRegs where
  /-- VALID bit 0, OFDM_VALID. -/
  valid : Bool
  /-- Register 3, O_RB. -/
  oRb : Word
  /-- Register 4, BPSC. -/
  bpsc : Word
  /-- Register 5, AVG_BPSC. -/
  avgBpsc : Word
  /-- Register 6, N_CBPS. -/
  nCbps : Word
  /-- Register 7, N_DBPS. -/
  nDbps : Word
  deriving DecidableEq, Repr

/-- FRAME_VALID and the FrameParam, registers 8 to 12 (10_state.md R25, R31 to R35). -/
structure FrameRegs where
  /-- VALID bit 1, FRAME_VALID. -/
  valid : Bool
  /-- Register 8, PSDU_SIZE. -/
  psduSize : Word
  /-- Register 9, N_SYM. -/
  nSym : Word
  /-- Register 10, N_DATA_BITS. -/
  nDataBits : Word
  /-- Register 11, N_PAD. -/
  nPad : Word
  /-- Register 12, N_ENCODED_BITS. -/
  nEncodedBits : Word
  deriving DecidableEq, Repr

/-- What the outside of the instance does to it: the host's five primitives (20_memory.md R50), their arguments plain
numbers so that an argument outside its domain can be written and refused (R55), and the reset input
(70_reset_and_hazards.md R190; log 8). -/
inductive HostAct where
  /-- `HostCmd(cw)`. -/
  | cmd (cw : Nat)
  /-- `HostRegRead(n)`. -/
  | regRead (n : Nat)
  /-- `HostRegWrite(n, v)`. -/
  | regWrite (n v : Nat)
  /-- `HostBufRead(B, i)`. -/
  | bufRead (b i : Nat)
  /-- `HostBufWrite(B, i, v)`. -/
  | bufWrite (b i v : Nat)
  /-- The reset input, which is no primitive of the host (R190). -/
  | reset
  deriving DecidableEq, Repr

/-- The value a host primitive returns (20_memory.md R50). -/
inductive HostReply where
  /-- The register value that `HostRegRead` returns. -/
  | regValue (v : Word)
  /-- The cell value that `HostBufRead` returns. -/
  | cellValue (v : Byte)
  deriving DecidableEq, Repr

/-- The causes of the spec's faults, one constructor per (kind, sub-cause) of 60_exceptions.md R161 to R165, with what
FAULT_INFO reports. They are reported in STATUS and FAULT_INFO; the machine goes on (R171). -/
inductive FaultCause where
  /-- CONFIG sub 1, RB_ENCODING: the lowest offending block. -/
  | rbEncoding (block : Nat)
  /-- CONFIG sub 2, PSDU_NEGATIVE. -/
  | psduNegative
  /-- CONFIG sub 3, PSDU_TOO_LARGE. -/
  | psduTooLarge
  /-- CONFIG sub 4, SEED_RANGE. -/
  | seedRange
  /-- CONFIG sub 5, ILV_GEOMETRY. -/
  | ilvGeometry
  /-- CONTRACT sub 1, BIT_VALUE: the lowest offending cell of the input buffer. -/
  | bitValue (index : Nat)
  /-- COMMAND sub 1, UNKNOWN_OPCODE. -/
  | unknownOpcode
  /-- COMMAND sub 2, RESERVED_ARG. -/
  | reservedArg
  /-- SEQUENCE sub 1, NO_PARAMS. -/
  | noParams
  /-- SEQUENCE sub 2, INPUT_LENGTH: the input buffer. -/
  | inputLength (b : BufId)
  deriving DecidableEq, Repr

/-- The state of one instance. -/
structure State where
  /-- MODEL'S OWN (log 1): the parameter PSDU_MAX of this instance; no step changes it. -/
  psduMax : Config.PsduMax
  /-- Register 0 (10_state.md R23). -/
  status : Status
  /-- Register 1 (R24). -/
  faultInfo : Word
  /-- Registers 3 to 7 and OFDM_VALID (R25 to R30). -/
  ofdm : OfdmRegs
  /-- Registers 8 to 12 and FRAME_VALID (R25, R31 to R35). -/
  frame : FrameRegs
  /-- Register 13 bits 6:0; bits 31:7 are always 0 (R36). -/
  scrState : ShiftReg
  /-- Register 14 bits 6:0; bits 31:7 are always 0 (R37). -/
  encState : ShiftReg
  /-- The buffers and their LEN registers 16 to 22 (R38, R39). -/
  bufs : Buffers
  /-- MODEL'S OWN (log 5): how many events have chosen unspecified values; the number of the next one. -/
  freeCount : Nat
  /-- MODEL'S OWN (log 2): what the outside does next, the first entry first. -/
  pending : List HostAct
  /-- MODEL'S OWN (log 4): what the last host primitive returned. -/
  reply : Option HostReply
  deriving DecidableEq, Repr

/-- The reasons for which the machine itself stops with a fault: none. The spec's faults end a command with a report and
"never disable the instance" (60_exceptions.md R171), so they are next states; safe (log 11). -/
inductive Fault where
  deriving DecidableEq, Repr

/-- The reasons for which a step is refused. But for the first, each is a host access to which 20_memory.md R55 gives no
meaning and which "a model must reject" (U5), raised by `Machine.perform`; safe, since nothing is claimed about what
the hardware does there (log 10). -/
inductive Refusal where
  /-- An instruction without a meaning, raised by `exec`'s refused arms alone; there is none in this model. Safe. -/
  | notModelled (mnemonic : String)
  /-- `HostRegRead` or `HostRegWrite` of a register number above 22. Safe. -/
  | noSuchRegister (n : Nat)
  /-- `HostRegWrite` of a register 0 to 15, read-only or reserved. Safe. -/
  | readOnlyRegister (n : Nat)
  /-- `HostRegWrite` of a LEN register with a value above the capacity of its buffer. Safe. -/
  | lenAboveCapacity (b : BufId) (v : Nat)
  /-- `HostBufRead` or `HostBufWrite` with a buffer id above 6. Safe. -/
  | noSuchBuffer (b : Nat)
  /-- `HostBufRead` or `HostBufWrite` with a cell index at or above the capacity. Safe. -/
  | noSuchCell (b : BufId) (i : Nat)
  /-- `HostBufWrite` with a value of 256 or more. Safe. -/
  | cellValueTooLarge (v : Nat)
  /-- `HostCmd` with a number of 2^40 or more. Safe. -/
  | commandWordTooLarge (cw : Nat)
  deriving DecidableEq, Repr

/-- STATUS 0: CODE 0, SUB 0, OP 0, STAGE 0 (10_state.md R43). -/
def Status.zero : Status := ⟨0, 0, 0, 0⟩

/-- No OfdmParam: OFDM_VALID 0, registers 3 to 7 all 0 (10_state.md R43, R44 (a)). -/
def OfdmRegs.none : OfdmRegs := ⟨false, 0, 0, 0, 0, 0⟩

/-- No FrameParam: FRAME_VALID 0, registers 8 to 12 all 0 (10_state.md R43, R44 (c)). -/
def FrameRegs.none : FrameRegs := ⟨false, 0, 0, 0, 0, 0⟩

/-- A buffer that took unspecified values at event `era`: LEN 0 and no cell known (10_state.md R40, R43). -/
def Buffer.lost (era : Nat) : Buffer := ⟨0, era, []⟩

/-- All seven buffers lost at event `era` (10_state.md R43). -/
def Buffers.lost (era : Nat) : Buffers :=
  ⟨.lost era, .lost era, .lost era, .lost era, .lost era, .lost era, .lost era⟩

/-- The state right after reset of an instance whose PSDU_MAX is `m` (10_state.md R43): every register 0, every buffer
cell unspecified. The model's own fields: reset is event 0, nothing is pending, no reply (log 2, 4, 7). -/
def State.resetOf (m : Config.PsduMax) : State where
  psduMax := m
  status := .zero
  faultInfo := 0
  ofdm := .none
  frame := .none
  scrState := 0
  encState := 0
  bufs := .lost 0
  freeCount := 1
  pending := []
  reply := Option.none

/-- The machine right after reset, PSDU_MAX left open (10_state.md R43; log 1). -/
def State.reset : State := State.resetOf Config.psduMax

end Sys2Proof.Machine
end

