-- ==== Sys2Proof/Machine/Operands.lean ====
section
/-! DEFINITION. Every operand form and every index computation of the operations: the constants of spec/00_scope.md R6,
the resource-block encodings, the buffer ids and capacities, the shift-register steps, the interleaver's permutation
and the splitter's depth map. -/

namespace Sys2Proof.Machine

/-! ### Constants (00_scope.md R6) -/

/-- `N_SC`: data subcarriers per OFDM symbol. -/
def nSc : Nat := 48

/-- `SC_PER_RB`: subcarriers per resource block. -/
def scPerRb : Nat := 12

/-- `SERVICE_BITS`: zero bits at the head of the frame. -/
def serviceBits : Nat := 16

/-- `TAIL_BITS`: encoder tail bits. -/
def tailBits : Nat := 6

/-- `G0`, the first generator mask of the encoder. -/
def genMask0 : ShiftReg := 0x6D

/-- `G1`, the second generator mask of the encoder. -/
def genMask1 : ShiftReg := 0x4F

/-- `SHIFT_MASK`, applied after the left shift in both shift registers. -/
def shiftMask : ShiftReg := 0x7E

/-- `ILV_COLS`, the constant 16 of both interleaver permutations. -/
def ilvCols : Nat := 16

/-- `ceil_div(a, b)` = (a + b - 1) div b (00_scope.md R12). -/
def ceilDiv (a b : Nat) : Nat := (a + b - 1) / b

/-! ### Buffers (10_state.md R39, 00_scope.md R7) -/

/-- The id of a buffer (10_state.md R39). -/
def BufId.id : BufId → Nat
  | .psdu => 0
  | .data => 1
  | .scr => 2
  | .enc => 3
  | .pun => 4
  | .int => 5
  | .sym => 6

/-- The buffer with a given id; there is none above 6 (10_state.md R39, 20_memory.md R55). -/
def BufId.ofId : Nat → Option BufId
  | 0 => some .psdu
  | 1 => some .data
  | 2 => some .scr
  | 3 => some .enc
  | 4 => some .pun
  | 5 => some .int
  | 6 => some .sym
  | _ => none

/-- `CAP_DATA` = 8 * PSDU_MAX + 165 (00_scope.md R7). -/
def capData (psduMax : Nat) : Nat := 8 * psduMax + 165

/-- The capacity of a buffer in cells, for an instance with PSDU_MAX = `psduMax` (00_scope.md R7). -/
def capacity (psduMax : Nat) : BufId → Nat
  | .psdu => psduMax
  | .data => capData psduMax
  | .scr => capData psduMax
  | .enc => 2 * capData psduMax
  | .pun => 2 * capData psduMax
  | .int => 2 * capData psduMax
  | .sym => 48 * ceilDiv (8 * psduMax + 22) 24

/-! ### Resource-block encodings (30_encoding.md R73, 40_parameters.md R90) -/

/-- ResourceBlockEncoding (30_encoding.md R73). -/
inductive RbEncoding where
  | bpsk12 | qpsk12 | qam16_12 | qam64_12
  deriving DecidableEq, Repr

/-- The encoding with a given code; codes above 3 are no encoding (30_encoding.md R73). -/
def RbEncoding.ofCode : Nat → Option RbEncoding
  | 0 => some .bpsk12
  | 1 => some .qpsk12
  | 2 => some .qam16_12
  | 3 => some .qam64_12
  | _ => none

/-- `cost`, bits per subcarrier (40_parameters.md R90). -/
def RbEncoding.cost : RbEncoding → Nat
  | .bpsk12 => 1
  | .qpsk12 => 2
  | .qam16_12 => 4
  | .qam64_12 => 6

/-- The four encodings of one OFDM symbol, block 0 first. -/
structure RbAssignment where
  rb0 : RbEncoding
  rb1 : RbEncoding
  rb2 : RbEncoding
  rb3 : RbEncoding
  deriving DecidableEq, Repr

/-- The four codes of OFDM_PARAM as encodings, or the lowest block whose code is above 3 (40_parameters.md R91). -/
def RbAssignment.ofCodes (c0 c1 c2 c3 : Nat) : Except Nat RbAssignment :=
  match RbEncoding.ofCode c0 with
  | none => .error 0
  | some e0 =>
    match RbEncoding.ofCode c1 with
    | none => .error 1
    | some e1 =>
      match RbEncoding.ofCode c2 with
      | none => .error 2
      | some e2 =>
        match RbEncoding.ofCode c3 with
        | none => .error 3
        | some e3 => .ok ⟨e0, e1, e2, e3⟩

/-- `total`, the sum of the four costs (40_parameters.md R91). -/
def RbAssignment.total (a : RbAssignment) : Nat :=
  a.rb0.cost + a.rb1.cost + a.rb2.cost + a.rb3.cost

/-! ### Shift registers (41_assemble_scramble_tail.md R103, 42_convolutional_puncture.md R115) -/

/-- ((st shl 1) and 0x7E) or x: the shift of both registers, the new bit entering at bit 0. -/
def shiftIn (st : ShiftReg) (x : Bool) : ShiftReg :=
  ((st <<< 1) &&& shiftMask) ||| (if x then 1 else 0)

/-- The scrambler's feedback, st[6] xor st[3] (R103). -/
def scrFeedback (st : ShiftReg) : Bool := st.getLsbD 6 ^^ st.getLsbD 3

/-- The parity of a 7-bit value, the xor of all its bits (00_scope.md R12). -/
def parity (v : ShiftReg) : Bool :=
  v.getLsbD 0 ^^ v.getLsbD 1 ^^ v.getLsbD 2 ^^ v.getLsbD 3 ^^ v.getLsbD 4 ^^ v.getLsbD 5 ^^ v.getLsbD 6

/-- The scrambler's output bits for the input bits `xs` from state `st`: each is feedback xor input, and the feedback,
not the input, is shifted in (R103, R104). -/
def scrambleOut : ShiftReg → List Bool → List Bool
  | _, [] => []
  | st, x :: xs => (scrFeedback st ^^ x) :: scrambleOut (shiftIn st (scrFeedback st)) xs

/-- The scrambler's state after as many steps as `xs` is long (R103, R104). -/
def scrambleEnd : ShiftReg → List Bool → ShiftReg
  | st, [] => st
  | st, _ :: xs => scrambleEnd (shiftIn st (scrFeedback st)) xs

/-- The encoder's output bits for the input bits `xs` from state `st`: the input bit is shifted in first, then the
parities of the new state under `G0` and `G1` come out (R115). -/
def convOut : ShiftReg → List Bool → List Bool
  | _, [] => []
  | st, x :: xs =>
    parity (shiftIn st x &&& genMask0) :: parity (shiftIn st x &&& genMask1) :: convOut (shiftIn st x) xs

/-- The encoder's state after the input bits `xs` (R115, R116). -/
def convEnd : ShiftReg → List Bool → ShiftReg
  | st, [] => st
  | st, x :: xs => convEnd (shiftIn st x) xs

/-! ### The interleaver's permutation (43_interleaver.md R125 to R129) -/

/-- The stride s = max(AVG_BPSC div 2, 1) (R125). -/
def stride (avgBpsc : Nat) : Nat := max (avgBpsc / 2) 1

/-- perm1[j] = s * (j div s) + ((j + ((16 * j) div n)) mod s) (R126). -/
def perm1 (n s j : Nat) : Nat := s * (j / s) + (j + ilvCols * j / n) % s

/-- perm2[i] = 16 * i - (n - 1) * ((16 * i) div n) (R127). -/
def perm2 (n i : Nat) : Nat := ilvCols * i - (n - 1) * (ilvCols * i / n)

/-- dest(k) = perm2[perm1[k]] (R128). -/
def dest (n s k : Nat) : Nat := perm2 n (perm1 n s k)

/-- No value stands twice in the list. -/
def noneTwice : List Nat → Bool
  | [] => true
  | x :: xs => xs.all (fun y => x != y) && noneTwice xs

/-- `IlvValid(n, s)`: every perm1[k] is in range, every dest(k) is in range, and no value is taken twice, so that dest
maps 0 to n - 1 one-to-one onto itself (R129). -/
def ilvValid (n s : Nat) : Bool :=
  (List.range n).all (fun k => perm1 n s k < n && dest n s k < n) && noneTwice ((List.range n).map (dest n s))

/-! ### The splitter's depth map (44_symbol_splitter.md R140, R141) -/

/-- depth(p) = BPSC[p div 12] (R140). -/
def depth (bpsc : Word) (p : Nat) : Nat := byteField bpsc (p / scPerRb)

/-- The depths of the 48 subcarrier positions of one OFDM symbol, in order (R140). -/
def symbolDepths (bpsc : Word) : List Nat := (List.range nSc).map (depth bpsc)

/-- Bits packed into a number, the first bit at bit 0 (20_memory.md R53 (b), R141). -/
def packLsb : List Bool → Nat
  | [] => 0
  | b :: bs => b.toNat + 2 * packLsb bs

/-- The subcarrier symbols made from the bits `xs`, consumed in order, one symbol for each depth of the list (R141). -/
def splitBits : List Nat → List Bool → List Nat
  | [], _ => []
  | d :: ds, xs => packLsb (xs.take d) :: splitBits ds (xs.drop d)

/-- The depths of a whole frame: those of one symbol, N_SYM times (R141). -/
def frameDepths (bpsc : Word) (nSym : Nat) : List Nat := (List.range nSym).flatMap fun _ => symbolDepths bpsc

/-- The subcarrier symbols of `nSym` OFDM symbols (R141). -/
def splitSymbols (bpsc : Word) (nSym : Nat) (xs : List Bool) : List Nat := splitBits (frameDepths bpsc nSym) xs

end Sys2Proof.Machine
end

