-- ==== Sys2Proof/Machine/Flags.lean ====
section
/-! DEFINITION. Every status computation: the codes of the fault causes (spec/60_exceptions.md R160 to R165), the words
of STATUS and VALID (spec/10_state.md R23, R25), and reading a register by its number (R22). -/

namespace Sys2Proof.Machine

/-- STATUS.CODE of a fault: 1 CONFIG, 2 CONTRACT, 3 COMMAND, 4 SEQUENCE (R160). -/
def FaultCause.code : FaultCause → BitVec 4
  | .rbEncoding _ => 1
  | .psduNegative => 1
  | .psduTooLarge => 1
  | .seedRange => 1
  | .ilvGeometry => 1
  | .bitValue _ => 2
  | .unknownOpcode => 3
  | .reservedArg => 3
  | .noParams => 4
  | .inputLength _ => 4

/-- STATUS.SUB of a fault (R161, R163, R164, R165). -/
def FaultCause.sub : FaultCause → BitVec 4
  | .rbEncoding _ => 1
  | .psduNegative => 2
  | .psduTooLarge => 3
  | .seedRange => 4
  | .ilvGeometry => 5
  | .bitValue _ => 1
  | .unknownOpcode => 1
  | .reservedArg => 2
  | .noParams => 1
  | .inputLength _ => 2

/-- FAULT_INFO of a fault (10_state.md R24, R161 to R165). -/
def FaultCause.info : FaultCause → Word
  | .rbEncoding block => BitVec.ofNat 32 block
  | .psduNegative => 0
  | .psduTooLarge => 0
  | .seedRange => 0
  | .ilvGeometry => 0
  | .bitValue index => BitVec.ofNat 32 index
  | .unknownOpcode => 0
  | .reservedArg => 0
  | .noParams => 0
  | .inputLength b => BitVec.ofNat 32 b.id

/-- STATUS after a success: CODE 0, SUB 0, OP, STAGE 0 (40_parameters.md, the template of every operation rule). -/
def Status.ok (op : Byte) : Status := ⟨0, 0, op, 0⟩

/-- STATUS after a fault: CODE, SUB, OP, STAGE (60_exceptions.md R170). -/
def Status.ofFault (c : FaultCause) (op stage : Byte) : Status := ⟨c.code, c.sub, op, stage⟩

/-- The STATUS register as a word: 3:0 CODE, 7:4 SUB, 15:8 OP, 23:16 STAGE, 31:24 always 0 (10_state.md R23). -/
def Status.word (st : Status) : Word := (0 : Byte) ++ st.stage ++ st.op ++ st.sub ++ st.code

/-- The VALID register as a word: bit 0 OFDM_VALID, bit 1 FRAME_VALID, bits 31:2 always 0 (10_state.md R25). -/
def validWord (ofdmValid frameValid : Bool) : Word :=
  BitVec.ofNat 32 (ofdmValid.toNat + 2 * frameValid.toNat)

/-- The value of register `n` as the host reads it; register 15 reads 0 and there is none above 22 (10_state.md R22). -/
def State.regRead (s : State) : Nat → Option Word
  | 0 => some s.status.word
  | 1 => some s.faultInfo
  | 2 => some (validWord s.ofdm.valid s.frame.valid)
  | 3 => some s.ofdm.oRb
  | 4 => some s.ofdm.bpsc
  | 5 => some s.ofdm.avgBpsc
  | 6 => some s.ofdm.nCbps
  | 7 => some s.ofdm.nDbps
  | 8 => some s.frame.psduSize
  | 9 => some s.frame.nSym
  | 10 => some s.frame.nDataBits
  | 11 => some s.frame.nPad
  | 12 => some s.frame.nEncodedBits
  | 13 => some (s.scrState.setWidth 32)
  | 14 => some (s.encState.setWidth 32)
  | 15 => some 0
  | 16 => some s.bufs.psdu.len
  | 17 => some s.bufs.data.len
  | 18 => some s.bufs.scr.len
  | 19 => some s.bufs.enc.len
  | 20 => some s.bufs.pun.len
  | 21 => some s.bufs.int.len
  | 22 => some s.bufs.sym.len
  | _ => none

end Sys2Proof.Machine
end

