-- ==== Sys2Proof/Machine/Ops.lean ====
section
/-! DEFINITION. The named operations over memory and registers that the meanings share: cells and LEN registers, the
tests of the fault priority, the end of a command, and fault entry (spec/60_exceptions.md R167, R170). There is no
return from a fault (R171). -/

namespace Sys2Proof.Machine

/-! ### The cells of one buffer -/

/-- What is stored for cell `i`, if it was written since the buffer last took unspecified values. -/
def Memory.get? : Memory → Nat → Option Byte
  | [], _ => none
  | (a, v) :: m, i => if i = a then some v else Memory.get? m i

/-- Store `v` in cell `i`, keeping the indices strictly rising. -/
def Memory.write : Memory → Nat → Byte → Memory
  | [], i, v => [(i, v)]
  | (a, x) :: m, i, v =>
    if i < a then (i, v) :: (a, x) :: m
    else if i = a then (i, v) :: m
    else (a, x) :: Memory.write m i v

/-- A list of assignments, performed in order. -/
def Memory.writeAll : Memory → List Host.Cell → Memory
  | m, [] => m
  | m, c :: cs => Memory.writeAll (m.write c.1 c.2) cs

/-- The canonical form: indices strictly rising. An unlisted cell has no stored value, so no entry can equal what an
unlisted cell reads as (log 12). -/
abbrev Memory.wf (m : Memory) : Prop := m.Pairwise (fun x y => x.1 < y.1)

/-- The value of cell `i` of buffer `b`: what was last written, or the unspecified value the cell took at the buffer's
last losing event (10_state.md R40; log 5). -/
def Buffer.cell (x : Buffer) (b : BufId) (i : Nat) : Byte :=
  (x.cells.get? i).getD (Config.freeCell x.era b.id i)

/-! ### The seven buffers -/

/-- One of the seven buffers. -/
def Buffers.get (bs : Buffers) : BufId → Buffer
  | .psdu => bs.psdu
  | .data => bs.data
  | .scr => bs.scr
  | .enc => bs.enc
  | .pun => bs.pun
  | .int => bs.int
  | .sym => bs.sym

/-- Replace one of the seven buffers. -/
def Buffers.set (bs : Buffers) (b : BufId) (x : Buffer) : Buffers :=
  match b with
  | .psdu => { bs with psdu := x }
  | .data => { bs with data := x }
  | .scr => { bs with scr := x }
  | .enc => { bs with enc := x }
  | .pun => { bs with pun := x }
  | .int => { bs with int := x }
  | .sym => { bs with sym := x }

/-- Buffer `b` of the state. -/
def State.buf (s : State) (b : BufId) : Buffer := s.bufs.get b

/-- Replace buffer `b` of the state. -/
def State.setBuf (s : State) (b : BufId) (x : Buffer) : State := { s with bufs := s.bufs.set b x }

/-- Write SCR_STATE. -/
def State.setScrState (s : State) (v : ShiftReg) : State := { s with scrState := v }

/-- Write ENC_STATE. -/
def State.setEncState (s : State) (v : ShiftReg) : State := { s with encState := v }

/-- Write registers 3 to 7 and OFDM_VALID. -/
def State.setOfdm (s : State) (r : OfdmRegs) : State := { s with ofdm := r }

/-- Write registers 8 to 12 and FRAME_VALID. -/
def State.setFrame (s : State) (r : FrameRegs) : State := { s with frame := r }

/-- Set what the host primitive being performed returns (log 4). -/
def State.setReply (s : State) (r : Option HostReply) : State := { s with reply := r }

/-- Set what the outside does next (log 2). -/
def State.setPending (s : State) (as : List HostAct) : State := { s with pending := as }

/-- Advance the number of the next event that chooses unspecified values (log 5). -/
def State.setFreeCount (s : State) (n : Nat) : State := { s with freeCount := n }

/-- `LEN[b]` as a number (10_state.md R38). -/
def State.len (s : State) (b : BufId) : Nat := (s.buf b).len.toNat

/-- `buf[b][i]` (00_scope.md R13, 10_state.md R40). -/
def State.cell (s : State) (b : BufId) (i : Nat) : Byte := (s.buf b).cell b i

/-- `CAP_b` of this instance (00_scope.md R7). -/
def State.cap (s : State) (b : BufId) : Nat := capacity s.psduMax.val b

/-- `LEN[b] <- n`; no cell changes (10_state.md R40). -/
def State.setLen (s : State) (b : BufId) (n : Nat) : State :=
  s.setBuf b { s.buf b with len := BitVec.ofNat 32 n }

/-- The assignments `buf[b][i] <- v` of the list, in order (00_scope.md R13). -/
def State.writeCells (s : State) (b : BufId) (ws : List Host.Cell) : State :=
  s.setBuf b { s.buf b with cells := (s.buf b).cells.writeAll ws }

/-- for B in 1 .. 6: LEN[B] <- 0 (40_parameters.md R91, R94, 45_encode_frame.md R147). -/
def Buffers.clearStageLens (bs : Buffers) : Buffers where
  psdu := bs.psdu
  data := { bs.data with len := 0 }
  scr := { bs.scr with len := 0 }
  enc := { bs.enc with len := 0 }
  pun := { bs.pun with len := 0 }
  int := { bs.int with len := 0 }
  sym := { bs.sym with len := 0 }

/-- LEN[1..6] <- 0; PSDU and LEN_PSDU are not touched (R91, R94, R147). -/
def State.clearStageLens (s : State) : State := { s with bufs := s.bufs.clearStageLens }

/-- The values of a list as assignments to the cells `i`, `i + 1`, ... . -/
def numbered : Nat → List Byte → List Host.Cell
  | _, [] => []
  | i, v :: vs => (i, v) :: numbered (i + 1) vs

/-- A bit as the cell value 0 or 1 (30_encoding.md R80). -/
def bitCell (x : Bool) : Byte := if x then 1 else 0

/-- The first `n` cells of a bit buffer as bits (00_scope.md R14); used after the cells were tested to be 0 or 1. -/
def State.bits (s : State) (b : BufId) (n : Nat) : List Bool :=
  (List.range n).map (fun i => (s.cell b i).getLsbD 0)

/-! ### The tests, in the notation of R167: the cause of the fault, if the test fails -/

/-- SEQUENCE sub 1: the FrameParam does not exist (60_exceptions.md R165). -/
def State.needFrame (s : State) : Option FaultCause :=
  if s.frame.valid then none else some .noParams

/-- SEQUENCE sub 2: LEN of the input buffer is not `n` (R165). -/
def State.needLen (s : State) (b : BufId) (n : Nat) : Option FaultCause :=
  if s.len b = n then none else some (.inputLength b)

/-- CONFIG sub 4: the seed is above 127 (R161). -/
def needSeed (seed : Nat) : Option FaultCause :=
  if seed ≤ 127 then none else some .seedRange

/-- CONFIG sub 5: the interleaver geometry is not valid (R161, 43_interleaver.md R129). -/
def State.needGeometry (s : State) : Option FaultCause :=
  if ilvValid s.ofdm.nCbps.toNat (stride s.ofdm.avgBpsc.toNat) then none else some .ilvGeometry

/-- CONTRACT sub 1: the lowest of the first `n` cells of the input buffer that is neither 0 nor 1 (R163). -/
def State.needBits (s : State) (b : BufId) (n : Nat) : Option FaultCause :=
  ((List.range n).find? (fun i => decide (1 < (s.cell b i).toNat))).map .bitValue

/-! ### The end of a stage and of a command -/

/-- How a stage ends: completed, or abandoned by `raise` with a cause, the opcode of the stage, and the state it left. -/
inductive StageResult where
  | done (s : State)
  | raised (stage : Byte) (c : FaultCause) (s : State)
  deriving DecidableEq, Repr

/-- One stage: all its tests come before anything is written, so it is the first failing test, if any, with the state
the abandoned stage leaves, or else the completed state. -/
def runStage (stage : Byte) (test : Option FaultCause) (abandoned completed : State) : StageResult :=
  match test with
  | some c => .raised stage c abandoned
  | none => .done completed

/-- The next stage of a chain: a raised fault ends the chain (45_encode_frame.md R147). -/
def StageResult.andThen (r : StageResult) (f : State → StageResult) : StageResult :=
  match r with
  | .done s => f s
  | .raised stage c s => .raised stage c s

/-- What a faulting stage does to its destination buffer: LEN 0 and every cell an unspecified value, of a new event
(60_exceptions.md R170, 10_state.md R40 (4); log 5, log 9). -/
def State.loseBuf (s : State) (b : BufId) : State :=
  (s.setBuf b (.lost s.freeCount)).setFreeCount (s.freeCount + 1)

/-- FAULT ENTRY, one for all commands: STATUS and FAULT_INFO are written and the command ends; nothing is saved
anywhere and control goes nowhere (60_exceptions.md R170). -/
def State.faultEntry (s : State) (c : FaultCause) (op stage : Byte) : State :=
  { s with status := .ofFault c op stage, faultInfo := c.info }

/-- The end of a successful command: STATUS (0, 0, OP, 0), FAULT_INFO 0 (40_parameters.md, template). -/
def State.succeed (s : State) (op : Byte) : State :=
  { s with status := .ok op, faultInfo := 0 }

/-- The end of the command with opcode `op`: its report. -/
def finish (op : Byte) : StageResult → Host.Outcome State Fault Refusal
  | .done s => .next (s.succeed op)
  | .raised stage c s => .next (s.faultEntry c op stage)

end Sys2Proof.Machine
end

