-- ==== Sys2Proof/Machine/Coding.lean ====
section
/-! DEFINITION. CONV_ENCODE and PUNCTURE (spec/42_convolutional_puncture.md R116, R118). -/

namespace Sys2Proof.Machine

/-- What CONV_ENCODE leaves: the register starts at 0 and keeps the state after the last bit (R116). -/
def State.convEncoded (s : State) : State :=
  ((s.writeCells .enc (numbered 0 ((convOut 0 (s.bits .scr s.frame.nDataBits.toNat)).map bitCell))).setLen .enc
      (2 * s.frame.nDataBits.toNat)).setEncState
    (convEnd 0 (s.bits .scr s.frame.nDataBits.toNat))

/-- The stage CONV_ENCODE, SCR to ENC; after a fault the register is unspecified (R116, 60_exceptions.md R170; log 6). -/
def convEncodeStage (s : State) : StageResult :=
  runStage 0x06
    ((s.needFrame.or (s.needLen .scr s.frame.nDataBits.toNat)).or (s.needBits .scr s.frame.nDataBits.toNat))
    ((s.loseBuf .enc).setEncState (Config.freeEncState s.freeCount))
    s.convEncoded

/-- CONV_ENCODE (R116). -/
def execConvEncode (s : State) : Host.Outcome State Fault Refusal := finish 0x06 (convEncodeStage s)

/-- What PUNCTURE leaves: every bit kept (R118, R119). -/
def State.punctured (s : State) : State :=
  (s.writeCells .pun (numbered 0 ((List.range (2 * s.frame.nDataBits.toNat)).map (s.cell .enc)))).setLen .pun
    s.frame.nEncodedBits.toNat

/-- The stage PUNCTURE, ENC to PUN (R118). -/
def punctureStage (s : State) : StageResult :=
  runStage 0x07
    ((s.needFrame.or (s.needLen .enc (2 * s.frame.nDataBits.toNat))).or
      (s.needBits .enc (2 * s.frame.nDataBits.toNat)))
    (s.loseBuf .pun) s.punctured

/-- PUNCTURE (R118). -/
def execPuncture (s : State) : Host.Outcome State Fault Refusal := finish 0x07 (punctureStage s)

end Sys2Proof.Machine
end

