-- ==== Sys2Proof/Machine/Framing.lean ====
section
/-! DEFINITION. ASSEMBLE, SCRAMBLE and TAIL_RESET (spec/41_assemble_scramble_tail.md R101, R104, R109). -/

namespace Sys2Proof.Machine

/-- The payload bits: byte 0 first, bit 0 of each byte first (R101, 20_memory.md R53 (a)). -/
def State.payloadBits (s : State) (size : Nat) : List Bool :=
  (List.range size).flatMap (fun i => (List.range 8).map (fun b => (s.cell .psdu i).getLsbD b))

/-- The bits ASSEMBLE writes from cell 0 on: 16 service zeros, the payload, zeros up to N_DATA_BITS (R101, R102). -/
def State.assembledBits (s : State) : List Bool :=
  List.replicate serviceBits false ++ s.payloadBits s.frame.psduSize.toNat ++
    List.replicate (s.frame.nDataBits.toNat - (serviceBits + 8 * s.frame.psduSize.toNat)) false

/-- What ASSEMBLE leaves (R101). -/
def State.assembled (s : State) : State :=
  (s.writeCells .data (numbered 0 (s.assembledBits.map bitCell))).setLen .data s.frame.nDataBits.toNat

/-- The stage ASSEMBLE, PSDU to DATA (R101). -/
def assembleStage (s : State) : StageResult :=
  runStage 0x03
    (s.needFrame.or (s.needLen .psdu s.frame.psduSize.toNat))
    (s.loseBuf .data) s.assembled

/-- ASSEMBLE (R101). -/
def execAssemble (s : State) : Host.Outcome State Fault Refusal := finish 0x03 (assembleStage s)

/-- What SCRAMBLE leaves: the register is loaded from the seed and keeps the state after the last bit (R104). -/
def State.scrambled (s : State) (seed : Nat) : State :=
  ((s.writeCells .scr (numbered 0
        ((scrambleOut (BitVec.ofNat 7 seed) (s.bits .data s.frame.nDataBits.toNat)).map bitCell))).setLen .scr
      s.frame.nDataBits.toNat).setScrState
    (scrambleEnd (BitVec.ofNat 7 seed) (s.bits .data s.frame.nDataBits.toNat))

/-- The stage SCRAMBLE, DATA to SCR; after a fault the register is unspecified (R104, 60_exceptions.md R170; log 6). -/
def scrambleStage (seed : Nat) (s : State) : StageResult :=
  runStage 0x04
    (((s.needFrame.or (s.needLen .data s.frame.nDataBits.toNat)).or (needSeed seed)).or
      (s.needBits .data s.frame.nDataBits.toNat))
    ((s.loseBuf .scr).setScrState (Config.freeScrState s.freeCount))
    (s.scrambled seed)

/-- SCRAMBLE (R104). -/
def execScramble (seed : Nat) (s : State) : Host.Outcome State Fault Refusal := finish 0x04 (scrambleStage seed s)

/-- T = N_DATA_BITS - N_PAD - 6, the first of the six tail cells (R109). -/
def State.tailStart (s : State) : Nat := s.frame.nDataBits.toNat - s.frame.nPad.toNat - tailBits

/-- What TAIL_RESET leaves: six zeros from T on (R109). -/
def State.tailCleared (s : State) : State :=
  s.writeCells .scr (numbered s.tailStart (List.replicate tailBits 0))

/-- The stage TAIL_RESET, six cells of SCR in place; it reads no cell (R109). -/
def tailResetStage (s : State) : StageResult :=
  runStage 0x05
    (s.needFrame.or (s.needLen .scr s.frame.nDataBits.toNat))
    (s.loseBuf .scr) s.tailCleared

/-- TAIL_RESET (R109). -/
def execTailReset (s : State) : Host.Outcome State Fault Refusal := finish 0x05 (tailResetStage s)

end Sys2Proof.Machine
end

