-- ==== Sys2Proof/Machine/Interleaver.lean ====
section
/-! DEFINITION. INTERLEAVE and DEINTERLEAVE (spec/43_interleaver.md R130, R131). -/

namespace Sys2Proof.Machine

/-- The tests of both directions, in order (R130, R131). -/
def State.needInterleave (s : State) : Option FaultCause :=
  ((s.needFrame.or (s.needLen .pun s.frame.nEncodedBits.toNat)).or s.needGeometry).or
    (s.needBits .pun s.frame.nEncodedBits.toNat)

/-- dest(k) for the block size N_CBPS and the stride of the state (R125, R128). -/
def State.destOf (s : State) (k : Nat) : Nat := dest s.ofdm.nCbps.toNat (stride s.ofdm.avgBpsc.toNat) k

/-- The pairs of loop values (m, k), m the OFDM symbol and k the position in its block, in order (R130, R131). -/
def State.blockPositions (s : State) : List (Nat × Nat) :=
  (List.range s.frame.nSym.toNat).flatMap (fun m => (List.range s.ofdm.nCbps.toNat).map (fun k => (m, k)))

/-- buf[INT][m n + k] <- buf[PUN][m n + dest(k)], for every m and k in order (R130). -/
def State.interleaveWrites (s : State) : List Host.Cell :=
  s.blockPositions.map fun mk =>
    (mk.1 * s.ofdm.nCbps.toNat + mk.2, s.cell .pun (mk.1 * s.ofdm.nCbps.toNat + s.destOf mk.2))

/-- buf[INT][m n + dest(k)] <- buf[PUN][m n + k], for every m and k in order (R131). -/
def State.deinterleaveWrites (s : State) : List Host.Cell :=
  s.blockPositions.map fun mk =>
    (mk.1 * s.ofdm.nCbps.toNat + s.destOf mk.2, s.cell .pun (mk.1 * s.ofdm.nCbps.toNat + mk.2))

/-- What INTERLEAVE leaves (R130). -/
def State.interleaved (s : State) : State :=
  (s.writeCells .int s.interleaveWrites).setLen .int s.frame.nEncodedBits.toNat

/-- What DEINTERLEAVE leaves (R131). -/
def State.deinterleaved (s : State) : State :=
  (s.writeCells .int s.deinterleaveWrites).setLen .int s.frame.nEncodedBits.toNat

/-- The stage INTERLEAVE, PUN to INT (R130). -/
def interleaveStage (s : State) : StageResult :=
  runStage 0x08 s.needInterleave (s.loseBuf .int) s.interleaved

/-- INTERLEAVE (R130). -/
def execInterleave (s : State) : Host.Outcome State Fault Refusal := finish 0x08 (interleaveStage s)

/-- The stage DEINTERLEAVE, PUN to INT, the inverse assignment (R131). -/
def deinterleaveStage (s : State) : StageResult :=
  runStage 0x09 s.needInterleave (s.loseBuf .int) s.deinterleaved

/-- DEINTERLEAVE (R131). -/
def execDeinterleave (s : State) : Host.Outcome State Fault Refusal := finish 0x09 (deinterleaveStage s)

end Sys2Proof.Machine
end

