-- ==== Sys2Proof/Machine/Splitter.lean ====
section
/-! DEFINITION. SPLIT, the per-subcarrier symbol packer (spec/44_symbol_splitter.md R141). -/

namespace Sys2Proof.Machine

/-- What SPLIT leaves (R141). -/
def State.symbolsPacked (s : State) : State :=
  (s.writeCells .sym (numbered 0
      ((splitSymbols s.ofdm.bpsc s.frame.nSym.toNat (s.bits .int s.frame.nEncodedBits.toNat)).map
        (BitVec.ofNat 8)))).setLen .sym (nSc * s.frame.nSym.toNat)

/-- The stage SPLIT, INT to SYM: the symbol of OFDM symbol m and position p goes to cell 48 m + p, which is the order
in which the symbols are made (R141). -/
def splitStage (s : State) : StageResult :=
  runStage 0x0A
    ((s.needFrame.or (s.needLen .int s.frame.nEncodedBits.toNat)).or (s.needBits .int s.frame.nEncodedBits.toNat))
    (s.loseBuf .sym) s.symbolsPacked

/-- SPLIT (R141). -/
def execSplit (s : State) : Host.Outcome State Fault Refusal := finish 0x0A (splitStage s)

end Sys2Proof.Machine
end

