-- ==== Sys2Proof/Machine/Chain.lean ====
section
/-! DEFINITION. ENCODE_FRAME, the seven stages as one command (spec/45_encode_frame.md R147). -/

namespace Sys2Proof.Machine

/-- The seven stages in order, each on the state the one before it left; the first fault ends the chain (R147). -/
def chainStages (seed : Nat) (s : State) : StageResult :=
  ((((((assembleStage s).andThen (scrambleStage seed)).andThen tailResetStage).andThen convEncodeStage).andThen
    punctureStage).andThen interleaveStage).andThen splitStage

/-- ENCODE_FRAME (R147): without a FrameParam nothing changes but the report; otherwise LEN[1..6] <- 0 first. -/
def execEncodeFrame (seed : Nat) (s : State) : Host.Outcome State Fault Refusal :=
  match s.needFrame with
  | some c => .next (s.faultEntry c 0x0B 0x0B)
  | none => finish 0x0B (chainStages seed s.clearStageLens)

end Sys2Proof.Machine
end

