-- ==== Sys2Proof/Machine/Params.lean ====
section
/-! DEFINITION. OFDM_PARAM and FRAME_PARAM (spec/40_parameters.md R91, R94). -/

namespace Sys2Proof.Machine

/-- The statements at the head of OFDM_PARAM and FRAME_PARAM: no FrameParam, LEN[1..6] <- 0 (R91, R94). -/
def State.discardFrame (s : State) : State :=
  (s.setFrame .none).clearStageLens

/-- OFDM_VALID and registers 3 to 7 of an assignment whose codes are `c0` to `c3` (R91). -/
def OfdmRegs.derive (c0 c1 c2 c3 : Nat) (a : RbAssignment) : OfdmRegs where
  valid := true
  oRb := packBlocks c0 c1 c2 c3
  bpsc := packBlocks a.rb0.cost a.rb1.cost a.rb2.cost a.rb3.cost
  avgBpsc := BitVec.ofNat 32 (a.total / 4)
  nCbps := BitVec.ofNat 32 (scPerRb * a.total)
  nDbps := BitVec.ofNat 32 (scPerRb * a.total / 2)

/-- OFDM_PARAM (R91): the FrameParam and LEN[1..6] go in any case; a code above 3 also clears the OfdmParam and raises
CONFIG sub 1 with the lowest such block. -/
def execOfdmParam (rb0 rb1 rb2 rb3 : Nat) (s : State) : Host.Outcome State Fault Refusal :=
  match RbAssignment.ofCodes rb0 rb1 rb2 rb3 with
  | .error b => .next ((s.discardFrame.setOfdm .none).faultEntry (.rbEncoding b) 0x01 0x01)
  | .ok a => .next ((s.discardFrame.setOfdm (.derive rb0 rb1 rb2 rb3 a)).succeed 0x01)

/-- need = 16 + 8 * len + 6 (R94). -/
def needBitsOf (len : Nat) : Nat := serviceBits + 8 * len + tailBits

/-- FRAME_VALID and registers 8 to 12 for a payload of `len` bytes, from N_DBPS and N_CBPS (R94). -/
def FrameRegs.derive (len nDbps nCbps : Nat) : FrameRegs where
  valid := true
  psduSize := BitVec.ofNat 32 len
  nSym := BitVec.ofNat 32 (ceilDiv (needBitsOf len) nDbps)
  nDataBits := BitVec.ofNat 32 (ceilDiv (needBitsOf len) nDbps * nDbps)
  nPad := BitVec.ofNat 32 (ceilDiv (needBitsOf len) nDbps * nDbps - needBitsOf len)
  nEncodedBits := BitVec.ofNat 32 (ceilDiv (needBitsOf len) nDbps * nCbps)

/-- The tests of FRAME_PARAM in order: SEQUENCE sub 1, CONFIG sub 2, CONFIG sub 3 (R93, R94). -/
def State.needPayload (s : State) (len : Int) : Option FaultCause :=
  if s.ofdm.valid = false then some .noParams
  else if len < 0 then some .psduNegative
  else if (s.psduMax.val : Int) < len then some .psduTooLarge
  else none

/-- FRAME_PARAM (R94): the old FrameParam and LEN[1..6] go in any case. -/
def execFrameParam (len : Int) (s : State) : Host.Outcome State Fault Refusal :=
  match s.needPayload len with
  | some c => .next (s.discardFrame.faultEntry c 0x02 0x02)
  | none =>
    .next ((s.discardFrame.setFrame
      (.derive len.toNat s.ofdm.nDbps.toNat s.ofdm.nCbps.toNat)).succeed 0x02)

end Sys2Proof.Machine
end

