-- ==== Sys2Proof/Machine/Dispatch.lean ====
section
/-! DEFINITION. The meaning of each command, one arm per constructor of `Instr`. -/

namespace Sys2Proof.Machine

def exec (i : Instr) (s : State) : Host.Outcome State Fault Refusal :=
  match i with
  | .ofdmParam rb0 rb1 rb2 rb3 => Sys2Proof.Machine.execOfdmParam rb0 rb1 rb2 rb3 s
  | .frameParam len => Sys2Proof.Machine.execFrameParam len s
  | .assemble => Sys2Proof.Machine.execAssemble s
  | .scramble seed => Sys2Proof.Machine.execScramble seed s
  | .tailReset => Sys2Proof.Machine.execTailReset s
  | .convEncode => Sys2Proof.Machine.execConvEncode s
  | .puncture => Sys2Proof.Machine.execPuncture s
  | .interleave => Sys2Proof.Machine.execInterleave s
  | .deinterleave => Sys2Proof.Machine.execDeinterleave s
  | .split => Sys2Proof.Machine.execSplit s
  | .encodeFrame seed => Sys2Proof.Machine.execEncodeFrame seed s

end Sys2Proof.Machine
end

