-- ==== Sys2Proof/Machine/HostPort.lean ====
section
/-! DEFINITION. What one action from outside does: the host's five primitives (spec/20_memory.md R50, R55) and the
reset input (spec/70_reset_and_hazards.md R190). -/

namespace Sys2Proof.Machine

/-- The fault cause of an illegal command word (30_encoding.md R76, 60_exceptions.md R164). -/
def commandFault : DecodeError → FaultCause
  | .unknownOpcode => .unknownOpcode
  | .reservedArg => .reservedArg

/-- Execute one command word: a legal one runs, an illegal one only reports a COMMAND fault with STAGE 0 (R76). -/
def issue (run : Instr → State → Host.Outcome State Fault Refusal) (cw : CommandWord) (s : State) :
    Host.Outcome State Fault Refusal :=
  match decode cw with
  | .ok i => run i s
  | .error e => .next (s.faultEntry (commandFault e) (opField cw) 0)

/-- The buffer whose LEN is register `n` (10_state.md R22). -/
def lenRegister (n : Nat) : Option BufId := if n < 16 then none else BufId.ofId (n - 16)

/-- The reset input (R190, R191, 10_state.md R43): every register as at reset, every cell a new unspecified value. The
instance keeps its PSDU_MAX, the outside goes on with what it does next (log 8). -/
def State.externalReset (s : State) : State :=
  { State.resetOf s.psduMax with
    bufs := .lost s.freeCount, freeCount := s.freeCount + 1, pending := s.pending }

/-- One action from outside (R50); an argument outside its domain is refused by name (R55; log 10). `run` is the
execution of a decoded command. -/
def perform (run : Instr → State → Host.Outcome State Fault Refusal) (a : HostAct) (s : State) :
    Host.Outcome State Fault Refusal :=
  match a with
  | .cmd cw =>
    if cw < 2 ^ 40 then issue run (BitVec.ofNat 40 cw) (s.setReply none)
    else .refused (.commandWordTooLarge cw)
  | .regRead n =>
    match s.regRead n with
    | some v => .next (s.setReply (some (.regValue v)))
    | none => .refused (.noSuchRegister n)
  | .regWrite n v =>
    if 22 < n then .refused (.noSuchRegister n)
    else
      match lenRegister n with
      | none => .refused (.readOnlyRegister n)
      | some b =>
        if v ≤ s.cap b then .next ((s.setLen b v).setReply none)
        else .refused (.lenAboveCapacity b v)
  | .bufRead b i =>
    match BufId.ofId b with
    | none => .refused (.noSuchBuffer b)
    | some id =>
      if i < s.cap id then .next (s.setReply (some (.cellValue (s.cell id i))))
      else .refused (.noSuchCell id i)
  | .bufWrite b i v =>
    match BufId.ofId b with
    | none => .refused (.noSuchBuffer b)
    | some id =>
      if s.cap id ≤ i then .refused (.noSuchCell id i)
      else if 256 ≤ v then .refused (.cellValueTooLarge v)
      else .next ((s.writeCells id [(i, BitVec.ofNat 8 v)]).setReply none)
  | .reset => .next s.externalReset

end Sys2Proof.Machine
end

