-- ==== Sys2Proof/Machine/Step.lean ====
section
/-! DEFINITION. One step: the next action from outside, taken off `pending` and performed as one indivisible step
(spec/00_scope.md R10, spec/20_memory.md R59). -/

namespace Sys2Proof.Machine

/-- One step. With nothing pending no agent acts and the instance keeps its state (R9, R41; log 3). -/
def step (s : State) : Host.Outcome State Fault Refusal :=
  match s.pending with
  | [] => .next s
  | a :: rest => perform exec a (s.setPending rest)

/-- The state in which the host issues, as its very next primitive, the command word whose `nbits` bits are `w`,
numbered as spec/opcode_table.json numbers them; higher bits are 0 (log 2). -/
def State.withFetchWord (s : State) (nbits w : Nat) : State :=
  s.setPending (.cmd (w % 2 ^ nbits) :: s.pending)

end Sys2Proof.Machine
end

