-- ==== Sys2Proof/Safety.lean ====
section
/-! DEFINITION. What claims about the machine are said in: the reports of a command, what a command leaves unchanged,
the invariants of spec/10_state.md R44, and the spec's closed forms of the stage results. -/

namespace Sys2Proof.Machine

/-! ### Reports -/

/-- STATUS (0, 0, OP, 0) and FAULT_INFO 0 (10_state.md R23, R24). -/
def Succeeded (t : State) (op : Byte) : Prop := t.status = ⟨0, 0, op, 0⟩ ∧ t.faultInfo = 0

/-- STATUS (CODE, SUB, OP, STAGE) of a fault and its FAULT_INFO (60_exceptions.md R170). -/
def Faulted (t : State) (code sub : BitVec 4) (op stage : Byte) (info : Nat) : Prop :=
  t.status = ⟨code, sub, op, stage⟩ ∧ t.faultInfo = BitVec.ofNat 32 info

/-! ### Frames -/

/-- Every register but those numbered in `ns` reads as before (10_state.md R22). -/
def SameRegsBut (ns : List Nat) (s t : State) : Prop := ∀ n, n ∉ ns → t.regRead n = s.regRead n

/-- Every cell of every buffer but those of `bs` reads as before (10_state.md R40). -/
def SameCellsBut (bs : List BufId) (s t : State) : Prop := ∀ b, b ∉ bs → ∀ i, t.cell b i = s.cell b i

/-- The instance's parameter and what stands outside it are as before (log 1, 2, 4). -/
def SameOutside (s t : State) : Prop := t.psduMax = s.psduMax ∧ t.pending = s.pending ∧ t.reply = s.reply

/-- The first `n` cells of a buffer hold bits (30_encoding.md R80). -/
def IsBits (s : State) (b : BufId) (n : Nat) : Prop := ∀ i < n, (s.cell b i).toNat ≤ 1

/-- The LEN registers of buffers 1 to 6 are 0. -/
def StageLensZero (t : State) : Prop := ∀ b, b ≠ BufId.psdu → t.len b = 0

/-- Of the stage commands only SCRAMBLE writes SCR_STATE and only CONV_ENCODE writes ENC_STATE, on success and on a
fault (10_state.md R36, R37). -/
def ShiftRegsKept (i : Instr) (s t : State) : Prop :=
  (t.scrState = s.scrState ∨ ∃ seed, i = .scramble seed) ∧ (t.encState = s.encState ∨ i = .convEncode)

/-- What FRAME_PARAM leaves after any of its faults: FRAME_VALID 0, registers 8 to 12 and LEN[1..6] 0, and everything
else but the report as before (40_parameters.md R94). -/
def FrameDiscarded (s t : State) : Prop :=
  t.frame.valid = false ∧ (∀ n, 8 ≤ n → n ≤ 12 → t.regRead n = some 0) ∧ t.ofdm = s.ofdm ∧ StageLensZero t ∧
    SameRegsBut [0, 1, 2, 8, 9, 10, 11, 12, 17, 18, 19, 20, 21, 22] s t ∧ SameCellsBut [] s t ∧ SameOutside s t

/-! ### Invariants (10_state.md R44) -/

/-- The cost of an encoding code (40_parameters.md R90). -/
def costOfCode (c : Nat) : Nat := [1, 2, 4, 6].getD c 0

/-- BPSC0 + BPSC1 + BPSC2 + BPSC3 (10_state.md R27). -/
def bpscSum (w : Word) : Nat := byteField w 0 + byteField w 1 + byteField w 2 + byteField w 3

/-- The parameter registers hold records or nothing, and no LEN is above its capacity (10_state.md R44 (a) to (e)). -/
structure RegInv (s : State) : Prop where
  /-- (a) -/
  noOfdm : s.ofdm.valid = false → s.ofdm = OfdmRegs.none ∧ s.frame.valid = false
  /-- (b), the fields of O_RB and BPSC. -/
  codes : s.ofdm.valid = true →
    ∀ k < 4, byteField s.ofdm.oRb k ≤ 3 ∧ byteField s.ofdm.bpsc k = costOfCode (byteField s.ofdm.oRb k)
  /-- (b), the derived registers. -/
  ofdm : s.ofdm.valid = true →
    s.ofdm.nCbps.toNat = 12 * bpscSum s.ofdm.bpsc ∧ s.ofdm.avgBpsc.toNat = bpscSum s.ofdm.bpsc / 4 ∧
      s.ofdm.nDbps.toNat = s.ofdm.nCbps.toNat / 2 ∧ s.ofdm.nCbps.toNat = 2 * s.ofdm.nDbps.toNat
  /-- (c) -/
  noFrame : s.frame.valid = false → s.frame = FrameRegs.none
  /-- (d) -/
  frame : s.frame.valid = true →
    s.frame.psduSize.toNat ≤ s.psduMax.val ∧
    s.frame.nSym.toNat = ceilDiv (16 + 8 * s.frame.psduSize.toNat + 6) s.ofdm.nDbps.toNat ∧
    1 ≤ s.frame.nSym.toNat ∧
    s.frame.nDataBits.toNat = s.frame.nSym.toNat * s.ofdm.nDbps.toNat ∧
    s.frame.nDataBits.toNat = (16 + 8 * s.frame.psduSize.toNat + 6) + s.frame.nPad.toNat ∧
    s.frame.nPad.toNat < s.ofdm.nDbps.toNat ∧
    s.frame.nEncodedBits.toNat = s.frame.nSym.toNat * s.ofdm.nCbps.toNat ∧
    s.frame.nEncodedBits.toNat = 2 * s.frame.nDataBits.toNat
  /-- (e) -/
  lens : ∀ b, s.len b ≤ s.cap b

/-- The storage is in canonical form: each buffer's stored cells have strictly rising indices below its capacity, and
each buffer's last losing event lies before the next one (the model's own invariant; log 5, log 12). -/
structure StorageInv (s : State) : Prop where
  rising : ∀ b, (s.buf b).cells.wf
  below : ∀ b, ∀ c ∈ (s.buf b).cells, c.1 < s.cap b
  past : ∀ b, (s.buf b).era < s.freeCount

/-! ### Which host accesses have a meaning (20_memory.md R50, R55) -/

/-- The arguments for which 20_memory.md R50 defines a primitive, for capacities `cap`; the reset input has none. -/
def HostAct.Defined (cap : BufId → Nat) : HostAct → Prop
  | .cmd cw => cw < 2 ^ 40
  | .regRead n => n ≤ 22
  | .regWrite n v => ∃ b : BufId, n = 16 + b.id ∧ v ≤ cap b
  | .bufRead n i => ∃ b : BufId, n = b.id ∧ i < cap b
  | .bufWrite n i v => ∃ b : BufId, n = b.id ∧ i < cap b ∧ v < 256
  | .reset => True

/-! ### Closed forms of the stage results -/

/-- `κ` holds the bits of the seed, bit 6 first, in κ 0 to κ 6 and the keystream from κ 7 on:
ks[n] = ks[n-7] xor ks[n-4] (41_assemble_scramble_tail.md R103, R105). -/
def IsKeystream (seed : Nat) (κ : Nat → Bool) : Prop :=
  (∀ k < 7, κ k = seed.testBit (6 - k)) ∧ ∀ n, κ (n + 7) = (κ n ^^ κ (n + 3))

/-- The input bit `d` steps before step `n`; 0 before the start (42_convolutional_puncture.md R115). -/
def pastBit (x : Nat → Bool) (n d : Nat) : Bool := if d ≤ n then x (n - d) else false

/-- a[n] = x[n] xor x[n-2] xor x[n-3] xor x[n-5] xor x[n-6] (R115). -/
def parityA (x : Nat → Bool) (n : Nat) : Bool :=
  pastBit x n 0 ^^ pastBit x n 2 ^^ pastBit x n 3 ^^ pastBit x n 5 ^^ pastBit x n 6

/-- b[n] = x[n] xor x[n-1] xor x[n-2] xor x[n-3] xor x[n-6] (R115). -/
def parityB (x : Nat → Bool) (n : Nat) : Bool :=
  pastBit x n 0 ^^ pastBit x n 1 ^^ pastBit x n 2 ^^ pastBit x n 3 ^^ pastBit x n 6

/-- The cell `i` of a bit buffer as a bit. -/
def bitAt (s : State) (b : BufId) (i : Nat) : Bool := decide (s.cell b i = 1)

/-- off(p) = 12 * (sum of BPSC[q] for q < p div 12) + (p mod 12) * BPSC[p div 12] (44_symbol_splitter.md R140). -/
def symbolOffset (bpsc : Word) (p : Nat) : Nat :=
  12 * ((List.range (p / 12)).map (byteField bpsc)).sum + p % 12 * byteField bpsc (p / 12)

/-- The five valid block sizes (43_interleaver.md R129, 70_reset_and_hazards.md R196). -/
def validBlockSizes : List Nat := [48, 96, 144, 192, 288]

/-! ### The stage commands -/

/-- For each of the eight stage commands: its input buffer, the LEN it demands of it, and its destination
(20_memory.md R64). -/
def stageTable (s : State) : Instr → Option (BufId × Nat × BufId)
  | .ofdmParam _ _ _ _ => none
  | .frameParam _ => none
  | .assemble => some (.psdu, s.frame.psduSize.toNat, .data)
  | .scramble _ => some (.data, s.frame.nDataBits.toNat, .scr)
  | .tailReset => some (.scr, s.frame.nDataBits.toNat, .scr)
  | .convEncode => some (.scr, s.frame.nDataBits.toNat, .enc)
  | .puncture => some (.enc, 2 * s.frame.nDataBits.toNat, .pun)
  | .interleave => some (.pun, s.frame.nEncodedBits.toNat, .int)
  | .deinterleave => some (.pun, s.frame.nEncodedBits.toNat, .int)
  | .split => some (.int, s.frame.nEncodedBits.toNat, .sym)
  | .encodeFrame _ => none

/-- Commands executed one after the other, as long as each gives a next state. -/
def runCommands : List Instr → State → Host.Outcome State Fault Refusal
  | [], s => .next s
  | i :: is, s =>
    match exec i s with
    | .next t => runCommands is t
    | .fault f => .fault f
    | .refused r => .refused r

/-- The seven commands that ENCODE_FRAME chains (45_encode_frame.md R147). -/
def sevenCommands (seed : Nat) : List Instr :=
  [.assemble, .scramble seed, .tailReset, .convEncode, .puncture, .interleave, .split]

end Sys2Proof.Machine
end

