-- ==== Sys2Proof/Certificates/Slice0/Obligations.lean ====
section
/-! DEFINITION. The statements about the model, from the numbered rules of spec/. Each docstring names the rule. -/

open Sys2Proof Sys2Proof.Machine

/-! ### Encodings -/

/-- R70 to R72, R78: decoding the word of a well-formed command gives the command back. -/
def Obligations.DecodeOfEncode : Prop := ∀ i : Instr, i.wf = true → decode (encode i) = .ok i

/-- R70 to R72, R77: a word that decodes is the word of the command it decodes to, and that command is well formed; so
each legal command has exactly one word. -/
def Obligations.EncodeOfDecode : Prop :=
  ∀ (cw : CommandWord) (i : Instr), decode cw = .ok i → i.wf = true ∧ encode i = cw

/-- R71, R73, R78: words of 95_test_vectors.md, one per family, decode to the commands printed beside them. -/
def Obligations.PrintedWordsDecode : Prop :=
  decode 0x0103020100#40 = .ok (.ofdmParam 0 1 2 3) ∧ decode 0x02FFFFFFFF#40 = .ok (.frameParam (-1)) ∧
  decode 0x0300000000#40 = .ok .assemble ∧ decode 0x040000002A#40 = .ok (.scramble 0x2A) ∧
  decode 0x0600000000#40 = .ok .convEncode ∧ decode 0x0900000000#40 = .ok .deinterleave ∧
  decode 0x0A00000000#40 = .ok .split ∧ decode 0x0B0000005D#40 = .ok (.encodeFrame 0x5D)

/-- R10, R50: when the host's next primitive is `HostCmd(cw)` and cw decodes, the step is the execution of the decoded
command on the state without that primitive; the command returns no value. -/
def Obligations.StepRunsDecodedCommand : Prop :=
  ∀ (s : State) (cw : CommandWord) (rest : List HostAct) (i : Instr),
    s.pending = .cmd cw.toNat :: rest → decode cw = .ok i →
      step s = exec i ((s.setPending rest).setReply none)

/-- R76: an illegal command word, (a) an unknown opcode or (b) a non-zero reserved ARG, reports COMMAND sub 1 or sub 2
with OP = cw[39:32] and STAGE 0, FAULT_INFO 0, and changes nothing else: no register but STATUS and FAULT_INFO, no
cell, nothing of the model's own but the primitive taken and its (empty) reply. -/
def Obligations.IllegalCommandOnlyReports : Prop :=
  ∀ (s : State) (cw : CommandWord) (rest : List HostAct), s.pending = .cmd cw.toNat :: rest →
    (((cw >>> 32).toNat = 0 ∨ 0x0C ≤ (cw >>> 32).toNat) →
      ∃ t, step s = .next t ∧ Faulted t 3 1 (BitVec.ofNat 8 (cw >>> 32).toNat) 0 0 ∧ SameRegsBut [0, 1] s t ∧
        SameCellsBut [] s t ∧ t.psduMax = s.psduMax ∧ t.pending = rest) ∧
    ((cw >>> 32).toNat ∈ [0x03, 0x05, 0x06, 0x07, 0x08, 0x09, 0x0A] → cw.toNat % 2 ^ 32 ≠ 0 →
      ∃ t, step s = .next t ∧ Faulted t 3 2 (BitVec.ofNat 8 (cw >>> 32).toNat) 0 0 ∧ SameRegsBut [0, 1] s t ∧
        SameCellsBut [] s t ∧ t.psduMax = s.psduMax ∧ t.pending = rest)

/-! ### Reset -/

/-- R191: after reset every register reads 0, and every command but OFDM_PARAM reports SEQUENCE sub 1. -/
def Obligations.AfterResetOnlyOfdmParamSucceeds : Prop :=
  ∀ m : Config.PsduMax,
    (∀ n ≤ 22, (State.resetOf m).regRead n = some 0) ∧
    (∀ i : Instr, (∀ a b c d, i ≠ .ofdmParam a b c d) →
      ∃ t, exec i (State.resetOf m) = .next t ∧ Faulted t 4 1 i.opcode i.opcode 0) ∧
    (∀ a b c d, a ≤ 3 → b ≤ 3 → c ≤ 3 → d ≤ 3 →
      ∃ t, exec (.ofdmParam a b c d) (State.resetOf m) = .next t ∧ Succeeded t 0x01)

/-- R190, R43: the reset input brings every register to 0 from any state. That the instance keeps its PSDU_MAX and that
the host's later primitives stay is the model's choice (log 8). -/
def Obligations.ResetInputClearsRegisters : Prop :=
  ∀ (s : State) (rest : List HostAct), s.pending = .reset :: rest →
    ∃ t, step s = .next t ∧ (∀ n ≤ 22, t.regRead n = some 0) ∧ t.psduMax = s.psduMax ∧ t.pending = rest

/-! ### Parameter commands -/

/-- R91, R90: OFDM_PARAM with four codes up to 3 writes registers 2 to 12 and LEN[1..6] as R91 says and changes no other
register and no cell. -/
def Obligations.OfdmParamDerivesRecord : Prop :=
  ∀ (s : State) (c0 c1 c2 c3 : Nat), c0 ≤ 3 → c1 ≤ 3 → c2 ≤ 3 → c3 ≤ 3 →
    ∃ t, exec (.ofdmParam c0 c1 c2 c3) s = .next t ∧ Succeeded t 0x01 ∧
      t.regRead 2 = some 1 ∧
      t.regRead 3 = some (BitVec.ofNat 32 (c0 + 256 * c1 + 65536 * c2 + 16777216 * c3)) ∧
      (∀ k < 4, byteField t.ofdm.bpsc k = costOfCode ([c0, c1, c2, c3].getD k 0)) ∧
      t.ofdm.avgBpsc.toNat = (costOfCode c0 + costOfCode c1 + costOfCode c2 + costOfCode c3) / 4 ∧
      t.ofdm.nCbps.toNat = 12 * costOfCode c0 + 12 * costOfCode c1 + 12 * costOfCode c2 + 12 * costOfCode c3 ∧
      2 * t.ofdm.nDbps.toNat = t.ofdm.nCbps.toNat ∧
      (∀ n, 8 ≤ n → n ≤ 12 → t.regRead n = some 0) ∧ StageLensZero t ∧
      SameRegsBut [0, 1, 2, 3, 4, 5, 6, 7, 8, 9, 10, 11, 12, 17, 18, 19, 20, 21, 22] s t ∧
      SameCellsBut [] s t ∧ SameOutside s t

/-- R91, R161 row 1: OFDM_PARAM with a code above 3 reports CONFIG sub 1 with the lowest such block, leaves no OfdmParam
and no FrameParam, and changes no other register and no cell. -/
def Obligations.OfdmParamRejectsBadCode : Prop :=
  ∀ (s : State) (c0 c1 c2 c3 b : Nat), b < 4 → 3 < [c0, c1, c2, c3].getD b 0 →
    (∀ k < b, [c0, c1, c2, c3].getD k 0 ≤ 3) →
    ∃ t, exec (.ofdmParam c0 c1 c2 c3) s = .next t ∧ Faulted t 1 1 0x01 0x01 b ∧
      (∀ n, 2 ≤ n → n ≤ 12 → t.regRead n = some 0) ∧ StageLensZero t ∧
      SameRegsBut [0, 1, 2, 3, 4, 5, 6, 7, 8, 9, 10, 11, 12, 17, 18, 19, 20, 21, 22] s t ∧
      SameCellsBut [] s t ∧ SameOutside s t

/-- R94: FRAME_PARAM with an OfdmParam and a length of 0 to PSDU_MAX writes registers 8 to 12, FRAME_VALID and LEN[1..6]
as R94 says and changes no other register and no cell. The invariant of R44 rules out an N_DBPS of 0. -/
def Obligations.FrameParamDerivesRecord : Prop :=
  ∀ (s : State) (n : Nat), RegInv s → s.ofdm.valid = true → n ≤ s.psduMax.val →
    ∃ t, exec (.frameParam n) s = .next t ∧ Succeeded t 0x02 ∧ t.regRead 2 = some 3 ∧
      t.frame.psduSize.toNat = n ∧
      t.frame.nSym.toNat = (16 + 8 * n + 6 + s.ofdm.nDbps.toNat - 1) / s.ofdm.nDbps.toNat ∧
      t.frame.nDataBits.toNat = t.frame.nSym.toNat * s.ofdm.nDbps.toNat ∧
      16 + 8 * n + 6 + t.frame.nPad.toNat = t.frame.nDataBits.toNat ∧
      t.frame.nEncodedBits.toNat = t.frame.nSym.toNat * s.ofdm.nCbps.toNat ∧
      StageLensZero t ∧ SameRegsBut [0, 1, 2, 8, 9, 10, 11, 12, 17, 18, 19, 20, 21, 22] s t ∧
      SameCellsBut [] s t ∧ SameOutside s t

/-- R93: with an OfdmParam, the length is tested in this order: negative is CONFIG sub 2, above PSDU_MAX is CONFIG sub 3,
otherwise psdu_size is the length. After either fault no FrameParam is left and the rest is as R94 says. -/
def Obligations.PayloadLengthIsTested : Prop :=
  ∀ (s : State) (len : Int), s.ofdm.valid = true →
    (len < 0 → ∃ t, exec (.frameParam len) s = .next t ∧ Faulted t 1 2 0x02 0x02 0 ∧
      FrameDiscarded s t) ∧
    ((s.psduMax.val : Int) < len → ∃ t, exec (.frameParam len) s = .next t ∧ Faulted t 1 3 0x02 0x02 0 ∧
      FrameDiscarded s t) ∧
    (0 ≤ len → len ≤ s.psduMax.val → ∃ t, exec (.frameParam len) s = .next t ∧ Succeeded t 0x02 ∧
      (t.frame.psduSize.toNat : Int) = len)

/-- R200: OFDM_PARAM clears the FrameParam and the LEN of buffers 1 to 6 and FRAME_PARAM clears the LEN of buffers 1 to
6, on success and on a fault, whatever the operand and whatever was there before. -/
def Obligations.ParameterChangesDiscardFrame : Prop :=
  ∀ (s t : State),
    (∀ c0 c1 c2 c3, exec (.ofdmParam c0 c1 c2 c3) s = .next t →
      t.frame = FrameRegs.none ∧ StageLensZero t ∧ t.len .psdu = s.len .psdu) ∧
    (∀ len, exec (.frameParam len) s = .next t → StageLensZero t ∧ t.len .psdu = s.len .psdu)

/-- R95: registers 2 to 12 after OFDM_PARAM are a function of its ARG, and registers 8 to 12 after FRAME_PARAM are a
function of its ARG, of registers 6 and 7, of OFDM_VALID and of the instance's PSDU_MAX; neither reads a buffer or
anything else. -/
def Obligations.ParametersDependOnOperandsOnly : Prop :=
  (∀ (s u s' u' : State) (c0 c1 c2 c3 : Nat),
    exec (.ofdmParam c0 c1 c2 c3) s = .next s' → exec (.ofdmParam c0 c1 c2 c3) u = .next u' →
      s'.ofdm = u'.ofdm ∧ s'.frame = u'.frame) ∧
  (∀ (s u s' u' : State) (len : Int), s.psduMax = u.psduMax → s.ofdm.valid = u.ofdm.valid →
    s.ofdm.nCbps = u.ofdm.nCbps → s.ofdm.nDbps = u.ofdm.nDbps →
    exec (.frameParam len) s = .next s' → exec (.frameParam len) u = .next u' →
      s'.frame = u'.frame ∧ s'.status = u'.status ∧ s'.faultInfo = u'.faultInfo)

/-! ### ASSEMBLE, SCRAMBLE, TAIL_RESET -/

/-- R101, R100, R102: ASSEMBLE with a FrameParam and LEN_PSDU = PSDU_SIZE lays out DATA: 16 zeros, the payload bits least
significant bit first, zeros up to N_DATA_BITS. It changes no other register than STATUS, FAULT_INFO and LEN_DATA and
no other cell. -/
def Obligations.AssembleLaysOutFrame : Prop :=
  ∀ s : State, RegInv s → s.frame.valid = true → s.len .psdu = s.frame.psduSize.toNat →
    ∃ t, exec .assemble s = .next t ∧ Succeeded t 0x03 ∧ t.len .data = s.frame.nDataBits.toNat ∧
      (∀ i < 16, t.cell .data i = 0) ∧
      (∀ i < s.frame.psduSize.toNat, ∀ b < 8,
        (t.cell .data (16 + 8 * i + b)).toNat = (s.cell .psdu i).toNat / 2 ^ b % 2) ∧
      (∀ i, 16 + 8 * s.frame.psduSize.toNat ≤ i → i < s.frame.nDataBits.toNat → t.cell .data i = 0) ∧
      (∀ i, s.frame.nDataBits.toNat ≤ i → t.cell .data i = s.cell .data i) ∧
      SameRegsBut [0, 1, 17] s t ∧ SameCellsBut [.data] s t ∧ SameOutside s t

/-- R104, R103, R105: SCRAMBLE with a FrameParam, LEN_DATA = N_DATA_BITS, a seed up to 127 and bits in DATA writes DATA
xor the keystream of the seed to SCR and leaves the newest seven keystream bits in SCR_STATE. It changes no other
register than STATUS, FAULT_INFO, SCR_STATE and LEN_SCR and no other cell. -/
def Obligations.ScrambleAddsKeystream : Prop :=
  ∀ (s : State) (seed : Nat), s.frame.valid = true → s.len .data = s.frame.nDataBits.toNat → seed ≤ 127 →
    IsBits s .data s.frame.nDataBits.toNat →
    ∃ κ, IsKeystream seed κ ∧
      ∃ t, exec (.scramble seed) s = .next t ∧ Succeeded t 0x04 ∧ t.len .scr = s.frame.nDataBits.toNat ∧
        (∀ i < s.frame.nDataBits.toNat, (t.cell .scr i).toNat = (κ (i + 7) ^^ bitAt s .data i).toNat) ∧
        (∀ k < 7, t.scrState.getLsbD k = κ (s.frame.nDataBits.toNat + (6 - k))) ∧
        (∀ i, s.frame.nDataBits.toNat ≤ i → t.cell .scr i = s.cell .scr i) ∧
        SameRegsBut [0, 1, 13, 18] s t ∧ SameCellsBut [.scr] s t ∧ SameOutside s t

/-- R107: SCRAMBLE with seed 0 succeeds, copies DATA to SCR and leaves SCR_STATE 0. -/
def Obligations.ScrambleSeedZeroCopies : Prop :=
  ∀ s : State, s.frame.valid = true → s.len .data = s.frame.nDataBits.toNat →
    IsBits s .data s.frame.nDataBits.toNat →
    ∃ t, exec (.scramble 0) s = .next t ∧ Succeeded t 0x04 ∧ t.scrState = 0 ∧ t.len .scr = s.len .data ∧
      ∀ i < s.frame.nDataBits.toNat, t.cell .scr i = s.cell .data i

/-- R106: scrambling twice with one seed, the first output copied back into DATA, returns the original bits. -/
def Obligations.ScrambleIsSelfInverse : Prop :=
  ∀ (s t u : State) (seed : Nat), s.frame.valid = true → s.len .data = s.frame.nDataBits.toNat → seed ≤ 127 →
    IsBits s .data s.frame.nDataBits.toNat → exec (.scramble seed) s = .next t →
    u.frame = s.frame → u.len .data = t.len .scr → (∀ i < t.len .scr, u.cell .data i = t.cell .scr i) →
    ∃ v, exec (.scramble seed) u = .next v ∧ Succeeded v 0x04 ∧ v.len .scr = s.len .data ∧
      v.scrState = t.scrState ∧ ∀ i < s.len .data, v.cell .scr i = s.cell .data i

/-- R105 (b), (c): every seed from 1 to 127 returns to itself after exactly 127 steps of R103, with 64 ones in the
period; the keystream of seed 0x7F begins as printed; seed 0 stays 0 (a). -/
def Obligations.KeystreamPeriod : Prop :=
  let next := fun st : ShiftReg => shiftIn st (scrFeedback st)
  next 0 = 0 ∧
  (∀ st : ShiftReg, st ≠ 0 → next^[127] st = st ∧
    ((scrambleOut st (List.replicate 127 false)).filter id).length = 64) ∧
  (∀ k < 126, next^[k + 1] 0x7F ≠ 0x7F) ∧
  scrambleOut 0x7F (List.replicate 16 false) =
    [false, false, false, false, true, true, true, false, true, true, true, true, false, false, true, false]

/-- R109: TAIL_RESET with a FrameParam and LEN_SCR = N_DATA_BITS writes 0 to the six cells of SCR from
N_DATA_BITS - N_PAD - 6 on and changes no other cell and no register but STATUS and FAULT_INFO; it reads no cell, so
it completes whatever SCR holds. -/
def Obligations.TailResetZeroesSixCells : Prop :=
  ∀ s : State, s.frame.valid = true → s.len .scr = s.frame.nDataBits.toNat →
    ∃ t, exec .tailReset s = .next t ∧ Succeeded t 0x05 ∧
      (∀ i, t.cell .scr i =
        if s.frame.nDataBits.toNat - s.frame.nPad.toNat - 6 ≤ i ∧
            i < s.frame.nDataBits.toNat - s.frame.nPad.toNat - 6 + 6 then 0
        else s.cell .scr i) ∧
      SameRegsBut [0, 1] s t ∧ SameCellsBut [.scr] s t ∧ SameOutside s t

/-- R110 (property P6): after SCRAMBLE with any legal seed and then TAIL_RESET, the six cells from
N_DATA_BITS - N_PAD - 6 on, which are the cells from 16 + 8 PSDU_SIZE on (R100), are 0. -/
def Obligations.TailIsZeroWhateverTheSeed : Prop :=
  ∀ (s : State) (seed : Nat), RegInv s → s.frame.valid = true → s.len .data = s.frame.nDataBits.toNat →
    seed ≤ 127 → IsBits s .data s.frame.nDataBits.toNat →
    ∃ t, runCommands [.scramble seed, .tailReset] s = .next t ∧ Succeeded t 0x05 ∧
      s.frame.nDataBits.toNat - s.frame.nPad.toNat - 6 = 16 + 8 * s.frame.psduSize.toNat ∧
      s.frame.nDataBits.toNat - s.frame.nPad.toNat ≤ t.len .scr ∧
      ∀ i, s.frame.nDataBits.toNat - s.frame.nPad.toNat - 6 ≤ i →
        i < s.frame.nDataBits.toNat - s.frame.nPad.toNat → t.cell .scr i = 0

/-! ### CONV_ENCODE, PUNCTURE -/

/-- R116, R115: CONV_ENCODE with a FrameParam, LEN_SCR = N_DATA_BITS and bits in SCR writes, for each input bit n, the two
parities a[n] and b[n] of R115 to cells 2n and 2n + 1 of ENC, and leaves the last seven input bits in ENC_STATE. It
changes no other register than STATUS, FAULT_INFO, ENC_STATE and LEN_ENC and no other cell. -/
def Obligations.ConvEncodeEmitsParities : Prop :=
  ∀ s : State, RegInv s → s.frame.valid = true → s.len .scr = s.frame.nDataBits.toNat →
    IsBits s .scr s.frame.nDataBits.toNat →
    ∃ t, exec .convEncode s = .next t ∧ Succeeded t 0x06 ∧ t.len .enc = 2 * s.frame.nDataBits.toNat ∧
      (∀ n < s.frame.nDataBits.toNat,
        (t.cell .enc (2 * n)).toNat = (parityA (bitAt s .scr) n).toNat ∧
        (t.cell .enc (2 * n + 1)).toNat = (parityB (bitAt s .scr) n).toNat) ∧
      (∀ k < 7, t.encState.getLsbD k = bitAt s .scr (s.frame.nDataBits.toNat - 1 - k)) ∧
      (∀ i, 2 * s.frame.nDataBits.toNat ≤ i → t.cell .enc i = s.cell .enc i) ∧
      SameRegsBut [0, 1, 14, 19] s t ∧ SameCellsBut [.enc] s t ∧ SameOutside s t

/-- R117 (b): the encoder is linear over xor. -/
def Obligations.ConvEncoderIsLinear : Prop :=
  (∀ xs ys : List Bool, xs.length = ys.length →
    convOut 0 (List.zipWith xor xs ys) = List.zipWith xor (convOut 0 xs) (convOut 0 ys)) ∧
  ∀ n, convOut 0 (List.replicate n false) = List.replicate (2 * n) false

/-- R117 (a): six zero bits leave the register at 0x00 or 0x40 from any state, and every output pair after them is that
of an encoder started at 0. -/
def Obligations.SixZerosFlushEncoder : Prop :=
  ∀ (st : ShiftReg) (ys : List Bool),
    (convEnd st (List.replicate 6 false) = 0x00 ∨ convEnd st (List.replicate 6 false) = 0x40) ∧
    (convOut st (List.replicate 6 false ++ ys)).drop 12 = convOut 0 ys

/-- R118: PUNCTURE with a FrameParam, LEN_ENC = 2 N_DATA_BITS and bits in ENC copies them all to PUN and sets LEN_PUN to
N_ENCODED_BITS. It changes no other register than STATUS, FAULT_INFO and LEN_PUN and no other cell. -/
def Obligations.PunctureKeepsEveryBit : Prop :=
  ∀ s : State, s.frame.valid = true → s.len .enc = 2 * s.frame.nDataBits.toNat →
    IsBits s .enc (2 * s.frame.nDataBits.toNat) →
    ∃ t, exec .puncture s = .next t ∧ Succeeded t 0x07 ∧ t.len .pun = s.frame.nEncodedBits.toNat ∧
      (∀ i < 2 * s.frame.nDataBits.toNat, t.cell .pun i = s.cell .enc i) ∧
      (∀ i, 2 * s.frame.nDataBits.toNat ≤ i → t.cell .pun i = s.cell .pun i) ∧
      SameRegsBut [0, 1, 20] s t ∧ SameCellsBut [.pun] s t ∧ SameOutside s t

/-! ### INTERLEAVE, DEINTERLEAVE -/

/-- R128: dest composes the two permutations; where 16 divides n and s = 1, it is the transpose of a matrix with 16
columns; the tables for n = 48, 192 and 288. -/
def Obligations.DestIsColumnTranspose : Prop :=
  (∀ n s k : Nat, dest n s k = perm2 n (perm1 n s k)) ∧
  (∀ c k : Nat, 0 < c → k < 16 * c → dest (16 * c) 1 k = 16 * (k % c) + k / c) ∧
  (List.range 48).map (dest 48 1) =
    [0, 16, 32, 1, 17, 33, 2, 18, 34, 3, 19, 35, 4, 20, 36, 5, 21, 37, 6, 22, 38, 7, 23, 39, 8, 24, 40, 9, 25, 41, 10,
     26, 42, 11, 27, 43, 12, 28, 44, 13, 29, 45, 14, 30, 46, 15, 31, 47] ∧
  (List.range 24).map (dest 192 2) =
    [0, 16, 32, 48, 64, 80, 96, 112, 128, 144, 160, 176, 17, 1, 49, 33, 81, 65, 113, 97, 145, 129, 177, 161] ∧
  (List.range 24).map (dest 288 3) =
    [0, 16, 32, 48, 64, 80, 96, 112, 128, 144, 160, 176, 192, 208, 224, 240, 256, 272, 17, 33, 1, 65, 81, 49]

/-- R92, R129: over the 256 assignments, the sum of the four costs takes exactly the 19 values of the table of R92, and
`IlvValid` holds exactly for the sums 4, 8, 12, 16 and 24. -/
def Obligations.FiveGeometriesAreValid : Prop :=
  (∀ t ≤ 24, (∃ a b c d : Fin 4, costOfCode a + costOfCode b + costOfCode c + costOfCode d = t) ↔
    (4 ≤ t ∧ t ≤ 20) ∨ t = 22 ∨ t = 24) ∧
  (∀ t, (4 ≤ t ∧ t ≤ 20) ∨ t = 22 ∨ t = 24 →
    (ilvValid (12 * t) (stride (t / 4)) = true ↔ t ∈ [4, 8, 12, 16, 24]))

/-- R130: INTERLEAVE with a FrameParam, LEN_PUN = N_ENCODED_BITS, a valid block size and bits in PUN sets cell m n + k of
INT to cell m n + dest(k) of PUN, for every symbol m and position k. It changes no other register than STATUS,
FAULT_INFO and LEN_INT and no other cell. -/
def Obligations.InterleavePermutesBlocks : Prop :=
  ∀ s : State, RegInv s → s.frame.valid = true → s.len .pun = s.frame.nEncodedBits.toNat →
    s.ofdm.nCbps.toNat ∈ validBlockSizes → IsBits s .pun s.frame.nEncodedBits.toNat →
    ∃ t, exec .interleave s = .next t ∧ Succeeded t 0x08 ∧ t.len .int = s.frame.nEncodedBits.toNat ∧
      (∀ m < s.frame.nSym.toNat, ∀ k < s.ofdm.nCbps.toNat,
        t.cell .int (m * s.ofdm.nCbps.toNat + k) =
          s.cell .pun (m * s.ofdm.nCbps.toNat + dest s.ofdm.nCbps.toNat (stride s.ofdm.avgBpsc.toNat) k)) ∧
      (∀ i, s.frame.nEncodedBits.toNat ≤ i → t.cell .int i = s.cell .int i) ∧
      SameRegsBut [0, 1, 21] s t ∧ SameCellsBut [.int] s t ∧ SameOutside s t

/-- R131: DEINTERLEAVE, under the same conditions, sets cell m n + dest(k) of INT to cell m n + k of PUN. -/
def Obligations.DeinterleaveInvertsAssignment : Prop :=
  ∀ s : State, RegInv s → s.frame.valid = true → s.len .pun = s.frame.nEncodedBits.toNat →
    s.ofdm.nCbps.toNat ∈ validBlockSizes → IsBits s .pun s.frame.nEncodedBits.toNat →
    ∃ t, exec .deinterleave s = .next t ∧ Succeeded t 0x09 ∧ t.len .int = s.frame.nEncodedBits.toNat ∧
      (∀ m < s.frame.nSym.toNat, ∀ k < s.ofdm.nCbps.toNat,
        t.cell .int (m * s.ofdm.nCbps.toNat + dest s.ofdm.nCbps.toNat (stride s.ofdm.avgBpsc.toNat) k) =
          s.cell .pun (m * s.ofdm.nCbps.toNat + k)) ∧
      (∀ i, s.frame.nEncodedBits.toNat ≤ i → t.cell .int i = s.cell .int i) ∧
      SameRegsBut [0, 1, 21] s t ∧ SameCellsBut [.int] s t ∧ SameOutside s t

/-- R132 (property P4): for every valid geometry and every bit pattern, DEINTERLEAVE undoes INTERLEAVE and INTERLEAVE
undoes DEINTERLEAVE, the result being copied from INT back to PUN in between. -/
def Obligations.InterleaverRoundTrip : Prop :=
  ∀ s : State, RegInv s → s.frame.valid = true → s.len .pun = s.frame.nEncodedBits.toNat →
    s.ofdm.nCbps.toNat ∈ validBlockSizes → IsBits s .pun s.frame.nEncodedBits.toNat →
    ∀ first second : Instr,
      (first = .interleave ∧ second = .deinterleave) ∨ (first = .deinterleave ∧ second = .interleave) →
      ∃ t, exec first s = .next t ∧
        ∀ u : State, u.ofdm = s.ofdm → u.frame = s.frame → u.len .pun = t.len .int →
          (∀ i < t.len .int, u.cell .pun i = t.cell .int i) →
          ∃ v, exec second u = .next v ∧ Succeeded v second.opcode ∧ v.len .int = s.len .pun ∧
            ∀ i < s.len .pun, v.cell .int i = s.cell .pun i

/-! ### SPLIT -/

/-- R141, R140: SPLIT with a FrameParam, LEN_INT = N_ENCODED_BITS and bits in INT sets cell 48 m + p of SYM to the sum over
b < depth(p) of INT[m N_CBPS + off(p) + b] 2^b. It changes no other register than STATUS, FAULT_INFO and LEN_SYM and
no other cell. -/
def Obligations.SplitPacksSymbols : Prop :=
  ∀ s : State, RegInv s → s.frame.valid = true → s.len .int = s.frame.nEncodedBits.toNat →
    IsBits s .int s.frame.nEncodedBits.toNat →
    ∃ t, exec .split s = .next t ∧ Succeeded t 0x0A ∧ t.len .sym = 48 * s.frame.nSym.toNat ∧
      (∀ m < s.frame.nSym.toNat, ∀ p < 48,
        (t.cell .sym (48 * m + p)).toNat =
          ((List.range (byteField s.ofdm.bpsc (p / 12))).map fun b =>
            (s.cell .int (m * s.ofdm.nCbps.toNat + symbolOffset s.ofdm.bpsc p + b)).toNat * 2 ^ b).sum) ∧
      (∀ i, 48 * s.frame.nSym.toNat ≤ i → t.cell .sym i = s.cell .sym i) ∧
      SameRegsBut [0, 1, 22] s t ∧ SameCellsBut [.sym] s t ∧ SameOutside s t

/-- R142 (property P5, first half), R140: the depths by which the splitter cuts one OFDM symbol sum to
12 (BPSC0 + BPSC1 + BPSC2 + BPSC3) = N_CBPS, the offsets are their running sums, and over the frame exactly
N_ENCODED_BITS bits are consumed: no further bit changes a symbol. OFDM symbol m of SYM is made from exactly block m of
INT: two successful SPLITs with the same parameters agree in the 48 cells of symbol m if and only if their INT buffers
agree in block m. -/
def Obligations.SplitConsumesWholeBlocks : Prop :=
  ∀ s : State, RegInv s → s.ofdm.valid = true →
    (symbolDepths s.ofdm.bpsc).length = 48 ∧ (symbolDepths s.ofdm.bpsc).sum = s.ofdm.nCbps.toNat ∧
    12 * bpscSum s.ofdm.bpsc = s.ofdm.nCbps.toNat ∧
    (∀ p ≤ 48, ((symbolDepths s.ofdm.bpsc).take p).sum = symbolOffset s.ofdm.bpsc p) ∧
    symbolOffset s.ofdm.bpsc 0 = 0 ∧
    (∀ p < 47, symbolOffset s.ofdm.bpsc (p + 1) = symbolOffset s.ofdm.bpsc p + depth s.ofdm.bpsc p) ∧
    symbolOffset s.ofdm.bpsc 47 + depth s.ofdm.bpsc 47 = s.ofdm.nCbps.toNat ∧
    (s.frame.valid = true →
      s.frame.nSym.toNat * s.ofdm.nCbps.toNat = s.frame.nEncodedBits.toNat ∧
      (frameDepths s.ofdm.bpsc s.frame.nSym.toNat).sum = s.frame.nEncodedBits.toNat ∧
      (∀ xs ys : List Bool, xs.length = s.frame.nEncodedBits.toNat →
        splitSymbols s.ofdm.bpsc s.frame.nSym.toNat (xs ++ ys) = splitSymbols s.ofdm.bpsc s.frame.nSym.toNat xs) ∧
      ∀ u t t' : State, u.ofdm = s.ofdm → u.frame = s.frame → exec .split s = .next t → exec .split u = .next t' →
        t.status.code = 0 → t'.status.code = 0 → ∀ m < s.frame.nSym.toNat,
          ((∀ p < 48, t.cell .sym (48 * m + p) = t'.cell .sym (48 * m + p)) ↔
            ∀ k < s.ofdm.nCbps.toNat,
              s.cell .int (m * s.ofdm.nCbps.toNat + k) = u.cell .int (m * s.ofdm.nCbps.toNat + k)))

/-- R143 (property P5, second half), R80: every symbol SPLIT emits at position p is below 2^depth(p). -/
def Obligations.SymbolsStayInRange : Prop :=
  ∀ s t : State, RegInv s → exec .split s = .next t → t.status.code = 0 →
    ∀ m < s.frame.nSym.toNat, ∀ p < 48,
      (t.cell .sym (48 * m + p)).toNat < 2 ^ byteField s.ofdm.bpsc (p / 12) ∧ (t.cell .sym (48 * m + p)).toNat < 64

/-! ### ENCODE_FRAME -/

/-- R147, R149: ENCODE_FRAME with a FrameParam, LEN_PSDU = PSDU_SIZE, a seed up to 127 and a valid block size completes,
with the LEN registers of R149, and the state is that of the seven stage commands issued one after the other, but for
STATUS.OP; it changes no parameter register and nothing outside the instance. -/
def Obligations.EncodeFrameIsSevenCommands : Prop :=
  ∀ (s : State) (seed : Nat), RegInv s → s.frame.valid = true → s.len .psdu = s.frame.psduSize.toNat → seed ≤ 127 →
    s.ofdm.nCbps.toNat ∈ validBlockSizes →
    ∃ t, exec (.encodeFrame seed) s = .next t ∧ Succeeded t 0x0B ∧
      t.len .data = s.frame.nDataBits.toNat ∧ t.len .scr = s.frame.nDataBits.toNat ∧
      t.len .enc = 2 * s.frame.nDataBits.toNat ∧ t.len .pun = s.frame.nEncodedBits.toNat ∧
      t.len .int = s.frame.nEncodedBits.toNat ∧ t.len .sym = 48 * s.frame.nSym.toNat ∧
      runCommands (sevenCommands seed) s = .next (t.succeed 0x0A) ∧
      SameRegsBut [0, 1, 13, 14, 17, 18, 19, 20, 21, 22] s t ∧
      SameCellsBut [.data, .scr, .enc, .pun, .int, .sym] s t ∧ SameOutside s t

/-- R148: the faults ENCODE_FRAME can end with, each with the state left, and no other. The stages before the failing one
have completed (R147): the buffers and shift registers they wrote are those that their commands leave; the shift
registers of stages that were not reached are as before (R36, R37). -/
def Obligations.EncodeFrameFaults : Prop :=
  ∀ (s : State) (seed : Nat), RegInv s →
    ∃ t, exec (.encodeFrame seed) s = .next t ∧ t.ofdm = s.ofdm ∧ t.frame = s.frame ∧
      SameCellsBut [.data, .scr, .enc, .pun, .int, .sym] s t ∧ t.len .psdu = s.len .psdu ∧
      if s.frame.valid = false then
        Faulted t 4 1 0x0B 0x0B 0 ∧ SameRegsBut [0, 1] s t ∧ SameCellsBut [] s t
      else if s.len .psdu ≠ s.frame.psduSize.toNat then
        Faulted t 4 2 0x0B 0x03 0 ∧ StageLensZero t ∧ t.scrState = s.scrState ∧ t.encState = s.encState ∧
          SameCellsBut [.data] s t
      else if 127 < seed then
        Faulted t 1 4 0x0B 0x04 0 ∧ t.len .data = s.frame.nDataBits.toNat ∧ IsBits t .data (t.len .data) ∧
          (∀ b, b ≠ BufId.psdu → b ≠ .data → t.len b = 0) ∧ t.encState = s.encState ∧
          ∃ u, exec .assemble s = .next u ∧ SameCellsBut [.scr] u t
      else if s.ofdm.nCbps.toNat ∉ validBlockSizes then
        Faulted t 1 5 0x0B 0x08 0 ∧
          t.len .data = s.frame.nDataBits.toNat ∧ t.len .scr = s.frame.nDataBits.toNat ∧
          t.len .enc = s.frame.nEncodedBits.toNat ∧ t.len .pun = s.frame.nEncodedBits.toNat ∧
          IsBits t .data (t.len .data) ∧ IsBits t .scr (t.len .scr) ∧ IsBits t .enc (t.len .enc) ∧
          IsBits t .pun (t.len .pun) ∧ t.len .int = 0 ∧ t.len .sym = 0 ∧
          ∃ u, runCommands ((sevenCommands seed).take 5) s = .next u ∧ t.scrState = u.scrState ∧
            t.encState = u.encState ∧ SameCellsBut [.int] u t
      else Succeeded t 0x0B

/-- R41, R59 (pure functions over explicit inputs): two states that agree in the parameter registers, in LEN_PSDU and in
the payload bytes give, for one seed, the same report and the same output symbols, whatever the other buffers, the
shift registers and unspecified cells held. -/
def Obligations.FrameDependsOnPayloadOnly : Prop :=
  ∀ (s u : State) (seed : Nat), RegInv s → s.ofdm = u.ofdm → s.frame = u.frame → s.len .psdu = u.len .psdu →
    (∀ i < s.len .psdu, s.cell .psdu i = u.cell .psdu i) →
    ∃ s' u', exec (.encodeFrame seed) s = .next s' ∧ exec (.encodeFrame seed) u = .next u' ∧
      s'.status = u'.status ∧ s'.faultInfo = u'.faultInfo ∧
      (s'.status.code = 0 →
        s'.scrState = u'.scrState ∧ s'.encState = u'.encState ∧
        ∀ b i, b ≠ BufId.psdu → i < s'.len b → s'.len b = u'.len b ∧ s'.cell b i = u'.cell b i)

/-! ### Faults -/

/-- R165, with the state R170 leaves: SEQUENCE sub 1 for FRAME_PARAM without an OfdmParam and for every stage command and
ENCODE_FRAME without a FrameParam; SEQUENCE sub 2 for a stage command whose input buffer has the wrong LEN, with the id
of that buffer; the destination's LEN is 0, and no other buffer, no parameter register and no shift register of another
stage changes. FRAME_PARAM leaves what R94 says, ENCODE_FRAME changes nothing but the report. -/
def Obligations.SequenceFaults : Prop :=
  ∀ s : State,
    (∀ len, s.ofdm.valid = false → ∃ t, exec (.frameParam len) s = .next t ∧ Faulted t 4 1 0x02 0x02 0 ∧
      FrameDiscarded s t) ∧
    (∀ seed, s.frame.valid = false → ∃ t, exec (.encodeFrame seed) s = .next t ∧ Faulted t 4 1 0x0B 0x0B 0 ∧
      SameRegsBut [0, 1] s t ∧ SameCellsBut [] s t ∧ SameOutside s t) ∧
    (∀ i src n dst, stageTable s i = some (src, n, dst) →
      (s.frame.valid = false → ∃ t, exec i s = .next t ∧ Faulted t 4 1 i.opcode i.opcode 0 ∧ t.len dst = 0 ∧
        SameRegsBut [0, 1, 13, 14, 16 + dst.id] s t ∧ ShiftRegsKept i s t ∧ SameCellsBut [dst] s t) ∧
      (s.frame.valid = true → s.len src ≠ n → ∃ t, exec i s = .next t ∧
        Faulted t 4 2 i.opcode i.opcode src.id ∧ t.len dst = 0 ∧
        SameRegsBut [0, 1, 13, 14, 16 + dst.id] s t ∧ ShiftRegsKept i s t ∧ SameCellsBut [dst] s t))

/-- R161: the five CONFIG sub-causes, each under its condition, once the tests before it pass (R167); no other sub-cause
is ever reported with CODE 1. -/
def Obligations.ConfigFaults : Prop :=
  ∀ s : State, RegInv s →
    (∀ c0 c1 c2 c3 b, b < 4 → 3 < [c0, c1, c2, c3].getD b 0 → (∀ k < b, [c0, c1, c2, c3].getD k 0 ≤ 3) →
      ∃ t, exec (.ofdmParam c0 c1 c2 c3) s = .next t ∧ Faulted t 1 1 0x01 0x01 b) ∧
    (∀ len : Int, s.ofdm.valid = true → len < 0 →
      ∃ t, exec (.frameParam len) s = .next t ∧ Faulted t 1 2 0x02 0x02 0) ∧
    (∀ len : Int, s.ofdm.valid = true → (s.psduMax.val : Int) < len →
      ∃ t, exec (.frameParam len) s = .next t ∧ Faulted t 1 3 0x02 0x02 0) ∧
    (∀ seed, s.frame.valid = true → 127 < seed →
      (s.len .data = s.frame.nDataBits.toNat → ∃ t, exec (.scramble seed) s = .next t ∧
        Faulted t 1 4 0x04 0x04 0 ∧ t.len .scr = 0) ∧
      (s.len .psdu = s.frame.psduSize.toNat → ∃ t, exec (.encodeFrame seed) s = .next t ∧
        Faulted t 1 4 0x0B 0x04 0 ∧ t.len .scr = 0)) ∧
    (s.frame.valid = true → s.ofdm.nCbps.toNat ∉ validBlockSizes →
      (s.len .pun = s.frame.nEncodedBits.toNat →
        (∃ t, exec .interleave s = .next t ∧ Faulted t 1 5 0x08 0x08 0 ∧ t.len .int = 0) ∧
        (∃ t, exec .deinterleave s = .next t ∧ Faulted t 1 5 0x09 0x09 0 ∧ t.len .int = 0)) ∧
      (∀ seed ≤ 127, s.len .psdu = s.frame.psduSize.toNat →
        ∃ t, exec (.encodeFrame seed) s = .next t ∧ Faulted t 1 5 0x0B 0x08 0 ∧ t.len .int = 0)) ∧
    (∀ i t, exec i s = .next t → t.status.code = 1 → 1 ≤ t.status.sub.toNat ∧ t.status.sub.toNat ≤ 5)

/-- R163, R167: a bit-reading stage whose earlier tests pass and whose input holds a cell above 1 reports CONTRACT sub 1
with the lowest such index; the destination's LEN is 0; the input buffer, every other buffer and every shift
register of another stage are as before. The stages that read no bit cell, ASSEMBLE and TAIL_RESET, never report it. -/
def Obligations.ContractFaults : Prop :=
  ∀ (s : State) (i : Instr) (src : BufId) (n : Nat) (dst : BufId), RegInv s → s.frame.valid = true →
    stageTable s i = some (src, n, dst) → s.len src = n →
    (i ∈ [.convEncode, .puncture, .split] ∨ (∃ seed ≤ 127, i = .scramble seed) ∨
      (i ∈ [.interleave, .deinterleave] ∧ s.ofdm.nCbps.toNat ∈ validBlockSizes) →
      ∀ k < n, 1 < (s.cell src k).toNat → (∀ j < k, (s.cell src j).toNat ≤ 1) →
        ∃ t, exec i s = .next t ∧ Faulted t 2 1 i.opcode i.opcode k ∧ t.len dst = 0 ∧
          SameRegsBut [0, 1, 13, 14, 16 + dst.id] s t ∧ ShiftRegsKept i s t ∧ SameCellsBut [dst] s t) ∧
    (i ∈ [.assemble, .tailReset] → ∃ t, exec i s = .next t ∧ Succeeded t i.opcode)

/-- R163, R80: a command that succeeds leaves only bits in the bit buffer that is its destination, below its LEN. -/
def Obligations.StagesWriteOnlyBits : Prop :=
  ∀ (s t : State) (i : Instr) (src : BufId) (n : Nat) (dst : BufId), RegInv s →
    stageTable s i = some (src, n, dst) → dst ≠ .sym → (i = .tailReset → IsBits s .scr (s.len .scr)) →
    exec i s = .next t → t.status.code = 0 → IsBits t dst (t.len dst)

/-- R23, R24, R160: after every command STATUS.OP is its opcode and CODE is 0 to 4; on a success SUB, STAGE and
FAULT_INFO are 0; after a fault of any command but ENCODE_FRAME, STAGE is its opcode; FAULT_INFO is not 0 only after
CONFIG sub 1, CONTRACT or SEQUENCE sub 2. -/
def Obligations.StatusReportsCommand : Prop :=
  ∀ (s t : State) (i : Instr), exec i s = .next t →
    t.status.op = i.opcode ∧ t.status.code.toNat ≤ 4 ∧
    (t.status.code = 0 → t.status.sub = 0 ∧ t.status.stage = 0 ∧ t.faultInfo = 0) ∧
    (t.status.code ≠ 0 → (∀ seed, i ≠ .encodeFrame seed) → t.status.stage = i.opcode) ∧
    (t.faultInfo ≠ 0 → (t.status.code = 1 ∧ t.status.sub = 1) ∨ t.status.code = 2 ∨
      (t.status.code = 4 ∧ t.status.sub = 2))

/-- R23, R25, R36, R37, R22: the layout of STATUS, VALID, SCR_STATE and ENC_STATE as the host reads them, with their
always-zero bits; register 15 reads 0. -/
def Obligations.StatusWordLayout : Prop :=
  ∀ s : State, ∃ w v x y, s.regRead 0 = some w ∧ s.regRead 2 = some v ∧ s.regRead 13 = some x ∧
    s.regRead 14 = some y ∧ s.regRead 15 = some 0 ∧
    x.extractLsb' 0 7 = s.scrState ∧ x.extractLsb' 7 25 = 0 ∧ y.extractLsb' 0 7 = s.encState ∧
    y.extractLsb' 7 25 = 0 ∧
    w.extractLsb' 0 4 = s.status.code ∧ w.extractLsb' 4 4 = s.status.sub ∧ w.extractLsb' 8 8 = s.status.op ∧
    w.extractLsb' 16 8 = s.status.stage ∧ w.extractLsb' 24 8 = 0 ∧
    v.getLsbD 0 = s.ofdm.valid ∧ v.getLsbD 1 = s.frame.valid ∧ v.extractLsb' 2 30 = 0

/-! ### The whole machine -/

/-- R10: a command always completes, in every state: no command stops the machine. -/
def Obligations.EveryCommandCompletes : Prop := ∀ (i : Instr) (s : State), ∃ t, exec i s = .next t

/-- R55: a step is refused exactly when the host's next primitive has an argument outside its domain; an illegal but
well-formed command word is not refused, it executes and reports a COMMAND fault. -/
def Obligations.RefusedAccesses : Prop :=
  ∀ (s : State) (a : HostAct) (rest : List HostAct), s.pending = a :: rest →
    ((∃ r, step s = .refused r) ↔ ¬ a.Defined s.cap) ∧ (a.Defined s.cap → ∃ t, step s = .next t) ∧
    (∀ (cw : CommandWord) (e : DecodeError), a = .cmd cw.toNat → decode cw = .error e →
      ∃ t, step s = .next t ∧ t.status.code = 3)

/-- R50, R56: the host's four accesses. A read returns the value and changes nothing; a register write changes that LEN
register only and no cell; a cell write changes that cell only and no register. -/
def Obligations.HostAccesses : Prop :=
  ∀ (s : State) (rest : List HostAct),
    (∀ n w, s.pending = .regRead n :: rest → s.regRead n = some w →
      step s = .next ((s.setPending rest).setReply (some (.regValue w)))) ∧
    (∀ b i, s.pending = .bufRead (BufId.id b) i :: rest → i < s.cap b →
      step s = .next ((s.setPending rest).setReply (some (.cellValue (s.cell b i))))) ∧
    (∀ b v, s.pending = .regWrite (16 + BufId.id b) v :: rest → v ≤ s.cap b →
      ∃ t, step s = .next t ∧ t.len b = v ∧ SameRegsBut [16 + b.id] s t ∧ SameCellsBut [] s t ∧
        t.pending = rest ∧ t.reply = none) ∧
    (∀ b i v, s.pending = .bufWrite (BufId.id b) i v :: rest → i < s.cap b → v < 256 →
      ∃ t, step s = .next t ∧ (t.cell b i).toNat = v ∧ (∀ b' j, (b', j) ≠ (b, i) → t.cell b' j = s.cell b' j) ∧
        SameRegsBut [] s t ∧ t.pending = rest ∧ t.reply = none)

/-- R197, R39, R36, R37: a stage command, on success and on a fault, changes the cells and the LEN of its destination
buffer only, and no parameter register; SCR_STATE only if it is SCRAMBLE, ENC_STATE only if it is CONV_ENCODE. -/
def Obligations.OnlyDestinationBufferChanges : Prop :=
  ∀ (s t : State) (i : Instr) (src : BufId) (n : Nat) (dst : BufId),
    stageTable s i = some (src, n, dst) → exec i s = .next t →
      SameCellsBut [dst] s t ∧ SameRegsBut [0, 1, 13, 14, 16 + dst.id] s t ∧ SameOutside s t ∧
      ShiftRegsKept i s t

/-- R202, R91, R94: no command changes a cell of PSDU or LEN_PSDU. -/
def Obligations.NoCommandTouchesPayload : Prop :=
  ∀ (s t : State) (i : Instr), exec i s = .next t →
    t.len .psdu = s.len .psdu ∧ ∀ j, t.cell .psdu j = s.cell .psdu j

/-- R36, R37, R192: no command reads what a previous command left in SCR_STATE or ENC_STATE: changing them before a
command changes nothing after it but, at most, their own value where the command leaves it alone. After a fault the
unspecified values of the two runs are those of the same event, by the model's numbering of events (log 5). -/
def Obligations.ShiftRegistersCarryNothing : Prop :=
  ∀ (s t : State) (i : Instr) (x y : ShiftReg), exec i s = .next t →
    ∃ x' y', exec i ((s.setScrState x).setEncState y) = .next ((t.setScrState x').setEncState y') ∧
      (x' = t.scrState ∨ (x' = x ∧ t.scrState = s.scrState)) ∧
      (y' = t.encState ∨ (y' = y ∧ t.encState = s.encState))

/-- R44: the invariants of the parameter and LEN registers are kept by every step, from every state that has them. -/
def Obligations.StepKeepsParameterInvariants : Prop :=
  ∀ s s' : State, RegInv s → step s = .next s' → RegInv s'

/-- R40, the model's storage (log 5, log 12): every step keeps the buffers' canonical form, stores no cell at or above
the capacity, and keeps every past event before the next one. -/
def Obligations.StepKeepsStorageCanonical : Prop :=
  ∀ s s' : State, RegInv s → StorageInv s → step s = .next s' → StorageInv s'

/-- R43, R44: the reset state has both invariants, for every PSDU_MAX. That its eras and counter start at 0 and 1 is the
model's choice (log 7). -/
def Obligations.ResetMeetsInvariants : Prop :=
  ∀ m : Config.PsduMax, RegInv (State.resetOf m) ∧ StorageInv (State.resetOf m) ∧
    State.reset = State.resetOf Config.psduMax
end

