-- ==== Sys2Proof/Laws/Shift.lean ====
section
/-! SUPPORT. The shift registers bit by bit, and the scrambler and encoder as closed forms over their input
(spec/41_assemble_scramble_tail.md R103, R105, spec/42_convolutional_puncture.md R115). -/

namespace Sys2Proof.Machine

/-- Bit by bit, the shift of both registers: the new bit at bit 0, every other bit one place up, the old bit 6 gone. -/
theorem shiftIn_getLsbD (st : ShiftReg) (x : Bool) (k : Nat) (hk : k < 7) :
    (shiftIn st x).getLsbD k = if k = 0 then x else st.getLsbD (k - 1) := by
  have hm : shiftMask.getLsbD k = decide (k ≠ 0) := by
    interval_cases k <;> rfl
  simp only [shiftIn, BitVec.getLsbD_or, BitVec.getLsbD_and, BitVec.getLsbD_shiftLeft, hm]
  by_cases h0 : k = 0
  · subst h0; cases x <;> simp
  · have hx : (if x then (1 : ShiftReg) else 0).getLsbD k = false := by
      cases x
      · simp
      · interval_cases k <;> first | rfl | exact absurd rfl h0
    rw [hx]
    have h1 : ¬ k < 1 := by omega
    simp [h0, hk, h1]

/-- The seed loaded into the register: bit k of the seed is bit k of the state. -/
theorem seed_getLsbD (seed k : Nat) (hk : k < 7) : (BitVec.ofNat 7 seed).getLsbD k = seed.testBit k := by
  rw [BitVec.getLsbD_ofNat, decide_eq_true hk, Bool.true_and]

@[simp] theorem scrambleOut_length (st : ShiftReg) (xs : List Bool) : (scrambleOut st xs).length = xs.length := by
  induction xs generalizing st with
  | nil => rfl
  | cons x xs ih => simp [scrambleOut, ih]

@[simp] theorem convOut_length (st : ShiftReg) (xs : List Bool) : (convOut st xs).length = 2 * xs.length := by
  induction xs generalizing st with
  | nil => rfl
  | cons x xs ih => simp [convOut, ih]; omega

/-- `st` holds κ n to κ (n + 6), the newest in bit 0. -/
def HoldsWindow (κ : Nat → Bool) (n : Nat) (st : ShiftReg) : Prop := ∀ k < 7, st.getLsbD k = κ (n + (6 - k))

theorem HoldsWindow.feedback {κ : Nat → Bool} {n : Nat} {st : ShiftReg} (h : HoldsWindow κ n st)
    (hκ : κ (n + 7) = (κ n ^^ κ (n + 3))) : scrFeedback st = κ (n + 7) := by
  rw [scrFeedback, h 6 (by norm_num), h 3 (by norm_num), hκ]
  rfl

theorem HoldsWindow.shift {κ : Nat → Bool} {n : Nat} {st : ShiftReg} (h : HoldsWindow κ n st) :
    HoldsWindow κ (n + 1) (shiftIn st (κ (n + 7))) := by
  intro k hk
  rw [shiftIn_getLsbD st _ k hk]
  split
  · rename_i h0; subst h0; rfl
  · rw [h (k - 1) (by omega)]
    congr 1
    omega

/-- The keystream closed form of the scrambler (R105): output i is input i xor the keystream bit i. -/
theorem scrambleOut_getElem? {κ : Nat → Bool} (hκ : ∀ n, κ (n + 7) = (κ n ^^ κ (n + 3))) {n : Nat} {st : ShiftReg}
    (h : HoldsWindow κ n st) (xs : List Bool) (i : Nat) :
    (scrambleOut st xs)[i]? = xs[i]?.map (fun x => κ (n + i + 7) ^^ x) := by
  induction xs generalizing st n i with
  | nil => simp [scrambleOut]
  | cons x xs ih =>
    have hf := h.feedback (hκ n)
    cases i with
    | zero => simp [scrambleOut, hf]
    | succ i =>
      have hs := ih (n := n + 1) (st := shiftIn st (scrFeedback st)) (by rw [hf]; exact h.shift) i
      simp only [scrambleOut, List.getElem?_cons_succ, hs]
      congr 2
      funext x
      congr 2
      omega

/-- The state after the last step holds the newest seven keystream bits (R104). -/
theorem scrambleEnd_window {κ : Nat → Bool} (hκ : ∀ n, κ (n + 7) = (κ n ^^ κ (n + 3))) {n : Nat} {st : ShiftReg}
    (h : HoldsWindow κ n st) (xs : List Bool) : HoldsWindow κ (n + xs.length) (scrambleEnd st xs) := by
  induction xs generalizing st n with
  | nil => exact h
  | cons x xs ih =>
    have hf := h.feedback (hκ n)
    have := ih (n := n + 1) (st := shiftIn st (scrFeedback st)) (by rw [hf]; exact h.shift)
    simpa [scrambleEnd, Nat.add_assoc, Nat.add_comm 1] using this

/-- The keystream of a state: its feedback bits, after the seven bits of the state itself. -/
def keystreamFrom : ShiftReg → Nat → Bool
  | st, 0 => st.getLsbD 6
  | st, n + 1 => keystreamFrom (shiftIn st (scrFeedback st)) n

theorem keystreamFrom_window (st : ShiftReg) (n : Nat) (hn : n < 7) :
    keystreamFrom st n = st.getLsbD (6 - n) := by
  induction n generalizing st with
  | zero => rfl
  | succ n ih =>
    rw [keystreamFrom, ih _ (by omega), shiftIn_getLsbD _ _ _ (by omega), if_neg (by omega)]
    congr 1

theorem keystreamFrom_add (st : ShiftReg) (n : Nat) :
    keystreamFrom st (n + 7) = (keystreamFrom st n ^^ keystreamFrom st (n + 3)) := by
  induction n generalizing st with
  | zero =>
    have h7 : keystreamFrom st (0 + 7) = keystreamFrom (shiftIn st (scrFeedback st)) 6 := rfl
    rw [h7, keystreamFrom_window _ 6 (by norm_num), shiftIn_getLsbD _ _ _ (by norm_num), if_pos rfl,
      keystreamFrom_window st 0 (by norm_num), keystreamFrom_window st (0 + 3) (by norm_num)]
    rfl
  | succ n ih =>
    rw [show n + 1 + 7 = (n + 7) + 1 by omega, show n + 1 + 3 = (n + 3) + 1 by omega]
    simp only [keystreamFrom]
    exact ih _

/-- Every seed has its keystream. -/
theorem keystreamFrom_isKeystream (seed : Nat) : IsKeystream seed (keystreamFrom (BitVec.ofNat 7 seed)) := by
  refine ⟨?_, keystreamFrom_add _⟩
  intro k hk
  rw [keystreamFrom_window _ _ hk, seed_getLsbD _ _ (by omega)]

/-- A keystream's first seven bits are what the seed loads into the register. -/
theorem IsKeystream.window {seed : Nat} {κ : Nat → Bool} (h : IsKeystream seed κ) :
    HoldsWindow κ 0 (BitVec.ofNat 7 seed) := by
  intro k hk
  rw [seed_getLsbD _ _ hk, Nat.zero_add, h.1 (6 - k) (by omega)]
  congr 1
  omega

/-- The scrambler linear in its data: the output is the input xor the keystream, so scrambling twice is the identity. -/
theorem scrambleOut_scrambleOut (st : ShiftReg) (xs : List Bool) : scrambleOut st (scrambleOut st xs) = xs := by
  induction xs generalizing st with
  | nil => rfl
  | cons x xs ih => simp [scrambleOut, ih]

/-! ### The encoder -/

/-- `st` holds the inputs x (n - 1), x (n - 2), ..., the newest in bit 0, zeros before the start. -/
def HoldsPast (x : Nat → Bool) (n : Nat) (st : ShiftReg) : Prop :=
  ∀ k < 7, st.getLsbD k = if k < n then x (n - 1 - k) else false

theorem HoldsPast.zero (x : Nat → Bool) : HoldsPast x 0 0 := by
  intro k _
  simp

theorem HoldsPast.shift {x : Nat → Bool} {n : Nat} {st : ShiftReg} (h : HoldsPast x n st) :
    HoldsPast x (n + 1) (shiftIn st (x n)) := by
  intro k hk
  rw [shiftIn_getLsbD st _ k hk]
  split
  · rename_i h0; subst h0; simp
  · rw [h (k - 1) (by omega)]
    by_cases hkn : k - 1 < n
    · rw [if_pos hkn, if_pos (by omega)]
      congr 1
      omega
    · rw [if_neg hkn, if_neg (by omega)]

/-- The bits of the shifted state are the current and the past inputs (R115). -/
theorem HoldsPast.pastBit {x : Nat → Bool} {n : Nat} {st : ShiftReg} (h : HoldsPast x (n + 1) st) {k : Nat}
    (hk : k < 7) : st.getLsbD k = pastBit x n k := by
  rw [h k hk, Machine.pastBit]
  by_cases hkn : k ≤ n
  · rw [if_pos (by omega), if_pos hkn]
    congr 1
  · rw [if_neg (by omega), if_neg hkn]

/-- The two parities written out (R115). -/
theorem parity_genMask0 (v : ShiftReg) :
    parity (v &&& genMask0) = (v.getLsbD 0 ^^ v.getLsbD 2 ^^ v.getLsbD 3 ^^ v.getLsbD 5 ^^ v.getLsbD 6) := by
  simp [parity, genMask0]

theorem parity_genMask1 (v : ShiftReg) :
    parity (v &&& genMask1) = (v.getLsbD 0 ^^ v.getLsbD 1 ^^ v.getLsbD 2 ^^ v.getLsbD 3 ^^ v.getLsbD 6) := by
  simp [parity, genMask1]

end Sys2Proof.Machine
end

