-- ==== Sys2Proof/Laws/Coding.lean ====
section
/-! SUPPORT. The convolutional encoder as a closed form over its input (spec/42_convolutional_puncture.md R115, R116). -/

namespace Sys2Proof.Machine

/-- The encoder's outputs from a state that holds the inputs before step n: output pair i is the two parities of step
n + i (42_convolutional_puncture.md R115). -/
theorem convOut_getElem? {x : Nat → Bool} {n : Nat} {st : ShiftReg} (h : HoldsPast x n st) (xs : List Bool)
    (hx : ∀ j < xs.length, xs[j]? = some (x (n + j))) (i : Nat) (hi : i < xs.length) :
    (convOut st xs)[2 * i]? = some (parityA x (n + i)) ∧ (convOut st xs)[2 * i + 1]? = some (parityB x (n + i)) := by
  induction xs generalizing st n i with
  | nil => simp at hi
  | cons b xs ih =>
    have hb : b = x n := by simpa using hx 0 (by simp)
    subst hb
    have hs := h.shift
    cases i with
    | zero =>
      simp only [convOut, Nat.mul_zero, List.getElem?_cons_zero, Nat.zero_add, List.getElem?_cons_succ, Nat.add_zero,
        parity_genMask0, parity_genMask1, parityA, parityB]
      rw [hs.pastBit (by norm_num), hs.pastBit (by norm_num), hs.pastBit (by norm_num), hs.pastBit (by norm_num),
        hs.pastBit (by norm_num), hs.pastBit (by norm_num)]
      exact ⟨rfl, rfl⟩
    | succ i =>
      have := ih hs (fun j hj => by
        have := hx (j + 1) (by simpa using hj)
        rw [List.getElem?_cons_succ] at this
        rw [this]
        congr 2
        omega) i (by simpa using hi)
      rw [show 2 * (i + 1) + 1 = (2 * i + 1) + 1 + 1 by omega, show 2 * (i + 1) = 2 * i + 1 + 1 by omega]
      simp only [convOut, List.getElem?_cons_succ]
      rw [show n + (i + 1) = n + 1 + i by omega]
      exact this

theorem convEnd_holdsPast {x : Nat → Bool} {n : Nat} {st : ShiftReg} (h : HoldsPast x n st) (xs : List Bool)
    (hx : ∀ j < xs.length, xs[j]? = some (x (n + j))) : HoldsPast x (n + xs.length) (convEnd st xs) := by
  induction xs generalizing st n with
  | nil => exact h
  | cons b xs ih =>
    have hb : b = x n := by simpa using hx 0 (by simp)
    subst hb
    have := ih h.shift (fun j hj => by
      have := hx (j + 1) (by simpa using hj)
      rw [List.getElem?_cons_succ] at this
      rw [this]
      congr 2
      omega)
    simpa [convEnd, Nat.add_assoc, Nat.add_comm 1] using this

theorem convOut_append (st : ShiftReg) (xs ys : List Bool) :
    convOut st (xs ++ ys) = convOut st xs ++ convOut (convEnd st xs) ys := by
  induction xs generalizing st with
  | nil => rfl
  | cons x xs ih => simp [convOut, convEnd, ih]

end Sys2Proof.Machine
end

