-- ==== Sys2Proof/Laws/Decode.lean ====
section
/-! SUPPORT. The fields of a command word and of a packed register as arithmetic, for the decoder and the encoder. -/

namespace Sys2Proof

theorem byteField_eq (w : Word) (k : Nat) : byteField w k = w.toNat / 2 ^ (8 * k) % 256 := by
  simp [byteField, BitVec.extractLsb'_toNat, Nat.shiftRight_eq_div_pow]

theorem byteField_lt (w : Word) (k : Nat) : byteField w k < 256 := by
  rw [byteField_eq]
  exact Nat.mod_lt _ (by norm_num)

theorem packBlocks_toNat {v0 v1 v2 v3 : Nat} (h0 : v0 < 256) (h1 : v1 < 256) (h2 : v2 < 256) (h3 : v3 < 256) :
    (packBlocks v0 v1 v2 v3).toNat = v0 + 256 * v1 + 65536 * v2 + 16777216 * v3 := by
  rw [packBlocks, BitVec.toNat_ofNat]
  norm_num
  omega

/-- Unpacking what was packed: block 0 is the lowest byte (30_encoding.md R72, R78). -/
theorem byteField_packBlocks {v0 v1 v2 v3 : Nat} (h0 : v0 < 256) (h1 : v1 < 256) (h2 : v2 < 256) (h3 : v3 < 256) :
    byteField (packBlocks v0 v1 v2 v3) 0 = v0 ∧ byteField (packBlocks v0 v1 v2 v3) 1 = v1 ∧
      byteField (packBlocks v0 v1 v2 v3) 2 = v2 ∧ byteField (packBlocks v0 v1 v2 v3) 3 = v3 := by
  simp only [byteField_eq, packBlocks_toNat h0 h1 h2 h3]
  norm_num
  omega

/-- Packing what was unpacked. -/
theorem packBlocks_byteField (w : Word) :
    packBlocks (byteField w 0) (byteField w 1) (byteField w 2) (byteField w 3) = w := by
  apply BitVec.eq_of_toNat_eq
  rw [packBlocks_toNat (byteField_lt _ _) (byteField_lt _ _) (byteField_lt _ _) (byteField_lt _ _)]
  simp only [byteField_eq]
  have := w.isLt
  norm_num
  omega

/-- OP of an encoded command is its opcode, ARG its operand (30_encoding.md R70). -/
@[simp] theorem opField_append (op : Byte) (arg : Word) : opField (op ++ arg : CommandWord) = op := by
  apply BitVec.eq_of_getLsbD_eq
  intro i hi
  simp only [opField, BitVec.getLsbD_extractLsb', BitVec.getLsbD_append]
  have h : ¬ 32 + i < 32 := by omega
  simp [h, hi]

@[simp] theorem argField_append (op : Byte) (arg : Word) : argField (op ++ arg : CommandWord) = arg := by
  apply BitVec.eq_of_getLsbD_eq
  intro i hi
  simp only [argField, BitVec.getLsbD_extractLsb', BitVec.getLsbD_append, Nat.zero_add]
  simp [hi]

@[simp] theorem opField_encode (i : Instr) : opField (encode i) = i.opcode := opField_append _ _

@[simp] theorem argField_encode (i : Instr) : argField (encode i) = i.arg := argField_append _ _

/-- A command word is its OP above its ARG. -/
theorem append_fields (cw : CommandWord) : (opField cw ++ argField cw : CommandWord) = cw := by
  apply BitVec.eq_of_getLsbD_eq
  intro i hi
  rw [BitVec.getLsbD_append]
  simp only [opField, argField, BitVec.getLsbD_extractLsb']
  by_cases h : i < 32
  · simp [h]
  · have h1 : i - 32 < 8 := by omega
    have h2 : 32 + (i - 32) = i := by omega
    simp [h, h1, h2]

theorem opField_toNat (cw : CommandWord) : (opField cw).toNat = (cw >>> 32).toNat := by
  have := cw.isLt
  simp only [opField, BitVec.extractLsb'_toNat, BitVec.toNat_ushiftRight, Nat.shiftRight_eq_div_pow]
  exact Nat.mod_eq_of_lt (by omega)

theorem argField_toNat (cw : CommandWord) : (argField cw).toNat = cw.toNat % 2 ^ 32 := by
  simp [argField, BitVec.extractLsb'_toNat]

/-- The opcodes are 0x01 to 0x0B (30_encoding.md R71). -/
theorem Instr.opcode_bounds (i : Instr) : 1 ≤ i.opcode.toNat ∧ i.opcode.toNat ≤ 0x0B := by
  cases i <;> exact ⟨by simp [Instr.opcode], by simp [Instr.opcode]⟩

theorem needZeroArg_eq_ok {arg : Word} {i j : Instr} : needZeroArg arg i = .ok j ↔ arg = 0 ∧ i = j := by
  unfold needZeroArg
  split <;> simp_all

end Sys2Proof
end

