-- ==== Sys2Proof/Laws/State.lean ====
section
/-! SUPPORT. One lemma per field per update of the state, true by `rfl`, so that no proof unfolds a record update; and
what each update does to the buffers. -/

namespace Sys2Proof.Machine

/-! ### `State.setBuf` -/

@[simp] theorem State.setBuf_psduMax (s : State) (b : BufId) (x : Buffer) : (s.setBuf b x).psduMax = s.psduMax := rfl
@[simp] theorem State.setBuf_status (s : State) (b : BufId) (x : Buffer) : (s.setBuf b x).status = s.status := rfl
@[simp] theorem State.setBuf_faultInfo (s : State) (b : BufId) (x : Buffer) : (s.setBuf b x).faultInfo = s.faultInfo := rfl
@[simp] theorem State.setBuf_ofdm (s : State) (b : BufId) (x : Buffer) : (s.setBuf b x).ofdm = s.ofdm := rfl
@[simp] theorem State.setBuf_frame (s : State) (b : BufId) (x : Buffer) : (s.setBuf b x).frame = s.frame := rfl
@[simp] theorem State.setBuf_scrState (s : State) (b : BufId) (x : Buffer) : (s.setBuf b x).scrState = s.scrState := rfl
@[simp] theorem State.setBuf_encState (s : State) (b : BufId) (x : Buffer) : (s.setBuf b x).encState = s.encState := rfl
@[simp] theorem State.setBuf_freeCount (s : State) (b : BufId) (x : Buffer) : (s.setBuf b x).freeCount = s.freeCount := rfl
@[simp] theorem State.setBuf_pending (s : State) (b : BufId) (x : Buffer) : (s.setBuf b x).pending = s.pending := rfl
@[simp] theorem State.setBuf_reply (s : State) (b : BufId) (x : Buffer) : (s.setBuf b x).reply = s.reply := rfl
@[simp] theorem State.setBuf_cap (s : State) (b : BufId) (x : Buffer) (b' : BufId) : (s.setBuf b x).cap b' = s.cap b' := rfl

/-! ### `State.setScrState` -/

@[simp] theorem State.setScrState_psduMax (s : State) (v : ShiftReg) : (s.setScrState v).psduMax = s.psduMax := rfl
@[simp] theorem State.setScrState_status (s : State) (v : ShiftReg) : (s.setScrState v).status = s.status := rfl
@[simp] theorem State.setScrState_faultInfo (s : State) (v : ShiftReg) : (s.setScrState v).faultInfo = s.faultInfo := rfl
@[simp] theorem State.setScrState_ofdm (s : State) (v : ShiftReg) : (s.setScrState v).ofdm = s.ofdm := rfl
@[simp] theorem State.setScrState_frame (s : State) (v : ShiftReg) : (s.setScrState v).frame = s.frame := rfl
@[simp] theorem State.setScrState_scrState (s : State) (v : ShiftReg) : (s.setScrState v).scrState = v := rfl
@[simp] theorem State.setScrState_encState (s : State) (v : ShiftReg) : (s.setScrState v).encState = s.encState := rfl
@[simp] theorem State.setScrState_freeCount (s : State) (v : ShiftReg) : (s.setScrState v).freeCount = s.freeCount := rfl
@[simp] theorem State.setScrState_pending (s : State) (v : ShiftReg) : (s.setScrState v).pending = s.pending := rfl
@[simp] theorem State.setScrState_reply (s : State) (v : ShiftReg) : (s.setScrState v).reply = s.reply := rfl
@[simp] theorem State.setScrState_bufs (s : State) (v : ShiftReg) : (s.setScrState v).bufs = s.bufs := rfl
@[simp] theorem State.setScrState_buf (s : State) (v : ShiftReg) (b' : BufId) : (s.setScrState v).buf b' = s.buf b' := rfl
@[simp] theorem State.setScrState_len (s : State) (v : ShiftReg) (b' : BufId) : (s.setScrState v).len b' = s.len b' := rfl
@[simp] theorem State.setScrState_cell (s : State) (v : ShiftReg) (b' : BufId) (i : Nat) : (s.setScrState v).cell b' i = s.cell b' i := rfl
@[simp] theorem State.setScrState_bits (s : State) (v : ShiftReg) (b' : BufId) (k : Nat) : (s.setScrState v).bits b' k = s.bits b' k := rfl
@[simp] theorem State.setScrState_cap (s : State) (v : ShiftReg) (b' : BufId) : (s.setScrState v).cap b' = s.cap b' := rfl

/-! ### `State.setEncState` -/

@[simp] theorem State.setEncState_psduMax (s : State) (v : ShiftReg) : (s.setEncState v).psduMax = s.psduMax := rfl
@[simp] theorem State.setEncState_status (s : State) (v : ShiftReg) : (s.setEncState v).status = s.status := rfl
@[simp] theorem State.setEncState_faultInfo (s : State) (v : ShiftReg) : (s.setEncState v).faultInfo = s.faultInfo := rfl
@[simp] theorem State.setEncState_ofdm (s : State) (v : ShiftReg) : (s.setEncState v).ofdm = s.ofdm := rfl
@[simp] theorem State.setEncState_frame (s : State) (v : ShiftReg) : (s.setEncState v).frame = s.frame := rfl
@[simp] theorem State.setEncState_scrState (s : State) (v : ShiftReg) : (s.setEncState v).scrState = s.scrState := rfl
@[simp] theorem State.setEncState_encState (s : State) (v : ShiftReg) : (s.setEncState v).encState = v := rfl
@[simp] theorem State.setEncState_freeCount (s : State) (v : ShiftReg) : (s.setEncState v).freeCount = s.freeCount := rfl
@[simp] theorem State.setEncState_pending (s : State) (v : ShiftReg) : (s.setEncState v).pending = s.pending := rfl
@[simp] theorem State.setEncState_reply (s : State) (v : ShiftReg) : (s.setEncState v).reply = s.reply := rfl
@[simp] theorem State.setEncState_bufs (s : State) (v : ShiftReg) : (s.setEncState v).bufs = s.bufs := rfl
@[simp] theorem State.setEncState_buf (s : State) (v : ShiftReg) (b' : BufId) : (s.setEncState v).buf b' = s.buf b' := rfl
@[simp] theorem State.setEncState_len (s : State) (v : ShiftReg) (b' : BufId) : (s.setEncState v).len b' = s.len b' := rfl
@[simp] theorem State.setEncState_cell (s : State) (v : ShiftReg) (b' : BufId) (i : Nat) : (s.setEncState v).cell b' i = s.cell b' i := rfl
@[simp] theorem State.setEncState_bits (s : State) (v : ShiftReg) (b' : BufId) (k : Nat) : (s.setEncState v).bits b' k = s.bits b' k := rfl
@[simp] theorem State.setEncState_cap (s : State) (v : ShiftReg) (b' : BufId) : (s.setEncState v).cap b' = s.cap b' := rfl

/-! ### `State.setOfdm` -/

@[simp] theorem State.setOfdm_psduMax (s : State) (r : OfdmRegs) : (s.setOfdm r).psduMax = s.psduMax := rfl
@[simp] theorem State.setOfdm_status (s : State) (r : OfdmRegs) : (s.setOfdm r).status = s.status := rfl
@[simp] theorem State.setOfdm_faultInfo (s : State) (r : OfdmRegs) : (s.setOfdm r).faultInfo = s.faultInfo := rfl
@[simp] theorem State.setOfdm_ofdm (s : State) (r : OfdmRegs) : (s.setOfdm r).ofdm = r := rfl
@[simp] theorem State.setOfdm_frame (s : State) (r : OfdmRegs) : (s.setOfdm r).frame = s.frame := rfl
@[simp] theorem State.setOfdm_scrState (s : State) (r : OfdmRegs) : (s.setOfdm r).scrState = s.scrState := rfl
@[simp] theorem State.setOfdm_encState (s : State) (r : OfdmRegs) : (s.setOfdm r).encState = s.encState := rfl
@[simp] theorem State.setOfdm_freeCount (s : State) (r : OfdmRegs) : (s.setOfdm r).freeCount = s.freeCount := rfl
@[simp] theorem State.setOfdm_pending (s : State) (r : OfdmRegs) : (s.setOfdm r).pending = s.pending := rfl
@[simp] theorem State.setOfdm_reply (s : State) (r : OfdmRegs) : (s.setOfdm r).reply = s.reply := rfl
@[simp] theorem State.setOfdm_bufs (s : State) (r : OfdmRegs) : (s.setOfdm r).bufs = s.bufs := rfl
@[simp] theorem State.setOfdm_buf (s : State) (r : OfdmRegs) (b' : BufId) : (s.setOfdm r).buf b' = s.buf b' := rfl
@[simp] theorem State.setOfdm_len (s : State) (r : OfdmRegs) (b' : BufId) : (s.setOfdm r).len b' = s.len b' := rfl
@[simp] theorem State.setOfdm_cell (s : State) (r : OfdmRegs) (b' : BufId) (i : Nat) : (s.setOfdm r).cell b' i = s.cell b' i := rfl
@[simp] theorem State.setOfdm_bits (s : State) (r : OfdmRegs) (b' : BufId) (k : Nat) : (s.setOfdm r).bits b' k = s.bits b' k := rfl
@[simp] theorem State.setOfdm_cap (s : State) (r : OfdmRegs) (b' : BufId) : (s.setOfdm r).cap b' = s.cap b' := rfl

/-! ### `State.setFrame` -/

@[simp] theorem State.setFrame_psduMax (s : State) (r : FrameRegs) : (s.setFrame r).psduMax = s.psduMax := rfl
@[simp] theorem State.setFrame_status (s : State) (r : FrameRegs) : (s.setFrame r).status = s.status := rfl
@[simp] theorem State.setFrame_faultInfo (s : State) (r : FrameRegs) : (s.setFrame r).faultInfo = s.faultInfo := rfl
@[simp] theorem State.setFrame_ofdm (s : State) (r : FrameRegs) : (s.setFrame r).ofdm = s.ofdm := rfl
@[simp] theorem State.setFrame_frame (s : State) (r : FrameRegs) : (s.setFrame r).frame = r := rfl
@[simp] theorem State.setFrame_scrState (s : State) (r : FrameRegs) : (s.setFrame r).scrState = s.scrState := rfl
@[simp] theorem State.setFrame_encState (s : State) (r : FrameRegs) : (s.setFrame r).encState = s.encState := rfl
@[simp] theorem State.setFrame_freeCount (s : State) (r : FrameRegs) : (s.setFrame r).freeCount = s.freeCount := rfl
@[simp] theorem State.setFrame_pending (s : State) (r : FrameRegs) : (s.setFrame r).pending = s.pending := rfl
@[simp] theorem State.setFrame_reply (s : State) (r : FrameRegs) : (s.setFrame r).reply = s.reply := rfl
@[simp] theorem State.setFrame_bufs (s : State) (r : FrameRegs) : (s.setFrame r).bufs = s.bufs := rfl
@[simp] theorem State.setFrame_buf (s : State) (r : FrameRegs) (b' : BufId) : (s.setFrame r).buf b' = s.buf b' := rfl
@[simp] theorem State.setFrame_len (s : State) (r : FrameRegs) (b' : BufId) : (s.setFrame r).len b' = s.len b' := rfl
@[simp] theorem State.setFrame_cell (s : State) (r : FrameRegs) (b' : BufId) (i : Nat) : (s.setFrame r).cell b' i = s.cell b' i := rfl
@[simp] theorem State.setFrame_bits (s : State) (r : FrameRegs) (b' : BufId) (k : Nat) : (s.setFrame r).bits b' k = s.bits b' k := rfl
@[simp] theorem State.setFrame_cap (s : State) (r : FrameRegs) (b' : BufId) : (s.setFrame r).cap b' = s.cap b' := rfl

/-! ### `State.setReply` -/

@[simp] theorem State.setReply_psduMax (s : State) (r : Option HostReply) : (s.setReply r).psduMax = s.psduMax := rfl
@[simp] theorem State.setReply_status (s : State) (r : Option HostReply) : (s.setReply r).status = s.status := rfl
@[simp] theorem State.setReply_faultInfo (s : State) (r : Option HostReply) : (s.setReply r).faultInfo = s.faultInfo := rfl
@[simp] theorem State.setReply_ofdm (s : State) (r : Option HostReply) : (s.setReply r).ofdm = s.ofdm := rfl
@[simp] theorem State.setReply_frame (s : State) (r : Option HostReply) : (s.setReply r).frame = s.frame := rfl
@[simp] theorem State.setReply_scrState (s : State) (r : Option HostReply) : (s.setReply r).scrState = s.scrState := rfl
@[simp] theorem State.setReply_encState (s : State) (r : Option HostReply) : (s.setReply r).encState = s.encState := rfl
@[simp] theorem State.setReply_freeCount (s : State) (r : Option HostReply) : (s.setReply r).freeCount = s.freeCount := rfl
@[simp] theorem State.setReply_pending (s : State) (r : Option HostReply) : (s.setReply r).pending = s.pending := rfl
@[simp] theorem State.setReply_reply (s : State) (r : Option HostReply) : (s.setReply r).reply = r := rfl
@[simp] theorem State.setReply_bufs (s : State) (r : Option HostReply) : (s.setReply r).bufs = s.bufs := rfl
@[simp] theorem State.setReply_buf (s : State) (r : Option HostReply) (b' : BufId) : (s.setReply r).buf b' = s.buf b' := rfl
@[simp] theorem State.setReply_len (s : State) (r : Option HostReply) (b' : BufId) : (s.setReply r).len b' = s.len b' := rfl
@[simp] theorem State.setReply_cell (s : State) (r : Option HostReply) (b' : BufId) (i : Nat) : (s.setReply r).cell b' i = s.cell b' i := rfl
@[simp] theorem State.setReply_bits (s : State) (r : Option HostReply) (b' : BufId) (k : Nat) : (s.setReply r).bits b' k = s.bits b' k := rfl
@[simp] theorem State.setReply_cap (s : State) (r : Option HostReply) (b' : BufId) : (s.setReply r).cap b' = s.cap b' := rfl

/-! ### `State.setPending` -/

@[simp] theorem State.setPending_psduMax (s : State) (as : List HostAct) : (s.setPending as).psduMax = s.psduMax := rfl
@[simp] theorem State.setPending_status (s : State) (as : List HostAct) : (s.setPending as).status = s.status := rfl
@[simp] theorem State.setPending_faultInfo (s : State) (as : List HostAct) : (s.setPending as).faultInfo = s.faultInfo := rfl
@[simp] theorem State.setPending_ofdm (s : State) (as : List HostAct) : (s.setPending as).ofdm = s.ofdm := rfl
@[simp] theorem State.setPending_frame (s : State) (as : List HostAct) : (s.setPending as).frame = s.frame := rfl
@[simp] theorem State.setPending_scrState (s : State) (as : List HostAct) : (s.setPending as).scrState = s.scrState := rfl
@[simp] theorem State.setPending_encState (s : State) (as : List HostAct) : (s.setPending as).encState = s.encState := rfl
@[simp] theorem State.setPending_freeCount (s : State) (as : List HostAct) : (s.setPending as).freeCount = s.freeCount := rfl
@[simp] theorem State.setPending_pending (s : State) (as : List HostAct) : (s.setPending as).pending = as := rfl
@[simp] theorem State.setPending_reply (s : State) (as : List HostAct) : (s.setPending as).reply = s.reply := rfl
@[simp] theorem State.setPending_bufs (s : State) (as : List HostAct) : (s.setPending as).bufs = s.bufs := rfl
@[simp] theorem State.setPending_buf (s : State) (as : List HostAct) (b' : BufId) : (s.setPending as).buf b' = s.buf b' := rfl
@[simp] theorem State.setPending_len (s : State) (as : List HostAct) (b' : BufId) : (s.setPending as).len b' = s.len b' := rfl
@[simp] theorem State.setPending_cell (s : State) (as : List HostAct) (b' : BufId) (i : Nat) : (s.setPending as).cell b' i = s.cell b' i := rfl
@[simp] theorem State.setPending_bits (s : State) (as : List HostAct) (b' : BufId) (k : Nat) : (s.setPending as).bits b' k = s.bits b' k := rfl
@[simp] theorem State.setPending_cap (s : State) (as : List HostAct) (b' : BufId) : (s.setPending as).cap b' = s.cap b' := rfl

/-! ### `State.setFreeCount` -/

@[simp] theorem State.setFreeCount_psduMax (s : State) (n : Nat) : (s.setFreeCount n).psduMax = s.psduMax := rfl
@[simp] theorem State.setFreeCount_status (s : State) (n : Nat) : (s.setFreeCount n).status = s.status := rfl
@[simp] theorem State.setFreeCount_faultInfo (s : State) (n : Nat) : (s.setFreeCount n).faultInfo = s.faultInfo := rfl
@[simp] theorem State.setFreeCount_ofdm (s : State) (n : Nat) : (s.setFreeCount n).ofdm = s.ofdm := rfl
@[simp] theorem State.setFreeCount_frame (s : State) (n : Nat) : (s.setFreeCount n).frame = s.frame := rfl
@[simp] theorem State.setFreeCount_scrState (s : State) (n : Nat) : (s.setFreeCount n).scrState = s.scrState := rfl
@[simp] theorem State.setFreeCount_encState (s : State) (n : Nat) : (s.setFreeCount n).encState = s.encState := rfl
@[simp] theorem State.setFreeCount_freeCount (s : State) (n : Nat) : (s.setFreeCount n).freeCount = n := rfl
@[simp] theorem State.setFreeCount_pending (s : State) (n : Nat) : (s.setFreeCount n).pending = s.pending := rfl
@[simp] theorem State.setFreeCount_reply (s : State) (n : Nat) : (s.setFreeCount n).reply = s.reply := rfl
@[simp] theorem State.setFreeCount_bufs (s : State) (n : Nat) : (s.setFreeCount n).bufs = s.bufs := rfl
@[simp] theorem State.setFreeCount_buf (s : State) (n : Nat) (b' : BufId) : (s.setFreeCount n).buf b' = s.buf b' := rfl
@[simp] theorem State.setFreeCount_len (s : State) (n : Nat) (b' : BufId) : (s.setFreeCount n).len b' = s.len b' := rfl
@[simp] theorem State.setFreeCount_cell (s : State) (n : Nat) (b' : BufId) (i : Nat) : (s.setFreeCount n).cell b' i = s.cell b' i := rfl
@[simp] theorem State.setFreeCount_bits (s : State) (n : Nat) (b' : BufId) (k : Nat) : (s.setFreeCount n).bits b' k = s.bits b' k := rfl
@[simp] theorem State.setFreeCount_cap (s : State) (n : Nat) (b' : BufId) : (s.setFreeCount n).cap b' = s.cap b' := rfl

/-! ### `State.setLen` -/

@[simp] theorem State.setLen_psduMax (s : State) (b : BufId) (n : Nat) : (s.setLen b n).psduMax = s.psduMax := rfl
@[simp] theorem State.setLen_status (s : State) (b : BufId) (n : Nat) : (s.setLen b n).status = s.status := rfl
@[simp] theorem State.setLen_faultInfo (s : State) (b : BufId) (n : Nat) : (s.setLen b n).faultInfo = s.faultInfo := rfl
@[simp] theorem State.setLen_ofdm (s : State) (b : BufId) (n : Nat) : (s.setLen b n).ofdm = s.ofdm := rfl
@[simp] theorem State.setLen_frame (s : State) (b : BufId) (n : Nat) : (s.setLen b n).frame = s.frame := rfl
@[simp] theorem State.setLen_scrState (s : State) (b : BufId) (n : Nat) : (s.setLen b n).scrState = s.scrState := rfl
@[simp] theorem State.setLen_encState (s : State) (b : BufId) (n : Nat) : (s.setLen b n).encState = s.encState := rfl
@[simp] theorem State.setLen_freeCount (s : State) (b : BufId) (n : Nat) : (s.setLen b n).freeCount = s.freeCount := rfl
@[simp] theorem State.setLen_pending (s : State) (b : BufId) (n : Nat) : (s.setLen b n).pending = s.pending := rfl
@[simp] theorem State.setLen_reply (s : State) (b : BufId) (n : Nat) : (s.setLen b n).reply = s.reply := rfl
@[simp] theorem State.setLen_cap (s : State) (b : BufId) (n : Nat) (b' : BufId) : (s.setLen b n).cap b' = s.cap b' := rfl

/-! ### `State.writeCells` -/

@[simp] theorem State.writeCells_psduMax (s : State) (b : BufId) (ws : List Host.Cell) : (s.writeCells b ws).psduMax = s.psduMax := rfl
@[simp] theorem State.writeCells_status (s : State) (b : BufId) (ws : List Host.Cell) : (s.writeCells b ws).status = s.status := rfl
@[simp] theorem State.writeCells_faultInfo (s : State) (b : BufId) (ws : List Host.Cell) : (s.writeCells b ws).faultInfo = s.faultInfo := rfl
@[simp] theorem State.writeCells_ofdm (s : State) (b : BufId) (ws : List Host.Cell) : (s.writeCells b ws).ofdm = s.ofdm := rfl
@[simp] theorem State.writeCells_frame (s : State) (b : BufId) (ws : List Host.Cell) : (s.writeCells b ws).frame = s.frame := rfl
@[simp] theorem State.writeCells_scrState (s : State) (b : BufId) (ws : List Host.Cell) : (s.writeCells b ws).scrState = s.scrState := rfl
@[simp] theorem State.writeCells_encState (s : State) (b : BufId) (ws : List Host.Cell) : (s.writeCells b ws).encState = s.encState := rfl
@[simp] theorem State.writeCells_freeCount (s : State) (b : BufId) (ws : List Host.Cell) : (s.writeCells b ws).freeCount = s.freeCount := rfl
@[simp] theorem State.writeCells_pending (s : State) (b : BufId) (ws : List Host.Cell) : (s.writeCells b ws).pending = s.pending := rfl
@[simp] theorem State.writeCells_reply (s : State) (b : BufId) (ws : List Host.Cell) : (s.writeCells b ws).reply = s.reply := rfl
@[simp] theorem State.writeCells_cap (s : State) (b : BufId) (ws : List Host.Cell) (b' : BufId) : (s.writeCells b ws).cap b' = s.cap b' := rfl

/-! ### `State.clearStageLens` -/

@[simp] theorem State.clearStageLens_psduMax (s : State) : s.clearStageLens.psduMax = s.psduMax := rfl
@[simp] theorem State.clearStageLens_status (s : State) : s.clearStageLens.status = s.status := rfl
@[simp] theorem State.clearStageLens_faultInfo (s : State) : s.clearStageLens.faultInfo = s.faultInfo := rfl
@[simp] theorem State.clearStageLens_ofdm (s : State) : s.clearStageLens.ofdm = s.ofdm := rfl
@[simp] theorem State.clearStageLens_frame (s : State) : s.clearStageLens.frame = s.frame := rfl
@[simp] theorem State.clearStageLens_scrState (s : State) : s.clearStageLens.scrState = s.scrState := rfl
@[simp] theorem State.clearStageLens_encState (s : State) : s.clearStageLens.encState = s.encState := rfl
@[simp] theorem State.clearStageLens_freeCount (s : State) : s.clearStageLens.freeCount = s.freeCount := rfl
@[simp] theorem State.clearStageLens_pending (s : State) : s.clearStageLens.pending = s.pending := rfl
@[simp] theorem State.clearStageLens_reply (s : State) : s.clearStageLens.reply = s.reply := rfl
@[simp] theorem State.clearStageLens_cap (s : State) (b' : BufId) : s.clearStageLens.cap b' = s.cap b' := rfl

/-! ### `State.loseBuf` -/

@[simp] theorem State.loseBuf_psduMax (s : State) (b : BufId) : (s.loseBuf b).psduMax = s.psduMax := rfl
@[simp] theorem State.loseBuf_status (s : State) (b : BufId) : (s.loseBuf b).status = s.status := rfl
@[simp] theorem State.loseBuf_faultInfo (s : State) (b : BufId) : (s.loseBuf b).faultInfo = s.faultInfo := rfl
@[simp] theorem State.loseBuf_ofdm (s : State) (b : BufId) : (s.loseBuf b).ofdm = s.ofdm := rfl
@[simp] theorem State.loseBuf_frame (s : State) (b : BufId) : (s.loseBuf b).frame = s.frame := rfl
@[simp] theorem State.loseBuf_scrState (s : State) (b : BufId) : (s.loseBuf b).scrState = s.scrState := rfl
@[simp] theorem State.loseBuf_encState (s : State) (b : BufId) : (s.loseBuf b).encState = s.encState := rfl
@[simp] theorem State.loseBuf_freeCount (s : State) (b : BufId) : (s.loseBuf b).freeCount = s.freeCount + 1 := rfl
@[simp] theorem State.loseBuf_pending (s : State) (b : BufId) : (s.loseBuf b).pending = s.pending := rfl
@[simp] theorem State.loseBuf_reply (s : State) (b : BufId) : (s.loseBuf b).reply = s.reply := rfl
@[simp] theorem State.loseBuf_cap (s : State) (b : BufId) (b' : BufId) : (s.loseBuf b).cap b' = s.cap b' := rfl

/-! ### `State.discardFrame` -/

@[simp] theorem State.discardFrame_psduMax (s : State) : s.discardFrame.psduMax = s.psduMax := rfl
@[simp] theorem State.discardFrame_status (s : State) : s.discardFrame.status = s.status := rfl
@[simp] theorem State.discardFrame_faultInfo (s : State) : s.discardFrame.faultInfo = s.faultInfo := rfl
@[simp] theorem State.discardFrame_ofdm (s : State) : s.discardFrame.ofdm = s.ofdm := rfl
@[simp] theorem State.discardFrame_frame (s : State) : s.discardFrame.frame = .none := rfl
@[simp] theorem State.discardFrame_scrState (s : State) : s.discardFrame.scrState = s.scrState := rfl
@[simp] theorem State.discardFrame_encState (s : State) : s.discardFrame.encState = s.encState := rfl
@[simp] theorem State.discardFrame_freeCount (s : State) : s.discardFrame.freeCount = s.freeCount := rfl
@[simp] theorem State.discardFrame_pending (s : State) : s.discardFrame.pending = s.pending := rfl
@[simp] theorem State.discardFrame_reply (s : State) : s.discardFrame.reply = s.reply := rfl
@[simp] theorem State.discardFrame_cap (s : State) (b' : BufId) : s.discardFrame.cap b' = s.cap b' := rfl

/-! ### `State.faultEntry` -/

@[simp] theorem State.faultEntry_psduMax (s : State) (c : FaultCause) (op stage : Byte) : (s.faultEntry c op stage).psduMax = s.psduMax := rfl
@[simp] theorem State.faultEntry_status (s : State) (c : FaultCause) (op stage : Byte) : (s.faultEntry c op stage).status = .ofFault c op stage := rfl
@[simp] theorem State.faultEntry_faultInfo (s : State) (c : FaultCause) (op stage : Byte) : (s.faultEntry c op stage).faultInfo = c.info := rfl
@[simp] theorem State.faultEntry_ofdm (s : State) (c : FaultCause) (op stage : Byte) : (s.faultEntry c op stage).ofdm = s.ofdm := rfl
@[simp] theorem State.faultEntry_frame (s : State) (c : FaultCause) (op stage : Byte) : (s.faultEntry c op stage).frame = s.frame := rfl
@[simp] theorem State.faultEntry_scrState (s : State) (c : FaultCause) (op stage : Byte) : (s.faultEntry c op stage).scrState = s.scrState := rfl
@[simp] theorem State.faultEntry_encState (s : State) (c : FaultCause) (op stage : Byte) : (s.faultEntry c op stage).encState = s.encState := rfl
@[simp] theorem State.faultEntry_freeCount (s : State) (c : FaultCause) (op stage : Byte) : (s.faultEntry c op stage).freeCount = s.freeCount := rfl
@[simp] theorem State.faultEntry_pending (s : State) (c : FaultCause) (op stage : Byte) : (s.faultEntry c op stage).pending = s.pending := rfl
@[simp] theorem State.faultEntry_reply (s : State) (c : FaultCause) (op stage : Byte) : (s.faultEntry c op stage).reply = s.reply := rfl
@[simp] theorem State.faultEntry_bufs (s : State) (c : FaultCause) (op stage : Byte) : (s.faultEntry c op stage).bufs = s.bufs := rfl
@[simp] theorem State.faultEntry_buf (s : State) (c : FaultCause) (op stage : Byte) (b' : BufId) : (s.faultEntry c op stage).buf b' = s.buf b' := rfl
@[simp] theorem State.faultEntry_len (s : State) (c : FaultCause) (op stage : Byte) (b' : BufId) : (s.faultEntry c op stage).len b' = s.len b' := rfl
@[simp] theorem State.faultEntry_cell (s : State) (c : FaultCause) (op stage : Byte) (b' : BufId) (i : Nat) : (s.faultEntry c op stage).cell b' i = s.cell b' i := rfl
@[simp] theorem State.faultEntry_bits (s : State) (c : FaultCause) (op stage : Byte) (b' : BufId) (k : Nat) : (s.faultEntry c op stage).bits b' k = s.bits b' k := rfl
@[simp] theorem State.faultEntry_cap (s : State) (c : FaultCause) (op stage : Byte) (b' : BufId) : (s.faultEntry c op stage).cap b' = s.cap b' := rfl

/-! ### `State.succeed` -/

@[simp] theorem State.succeed_psduMax (s : State) (op : Byte) : (s.succeed op).psduMax = s.psduMax := rfl
@[simp] theorem State.succeed_status (s : State) (op : Byte) : (s.succeed op).status = .ok op := rfl
@[simp] theorem State.succeed_faultInfo (s : State) (op : Byte) : (s.succeed op).faultInfo = 0 := rfl
@[simp] theorem State.succeed_ofdm (s : State) (op : Byte) : (s.succeed op).ofdm = s.ofdm := rfl
@[simp] theorem State.succeed_frame (s : State) (op : Byte) : (s.succeed op).frame = s.frame := rfl
@[simp] theorem State.succeed_scrState (s : State) (op : Byte) : (s.succeed op).scrState = s.scrState := rfl
@[simp] theorem State.succeed_encState (s : State) (op : Byte) : (s.succeed op).encState = s.encState := rfl
@[simp] theorem State.succeed_freeCount (s : State) (op : Byte) : (s.succeed op).freeCount = s.freeCount := rfl
@[simp] theorem State.succeed_pending (s : State) (op : Byte) : (s.succeed op).pending = s.pending := rfl
@[simp] theorem State.succeed_reply (s : State) (op : Byte) : (s.succeed op).reply = s.reply := rfl
@[simp] theorem State.succeed_bufs (s : State) (op : Byte) : (s.succeed op).bufs = s.bufs := rfl
@[simp] theorem State.succeed_buf (s : State) (op : Byte) (b' : BufId) : (s.succeed op).buf b' = s.buf b' := rfl
@[simp] theorem State.succeed_len (s : State) (op : Byte) (b' : BufId) : (s.succeed op).len b' = s.len b' := rfl
@[simp] theorem State.succeed_cell (s : State) (op : Byte) (b' : BufId) (i : Nat) : (s.succeed op).cell b' i = s.cell b' i := rfl
@[simp] theorem State.succeed_bits (s : State) (op : Byte) (b' : BufId) (k : Nat) : (s.succeed op).bits b' k = s.bits b' k := rfl
@[simp] theorem State.succeed_cap (s : State) (op : Byte) (b' : BufId) : (s.succeed op).cap b' = s.cap b' := rfl

/-! ### Buffers -/

@[simp] theorem Buffers.get_set (bs : Buffers) (b b' : BufId) (x : Buffer) :
    (bs.set b x).get b' = if b' = b then x else bs.get b' := by
  cases b <;> cases b' <;> rfl

@[simp] theorem Buffers.get_lost (e : Nat) (b : BufId) : (Buffers.lost e).get b = .lost e := by
  cases b <;> rfl

theorem Buffers.ext_get {x y : Buffers} (h : ∀ b, x.get b = y.get b) : x = y := by
  obtain ⟨p, d, s, e, u, i, m⟩ := x
  obtain ⟨p', d', s', e', u', i', m'⟩ := y
  have h0 := h .psdu
  have h1 := h .data
  have h2 := h .scr
  have h3 := h .enc
  have h4 := h .pun
  have h5 := h .int
  have h6 := h .sym
  simp only [Buffers.get] at h0 h1 h2 h3 h4 h5 h6
  subst h0 h1 h2 h3 h4 h5 h6
  rfl

@[simp] theorem State.setBuf_buf (s : State) (b b' : BufId) (x : Buffer) :
    (s.setBuf b x).buf b' = if b' = b then x else s.buf b' := Buffers.get_set _ _ _ _

theorem State.setLen_buf (s : State) (b b' : BufId) (n : Nat) :
    (s.setLen b n).buf b' = if b' = b then { s.buf b with len := BitVec.ofNat 32 n } else s.buf b' := by
  simp [State.setLen]

theorem State.writeCells_buf (s : State) (b b' : BufId) (ws : List Host.Cell) :
    (s.writeCells b ws).buf b' =
      if b' = b then { s.buf b with cells := (s.buf b).cells.writeAll ws } else s.buf b' := by
  simp [State.writeCells]

theorem State.loseBuf_buf (s : State) (b b' : BufId) :
    (s.loseBuf b).buf b' = if b' = b then .lost s.freeCount else s.buf b' := by
  simp [State.loseBuf]

theorem State.clearStageLens_buf (s : State) (b : BufId) :
    s.clearStageLens.buf b = if b = .psdu then s.buf b else { s.buf b with len := 0 } := by
  cases b <;> rfl

theorem State.discardFrame_buf (s : State) (b : BufId) :
    s.discardFrame.buf b = if b = .psdu then s.buf b else { s.buf b with len := 0 } := by
  simp [State.discardFrame, State.clearStageLens_buf]

/-! ### LEN registers -/

@[simp] theorem Word.toNat_lt (w : Word) : w.toNat < 4294967296 := w.isLt

theorem State.setBuf_len (s : State) (b b' : BufId) (x : Buffer) :
    (s.setBuf b x).len b' = if b' = b then x.len.toNat else s.len b' := by
  by_cases h : b' = b <;> simp [State.len, h]

@[simp] theorem State.setLen_len (s : State) (b b' : BufId) (n : Nat) :
    (s.setLen b n).len b' = if b' = b then n % 2 ^ 32 else s.len b' := by
  by_cases h : b' = b <;> simp [State.len, State.setLen_buf, h]

@[simp] theorem State.writeCells_len (s : State) (b b' : BufId) (ws : List Host.Cell) :
    (s.writeCells b ws).len b' = s.len b' := by
  by_cases h : b' = b <;> simp [State.len, State.writeCells_buf, h]

@[simp] theorem State.loseBuf_len (s : State) (b b' : BufId) :
    (s.loseBuf b).len b' = if b' = b then 0 else s.len b' := by
  by_cases h : b' = b <;> simp [State.len, State.loseBuf_buf, Buffer.lost, h]

@[simp] theorem State.clearStageLens_len (s : State) (b : BufId) :
    s.clearStageLens.len b = if b = .psdu then s.len b else 0 := by
  by_cases h : b = .psdu <;> simp [State.len, State.clearStageLens_buf, h]

@[simp] theorem State.discardFrame_len (s : State) (b : BufId) :
    s.discardFrame.len b = if b = .psdu then s.len b else 0 := by
  simp [State.discardFrame]

/-! ### Cells -/

@[simp] theorem State.setLen_cell (s : State) (b b' : BufId) (n i : Nat) :
    (s.setLen b n).cell b' i = s.cell b' i := by
  by_cases h : b' = b <;> simp [State.cell, State.setLen_buf, Buffer.cell, h]

@[simp] theorem State.clearStageLens_cell (s : State) (b : BufId) (i : Nat) :
    s.clearStageLens.cell b i = s.cell b i := by
  by_cases h : b = .psdu <;> simp [State.cell, State.clearStageLens_buf, Buffer.cell, h]

@[simp] theorem State.discardFrame_cell (s : State) (b : BufId) (i : Nat) :
    s.discardFrame.cell b i = s.cell b i := by
  simp [State.discardFrame]

theorem State.loseBuf_cell_of_ne (s : State) {b b' : BufId} (h : b' ≠ b) (i : Nat) :
    (s.loseBuf b).cell b' i = s.cell b' i := by
  simp [State.cell, State.loseBuf_buf, h]

theorem State.writeCells_cell_of_ne (s : State) {b b' : BufId} (h : b' ≠ b) (ws : List Host.Cell) (i : Nat) :
    (s.writeCells b ws).cell b' i = s.cell b' i := by
  simp [State.cell, State.writeCells_buf, h]

@[simp] theorem State.setLen_bits (s : State) (b b' : BufId) (n k : Nat) :
    (s.setLen b n).bits b' k = s.bits b' k := by
  simp [State.bits]

@[simp] theorem State.clearStageLens_bits (s : State) (b : BufId) (k : Nat) :
    s.clearStageLens.bits b k = s.bits b k := by
  simp [State.bits]

/-! ### Reset -/

@[simp] theorem State.resetOf_buf (m : Config.PsduMax) (b : BufId) : (State.resetOf m).buf b = .lost 0 :=
  Buffers.get_lost 0 b

@[simp] theorem State.resetOf_len (m : Config.PsduMax) (b : BufId) : (State.resetOf m).len b = 0 := by
  simp [State.len, Buffer.lost]

end Sys2Proof.Machine
end

