-- ==== Sys2Proof/Laws/Memory.lean ====
section
/-! SUPPORT. The laws of a buffer's storage: read after write, other cells untouched, the canonical form kept, and what
a list of assignments leaves. -/

namespace Sys2Proof.Machine

/-! ### One write -/

@[simp] theorem Memory.get?_write_same (m : Memory) (i : Nat) (v : Byte) : (m.write i v).get? i = some v := by
  induction m with
  | nil => simp [Memory.write, Memory.get?]
  | cons c m ih =>
    obtain ⟨a, x⟩ := c
    simp only [Memory.write]
    split
    · simp [Memory.get?]
    · split
      · simp [Memory.get?]
      · rename_i h
        simp [Memory.get?, h, ih]

theorem Memory.get?_write_of_ne (m : Memory) {i j : Nat} (v : Byte) (h : j ≠ i) :
    (m.write i v).get? j = m.get? j := by
  induction m with
  | nil => simp [Memory.write, Memory.get?, h]
  | cons c m ih =>
    obtain ⟨a, x⟩ := c
    simp only [Memory.write]
    split
    · simp [Memory.get?, h]
    · split
      · rename_i h'
        simp [Memory.get?, ← h', h]
      · simp [Memory.get?, ih]

/-- A write stores at one index only: every index stored after it was stored before it or is the written one. -/
theorem Memory.mem_write {m : Memory} {i : Nat} {v : Byte} {c : Host.Cell} (h : c ∈ m.write i v) :
    c ∈ m ∨ c = (i, v) := by
  induction m with
  | nil => simpa [Memory.write] using h
  | cons d m ih =>
    obtain ⟨a, x⟩ := d
    simp only [Memory.write] at h
    split at h
    · simp only [List.mem_cons] at h ⊢
      tauto
    · split at h
      · simp only [List.mem_cons] at h ⊢
        tauto
      · simp only [List.mem_cons] at h ⊢
        rcases h with h | h
        · tauto
        · rcases ih h with h | h <;> tauto

/-- A write keeps the canonical form. -/
theorem Memory.wf_write {m : Memory} (h : m.wf) (i : Nat) (v : Byte) : (m.write i v).wf := by
  induction m with
  | nil => simp [Memory.write, Memory.wf]
  | cons d m ih =>
    obtain ⟨a, x⟩ := d
    have hm : Memory.wf m := (List.pairwise_cons.mp h).2
    have ha : ∀ c ∈ m, a < c.1 := (List.pairwise_cons.mp h).1
    simp only [Memory.write]
    split
    · rename_i hlt
      refine List.pairwise_cons.mpr ⟨?_, h⟩
      intro c hc
      rcases List.mem_cons.mp hc with rfl | hc
      · exact hlt
      · exact Nat.lt_trans hlt (ha c hc)
    · split
      · rename_i heq
        subst heq
        exact List.pairwise_cons.mpr ⟨ha, hm⟩
      · rename_i hlt hne
        refine List.pairwise_cons.mpr ⟨?_, ih hm⟩
        intro c hc
        rcases Memory.mem_write hc with hc | rfl
        · exact ha c hc
        · show a < i
          omega

/-! ### A list of writes -/

theorem Memory.writeAll_append (m : Memory) (ws vs : List Host.Cell) :
    m.writeAll (ws ++ vs) = (m.writeAll ws).writeAll vs := by
  induction ws generalizing m with
  | nil => rfl
  | cons c ws ih => exact ih _

/-- A cell that no assignment of the list names keeps what it held. -/
theorem Memory.get?_writeAll_of_notMem (m : Memory) {ws : List Host.Cell} {i : Nat} (h : i ∉ ws.map Prod.fst) :
    (m.writeAll ws).get? i = m.get? i := by
  induction ws generalizing m with
  | nil => rfl
  | cons c ws ih =>
    simp only [List.map_cons, List.mem_cons, not_or] at h
    simp only [Memory.writeAll]
    rw [ih _ h.2, Memory.get?_write_of_ne _ _ h.1]

/-- A cell that the list assigns, every index at most once, holds the value assigned. -/
theorem Memory.get?_writeAll_of_mem (m : Memory) {ws : List Host.Cell} (hn : (ws.map Prod.fst).Nodup) {i : Nat}
    {v : Byte} (h : (i, v) ∈ ws) : (m.writeAll ws).get? i = some v := by
  induction ws generalizing m with
  | nil => cases h
  | cons c ws ih =>
    simp only [List.map_cons, List.nodup_cons] at hn
    rcases List.mem_cons.mp h with rfl | h
    · simp only [Memory.writeAll]
      rw [Memory.get?_writeAll_of_notMem _ hn.1, Memory.get?_write_same]
    · exact ih _ hn.2 h

theorem Memory.mem_writeAll {m : Memory} {ws : List Host.Cell} {c : Host.Cell} (h : c ∈ m.writeAll ws) :
    c ∈ m ∨ c ∈ ws := by
  induction ws generalizing m with
  | nil => exact .inl h
  | cons d ws ih =>
    rcases ih h with h | h
    · rcases Memory.mem_write h with h | h
      · exact .inl h
      · exact .inr (by simp [h])
    · exact .inr (List.mem_cons_of_mem _ h)

/-- A list of writes keeps the canonical form. -/
theorem Memory.wf_writeAll {m : Memory} (h : m.wf) (ws : List Host.Cell) : (m.writeAll ws).wf := by
  induction ws generalizing m with
  | nil => exact h
  | cons c ws ih => exact ih (Memory.wf_write h c.1 c.2)

/-! ### Assignments to consecutive cells -/

theorem numbered_map_fst (k : Nat) (vs : List Byte) : (numbered k vs).map Prod.fst = List.range' k vs.length := by
  induction vs generalizing k with
  | nil => rfl
  | cons v vs ih => simp [numbered, ih, List.range'_succ]

theorem mem_numbered {k : Nat} {vs : List Byte} {i : Nat} {v : Byte} :
    (i, v) ∈ numbered k vs ↔ k ≤ i ∧ vs[i - k]? = some v := by
  induction vs generalizing k with
  | nil => simp [numbered]
  | cons w vs ih =>
    simp only [numbered, List.mem_cons, Prod.mk.injEq, ih]
    constructor
    · rintro (⟨rfl, rfl⟩ | ⟨h, hv⟩)
      · simp
      · refine ⟨by omega, ?_⟩
        rw [show i - k = (i - (k + 1)) + 1 by omega]
        simpa using hv
    · rintro ⟨h, hv⟩
      by_cases hik : i = k
      · subst hik
        left
        simpa using hv.symm
      · right
        refine ⟨by omega, ?_⟩
        rw [show i - k = (i - (k + 1)) + 1 by omega] at hv
        simpa using hv

/-- What consecutive assignments from cell `k` leave in each cell. -/
theorem Memory.get?_writeAll_numbered (m : Memory) (k : Nat) (vs : List Byte) (i : Nat) :
    (m.writeAll (numbered k vs)).get? i = if k ≤ i ∧ i < k + vs.length then vs[i - k]? else m.get? i := by
  split
  · rename_i h
    have hlt : i - k < vs.length := by omega
    rw [List.getElem?_eq_getElem hlt]
    refine Memory.get?_writeAll_of_mem m ?_ (mem_numbered.mpr ⟨h.1, List.getElem?_eq_getElem hlt⟩)
    rw [numbered_map_fst]
    exact List.nodup_range'
  · rename_i h
    refine Memory.get?_writeAll_of_notMem m ?_
    rw [numbered_map_fst, List.mem_range'_1]
    omega

/-! ### Cells of the state -/

/-- Read after write, all cases: what `writeCells` with consecutive assignments leaves in each cell of each buffer. -/
theorem State.writeCells_numbered_cell (s : State) (b b' : BufId) (k : Nat) (vs : List Byte) (i : Nat) :
    (s.writeCells b (numbered k vs)).cell b' i =
      if b' = b ∧ k ≤ i ∧ i < k + vs.length then vs.getD (i - k) 0 else s.cell b' i := by
  by_cases hb : b' = b
  · subst hb
    simp only [State.cell, State.writeCells_buf, Buffer.cell, if_true, true_and, Memory.get?_writeAll_numbered]
    split
    · rename_i h
      have hlt : i - k < vs.length := by omega
      simp [hlt]
    · rfl
  · simp [State.writeCells_cell_of_ne s hb, hb]

/-- A cell assigned by the list, every index at most once, reads as assigned. -/
theorem State.writeCells_cell_of_mem (s : State) (b : BufId) {ws : List Host.Cell} (hn : (ws.map Prod.fst).Nodup)
    {i : Nat} {v : Byte} (h : (i, v) ∈ ws) : (s.writeCells b ws).cell b i = v := by
  simp [State.cell, State.writeCells_buf, Buffer.cell, Memory.get?_writeAll_of_mem _ hn h]

/-- A cell the list does not assign reads as before. -/
theorem State.writeCells_cell_of_notMem (s : State) (b b' : BufId) {ws : List Host.Cell} {i : Nat}
    (h : i ∉ ws.map Prod.fst) : (s.writeCells b ws).cell b' i = s.cell b' i := by
  by_cases hb : b' = b
  · subst hb
    simp [State.cell, State.writeCells_buf, Buffer.cell, Memory.get?_writeAll_of_notMem _ h]
  · exact State.writeCells_cell_of_ne s hb ws i

/-- One host write: the cell holds the value, every other cell of every buffer is as before. -/
theorem State.writeCells_single_cell (s : State) (b b' : BufId) (i j : Nat) (v : Byte) :
    (s.writeCells b [(i, v)]).cell b' j = if b' = b ∧ j = i then v else s.cell b' j := by
  have h := State.writeCells_numbered_cell s b b' i [v] j
  simp only [numbered] at h
  rw [h]
  by_cases hj : j = i
  · subst hj; simp
  · rw [if_neg (by simp only [List.length_singleton]; omega), if_neg (by tauto)]

/-- The buffers' canonical form is kept by a list of assignments. -/
theorem State.writeCells_wf {s : State} (h : ∀ b, (s.buf b).cells.wf) (b b' : BufId) (ws : List Host.Cell) :
    ((s.writeCells b ws).buf b').cells.wf := by
  rw [State.writeCells_buf]
  split
  · exact Memory.wf_writeAll (h b) ws
  · exact h b'

/-- A lost buffer is in canonical form, and so is every buffer after reset. -/
theorem Buffer.lost_wf (e : Nat) : (Buffer.lost e).cells.wf := List.Pairwise.nil

theorem State.resetOf_wf (m : Config.PsduMax) (b : BufId) : ((State.resetOf m).buf b).cells.wf := by
  simp [Buffer.lost]

theorem State.reset_wf (b : BufId) : (State.reset.buf b).cells.wf := State.resetOf_wf _ b

end Sys2Proof.Machine
end

