-- ==== Sys2Proof/Laws/Stages.lean ====
section
/-! SUPPORT. What the shared operations of the meanings can do, said once: the tests, the end of a stage, the chain, the
report of a command. -/

namespace Sys2Proof.Machine

/-! ### The tests -/

@[simp] theorem State.needFrame_eq_none {s : State} : s.needFrame = none ↔ s.frame.valid = true := by
  unfold State.needFrame; split <;> simp_all

theorem State.needFrame_eq_some {s : State} {c : FaultCause} :
    s.needFrame = some c ↔ s.frame.valid = false ∧ c = .noParams := by
  unfold State.needFrame; (split <;> simp_all); exact eq_comm

@[simp] theorem State.needLen_eq_none {s : State} {b : BufId} {n : Nat} : s.needLen b n = none ↔ s.len b = n := by
  unfold State.needLen; split <;> simp_all

theorem State.needLen_eq_some {s : State} {b : BufId} {n : Nat} {c : FaultCause} :
    s.needLen b n = some c ↔ s.len b ≠ n ∧ c = .inputLength b := by
  unfold State.needLen; (split <;> simp_all); exact eq_comm

@[simp] theorem needSeed_eq_none {seed : Nat} : needSeed seed = none ↔ seed ≤ 127 := by
  unfold needSeed; split <;> simp_all

theorem needSeed_eq_some {seed : Nat} {c : FaultCause} : needSeed seed = some c ↔ 127 < seed ∧ c = .seedRange := by
  unfold needSeed; (split <;> simp_all); exact eq_comm

@[simp] theorem State.needGeometry_eq_none {s : State} :
    s.needGeometry = none ↔ ilvValid s.ofdm.nCbps.toNat (stride s.ofdm.avgBpsc.toNat) = true := by
  unfold State.needGeometry; split <;> simp_all

theorem State.needGeometry_eq_some {s : State} {c : FaultCause} :
    s.needGeometry = some c ↔
      ilvValid s.ofdm.nCbps.toNat (stride s.ofdm.avgBpsc.toNat) = false ∧ c = .ilvGeometry := by
  unfold State.needGeometry; (split <;> simp_all); exact eq_comm

@[simp] theorem State.needBits_eq_none {s : State} {b : BufId} {n : Nat} : s.needBits b n = none ↔ IsBits s b n := by
  simp [State.needBits, IsBits]

/-- The CONTRACT test reports the lowest offending cell. -/
theorem State.needBits_eq_some {s : State} {b : BufId} {n : Nat} {c : FaultCause} :
    s.needBits b n = some c ↔
      ∃ i < n, 1 < (s.cell b i).toNat ∧ (∀ j < i, (s.cell b j).toNat ≤ 1) ∧ c = .bitValue i := by
  simp only [State.needBits, Option.map_eq_some_iff, List.find?_range_eq_some, decide_eq_true_eq,
    List.mem_range, Bool.not_eq_true', decide_eq_false_iff_not, Nat.not_lt]
  constructor
  · rintro ⟨i, ⟨h1, h2, h3⟩, rfl⟩
    exact ⟨i, h2, h1, h3, rfl⟩
  · rintro ⟨i, h2, h1, h3, rfl⟩
    exact ⟨i, ⟨h1, h2, h3⟩, rfl⟩

/-! ### Stages and chains -/

@[simp] theorem runStage_none (g : Byte) (a c : State) : runStage g none a c = .done c := rfl

@[simp] theorem runStage_some (g : Byte) (f : FaultCause) (a c : State) :
    runStage g (some f) a c = .raised g f a := rfl

/-- Everything a stage can do: it completes with no failing test, or raises the first failing one. -/
theorem runStage_cases (g : Byte) (t : Option FaultCause) (a c : State) :
    (t = none ∧ runStage g t a c = .done c) ∨ ∃ f, t = some f ∧ runStage g t a c = .raised g f a := by
  cases t with
  | none => exact .inl ⟨rfl, rfl⟩
  | some f => exact .inr ⟨f, rfl, rfl⟩

@[simp] theorem StageResult.andThen_done (s : State) (f : State → StageResult) :
    (StageResult.done s).andThen f = f s := rfl

@[simp] theorem StageResult.andThen_raised (g : Byte) (c : FaultCause) (s : State) (f : State → StageResult) :
    (StageResult.raised g c s).andThen f = .raised g c s := rfl

/-- A chain completes exactly when each of its stages does. -/
theorem StageResult.andThen_eq_done {r : StageResult} {f : State → StageResult} {t : State} :
    r.andThen f = .done t ↔ ∃ u, r = .done u ∧ f u = .done t := by
  cases r <;> simp

/-- A chain raises what its first part raises, or what the rest raises after the first part completed. -/
theorem StageResult.andThen_eq_raised {r : StageResult} {f : State → StageResult} {g : Byte} {c : FaultCause}
    {t : State} :
    r.andThen f = .raised g c t ↔ r = .raised g c t ∨ ∃ u, r = .done u ∧ f u = .raised g c t := by
  cases r <;> simp

@[simp] theorem finish_done (op : Byte) (s : State) : finish op (.done s) = .next (s.succeed op) := rfl

@[simp] theorem finish_raised (op g : Byte) (c : FaultCause) (s : State) :
    finish op (.raised g c s) = .next (s.faultEntry c op g) := rfl

/-- Everything the end of a command can be: a next state, with the report of a success or of a fault. -/
theorem finish_cases (op : Byte) (r : StageResult) :
    (∃ s, r = .done s ∧ finish op r = .next (s.succeed op)) ∨
      ∃ g c s, r = .raised g c s ∧ finish op r = .next (s.faultEntry c op g) := by
  cases r with
  | done s => exact .inl ⟨s, rfl, rfl⟩
  | raised g c s => exact .inr ⟨g, c, s, rfl, rfl⟩

/-! ### Reading registers by number -/

/-- The LEN register of a buffer is register 16 + id. -/
theorem State.regRead_len (s : State) (b : BufId) : s.regRead (16 + b.id) = some (s.buf b).len := by
  cases b <;> rfl

/-- There is no register above 22. -/
theorem State.regRead_eq_none {s : State} {n : Nat} : s.regRead n = none ↔ 22 < n := by
  constructor
  · intro h
    by_contra hn
    have : n ≤ 22 := by omega
    interval_cases n <;> simp [State.regRead] at h
  · intro h
    obtain ⟨k, rfl⟩ : ∃ k, n = k + 23 := ⟨n - 23, by omega⟩
    rfl

/-- Two states read the same in every register but those of `ns` as soon as they agree in the fields behind them. -/
theorem sameRegsBut_of_fields {ns : List Nat} {s t : State}
    (h0 : 0 ∈ ns ∨ t.status = s.status) (h1 : 1 ∈ ns ∨ t.faultInfo = s.faultInfo)
    (h2 : (∀ n, 2 ≤ n → n ≤ 7 → n ∈ ns) ∨ t.ofdm = s.ofdm) (h2' : 2 ∈ ns ∨ t.ofdm.valid = s.ofdm.valid)
    (h3 : (∀ n, 8 ≤ n → n ≤ 12 → n ∈ ns) ∨ t.frame = s.frame) (h3' : 2 ∈ ns ∨ t.frame.valid = s.frame.valid)
    (h4 : 13 ∈ ns ∨ t.scrState = s.scrState) (h5 : 14 ∈ ns ∨ t.encState = s.encState)
    (h6 : ∀ b : BufId, 16 + b.id ∈ ns ∨ (t.buf b).len = (s.buf b).len) : SameRegsBut ns s t := by
  intro n hn
  by_cases hbig : 22 < n
  · rw [State.regRead_eq_none.mpr hbig, State.regRead_eq_none.mpr hbig]
  · have hle : n ≤ 22 := by omega
    have hl : ∀ b : BufId, n = 16 + b.id → t.regRead n = s.regRead n := by
      intro b hb
      subst hb
      rw [State.regRead_len, State.regRead_len]
      rcases h6 b with h | h
      · exact absurd h hn
      · rw [h]
    rcases Nat.lt_or_ge n 16 with hlt | hge
    · have hof : 3 ≤ n → n ≤ 7 → t.ofdm = s.ofdm := by
        intro ha hb
        rcases h2 with h | h
        · exact absurd (h n (by omega) hb) hn
        · exact h
      have hfr : 8 ≤ n → n ≤ 12 → t.frame = s.frame := by
        intro ha hb
        rcases h3 with h | h
        · exact absurd (h n ha hb) hn
        · exact h
      interval_cases n
      · simp_all [State.regRead]
      · simp_all [State.regRead]
      · simp_all [State.regRead]
      · simp only [State.regRead, hof (by norm_num) (by norm_num)]
      · simp only [State.regRead, hof (by norm_num) (by norm_num)]
      · simp only [State.regRead, hof (by norm_num) (by norm_num)]
      · simp only [State.regRead, hof (by norm_num) (by norm_num)]
      · simp only [State.regRead, hof (by norm_num) (by norm_num)]
      · simp only [State.regRead, hfr (by norm_num) (by norm_num)]
      · simp only [State.regRead, hfr (by norm_num) (by norm_num)]
      · simp only [State.regRead, hfr (by norm_num) (by norm_num)]
      · simp only [State.regRead, hfr (by norm_num) (by norm_num)]
      · simp only [State.regRead, hfr (by norm_num) (by norm_num)]
      · simp_all [State.regRead]
      · simp_all [State.regRead]
      · rfl
    · obtain ⟨b, hb⟩ : ∃ b : BufId, n = 16 + b.id := by
        interval_cases n
        exacts [⟨.psdu, rfl⟩, ⟨.data, rfl⟩, ⟨.scr, rfl⟩, ⟨.enc, rfl⟩, ⟨.pun, rfl⟩, ⟨.int, rfl⟩, ⟨.sym, rfl⟩]
      exact hl b hb

/-! ### Cells as bits -/

@[simp] theorem State.bits_length (s : State) (b : BufId) (n : Nat) : (s.bits b n).length = n := by
  simp [State.bits]

theorem State.bits_getElem? (s : State) (b : BufId) {n i : Nat} (h : i < n) :
    (s.bits b n)[i]? = some ((s.cell b i).getLsbD 0) := by
  simp [State.bits, h]

theorem cell_le_one_cases {v : Byte} (h : v.toNat ≤ 1) : v = 0 ∨ v = 1 := by
  rcases Nat.le_one_iff_eq_zero_or_eq_one.mp h with h | h
  · exact .inl (BitVec.eq_of_toNat_eq (by simpa using h))
  · exact .inr (BitVec.eq_of_toNat_eq (by simpa using h))

/-- Where a buffer holds bits, bit 0 of a cell is the bit, and the cell is the bit. -/
theorem IsBits.getLsbD {s : State} {b : BufId} {n : Nat} (h : IsBits s b n) {i : Nat} (hi : i < n) :
    (s.cell b i).getLsbD 0 = bitAt s b i := by
  rcases cell_le_one_cases (h i hi) with h | h <;> simp [bitAt, h]

theorem IsBits.bits_getElem? {s : State} {b : BufId} {n : Nat} (h : IsBits s b n) {i : Nat} (hi : i < n) :
    (s.bits b n)[i]? = some (bitAt s b i) := by
  rw [State.bits_getElem? s b hi, h.getLsbD hi]

theorem IsBits.cell_eq {s : State} {b : BufId} {n : Nat} (h : IsBits s b n) {i : Nat} (hi : i < n) :
    s.cell b i = bitCell (bitAt s b i) := by
  rcases cell_le_one_cases (h i hi) with h | h <;> simp [bitAt, h, bitCell]

@[simp] theorem bitCell_toNat (x : Bool) : (bitCell x).toNat = x.toNat := by cases x <;> rfl

theorem bitCell_le_one (x : Bool) : (bitCell x).toNat ≤ 1 := by cases x <;> decide

@[simp] theorem bitCell_eq_one {x : Bool} : (bitCell x = 1) ↔ x = true := by cases x <;> decide

end Sys2Proof.Machine
end

