-- ==== Sys2Proof/Laws/Params.lean ====
section
/-! SUPPORT. The arithmetic of the two parameter commands: the ceiling division, the resource-block codes, the derived
registers as numbers, the capacities (spec/00_scope.md R7, R12, spec/40_parameters.md R90 to R94). -/

namespace Sys2Proof.Machine

theorem le_ceilDiv_mul (a : Nat) {b : Nat} (hb : 0 < b) : a ≤ ceilDiv a b * b := by
  have h := Nat.div_add_mod (a + b - 1) b
  have h2 := Nat.mod_lt (a + b - 1) hb
  unfold ceilDiv
  rw [Nat.mul_comm]
  omega

theorem ceilDiv_mul_lt (a : Nat) {b : Nat} (hb : 0 < b) : ceilDiv a b * b < a + b := by
  have h := Nat.div_mul_le_self (a + b - 1) b
  unfold ceilDiv
  omega

theorem ceilDiv_anti (a : Nat) {b c : Nat} (hb : 0 < b) (h : b ≤ c) : ceilDiv a c ≤ ceilDiv a b := by
  unfold ceilDiv
  have hc : 0 < c := by omega
  rw [Nat.div_le_iff_le_mul_add_pred hc]
  have h1 : a + b - 1 < b * ((a + b - 1) / b + 1) := Nat.lt_mul_div_succ _ hb
  set q := (a + b - 1) / b
  have h2 : b * q ≤ c * q := Nat.mul_le_mul_right _ h
  rw [Nat.mul_add] at h1
  omega

theorem ceilDiv_mono {a b : Nat} (c : Nat) (h : a ≤ b) : ceilDiv a c ≤ ceilDiv b c :=
  Nat.div_le_div_right (by omega)

/-- Every capacity fits a register (00_scope.md R7). -/
theorem State.cap_lt (s : State) (b : BufId) : s.cap b < 2 ^ 32 := by
  have h := s.psduMax.isLt
  have h2 := ceilDiv_mul_lt (8 * s.psduMax.val + 22) (b := 24) (by norm_num)
  cases b <;> simp only [State.cap, capacity, capData] <;> omega

theorem costOfCode_mem {c : Nat} (h : c ≤ 3) : costOfCode c ∈ [1, 2, 4, 6] := by
  interval_cases c <;> decide

theorem RbEncoding.ofCode_eq_none {c : Nat} : RbEncoding.ofCode c = none ↔ 3 < c := by
  constructor
  · intro h
    by_contra hc
    have : c ≤ 3 := by omega
    interval_cases c <;> simp [RbEncoding.ofCode] at h
  · intro h
    obtain ⟨k, rfl⟩ : ∃ k, c = k + 4 := ⟨c - 4, by omega⟩
    rfl

theorem RbEncoding.ofCode_eq_some {c : Nat} {e : RbEncoding} (h : RbEncoding.ofCode c = some e) :
    c ≤ 3 ∧ e.cost = costOfCode c := by
  have hc : c ≤ 3 := by
    by_contra hc
    rw [RbEncoding.ofCode_eq_none.mpr (by omega)] at h
    cases h
  refine ⟨hc, ?_⟩
  interval_cases c <;> simp [RbEncoding.ofCode] at h <;> subst h <;> rfl

/-- All that the four codes can be: an assignment, or the lowest block whose code is above 3. -/
theorem RbAssignment.ofCodes_eq_ok {c0 c1 c2 c3 : Nat} {a : RbAssignment}
    (h : RbAssignment.ofCodes c0 c1 c2 c3 = .ok a) :
    (c0 ≤ 3 ∧ c1 ≤ 3 ∧ c2 ≤ 3 ∧ c3 ≤ 3) ∧ a.rb0.cost = costOfCode c0 ∧ a.rb1.cost = costOfCode c1 ∧
      a.rb2.cost = costOfCode c2 ∧ a.rb3.cost = costOfCode c3 := by
  unfold RbAssignment.ofCodes at h
  split at h
  · cases h
  · rename_i e0 h0
    split at h
    · cases h
    · rename_i e1 h1
      split at h
      · cases h
      · rename_i e2 h2
        split at h
        · cases h
        · rename_i e3 h3
          cases h
          obtain ⟨l0, k0⟩ := RbEncoding.ofCode_eq_some h0
          obtain ⟨l1, k1⟩ := RbEncoding.ofCode_eq_some h1
          obtain ⟨l2, k2⟩ := RbEncoding.ofCode_eq_some h2
          obtain ⟨l3, k3⟩ := RbEncoding.ofCode_eq_some h3
          exact ⟨⟨l0, l1, l2, l3⟩, k0, k1, k2, k3⟩

theorem RbAssignment.ofCodes_ok_of_le {c0 c1 c2 c3 : Nat} (h0 : c0 ≤ 3) (h1 : c1 ≤ 3) (h2 : c2 ≤ 3) (h3 : c3 ≤ 3) :
    ∃ a, RbAssignment.ofCodes c0 c1 c2 c3 = .ok a := by
  interval_cases c0 <;> interval_cases c1 <;> interval_cases c2 <;> interval_cases c3 <;> exact ⟨_, rfl⟩

theorem RbAssignment.ofCodes_eq_error {c0 c1 c2 c3 b : Nat} :
    RbAssignment.ofCodes c0 c1 c2 c3 = .error b ↔
      b < 4 ∧ 3 < [c0, c1, c2, c3].getD b 0 ∧ ∀ k < b, [c0, c1, c2, c3].getD k 0 ≤ 3 := by
  have key : ∀ c, (RbEncoding.ofCode c = none ∧ 3 < c) ∨ ∃ e, RbEncoding.ofCode c = some e ∧ c ≤ 3 := by
    intro c
    cases h : RbEncoding.ofCode c with
    | none => exact .inl ⟨rfl, RbEncoding.ofCode_eq_none.mp h⟩
    | some e => exact .inr ⟨e, rfl, (RbEncoding.ofCode_eq_some h).1⟩
  constructor
  · intro h
    rcases key c0 with ⟨h0, l0⟩ | ⟨e0, h0, l0⟩ <;> rcases key c1 with ⟨h1, l1⟩ | ⟨e1, h1, l1⟩ <;>
      rcases key c2 with ⟨h2, l2⟩ | ⟨e2, h2, l2⟩ <;> rcases key c3 with ⟨h3, l3⟩ | ⟨e3, h3, l3⟩ <;>
      simp only [RbAssignment.ofCodes, h0, h1, h2, h3, Except.error.injEq, reduceCtorEq] at h <;> subst h <;>
      refine ⟨by norm_num, by simpa using ‹_›, ?_⟩ <;> intro k hk <;> interval_cases k <;> simpa using ‹_›
  · rintro ⟨hb, h, hk⟩
    interval_cases b
    · rcases key c0 with ⟨h0, l0⟩ | ⟨e0, h0, l0⟩
      · simp [RbAssignment.ofCodes, h0]
      · simp at h; omega
    · have := hk 0 (by norm_num)
      rcases key c0 with ⟨h0, l0⟩ | ⟨e0, h0, l0⟩ <;> rcases key c1 with ⟨h1, l1⟩ | ⟨e1, h1, l1⟩ <;>
      simp [RbAssignment.ofCodes, h0, h1] at * <;> omega
    · have := hk 0 (by norm_num)
      have := hk 1 (by norm_num)
      rcases key c0 with ⟨h0, l0⟩ | ⟨e0, h0, l0⟩ <;> rcases key c1 with ⟨h1, l1⟩ | ⟨e1, h1, l1⟩ <;> rcases key c2 with ⟨h2, l2⟩ | ⟨e2, h2, l2⟩ <;>
      simp [RbAssignment.ofCodes, h0, h1, h2] at * <;> omega
    · have := hk 0 (by norm_num)
      have := hk 1 (by norm_num)
      have := hk 2 (by norm_num)
      rcases key c0 with ⟨h0, l0⟩ | ⟨e0, h0, l0⟩ <;> rcases key c1 with ⟨h1, l1⟩ | ⟨e1, h1, l1⟩ <;> rcases key c2 with ⟨h2, l2⟩ | ⟨e2, h2, l2⟩ <;> rcases key c3 with ⟨h3, l3⟩ | ⟨e3, h3, l3⟩ <;>
      simp [RbAssignment.ofCodes, h0, h1, h2, h3] at * <;> omega

/-- What OFDM_PARAM derives, as numbers (40_parameters.md R91). -/
theorem OfdmRegs.derive_toNat {c0 c1 c2 c3 : Nat} {a : RbAssignment} (h : RbAssignment.ofCodes c0 c1 c2 c3 = .ok a) :
    let r := OfdmRegs.derive c0 c1 c2 c3 a
    let t := costOfCode c0 + costOfCode c1 + costOfCode c2 + costOfCode c3
    r.valid = true ∧ (∀ k < 4, byteField r.oRb k = [c0, c1, c2, c3].getD k 0) ∧
      (∀ k < 4, byteField r.bpsc k = costOfCode ([c0, c1, c2, c3].getD k 0)) ∧
      r.avgBpsc.toNat = t / 4 ∧ r.nCbps.toNat = 12 * t ∧ r.nDbps.toNat = 6 * t := by
  obtain ⟨⟨l0, l1, l2, l3⟩, k0, k1, k2, k3⟩ := RbAssignment.ofCodes_eq_ok h
  have m0 : costOfCode c0 ≤ 6 := by interval_cases c0 <;> decide
  have m1 : costOfCode c1 ≤ 6 := by interval_cases c1 <;> decide
  have m2 : costOfCode c2 ≤ 6 := by interval_cases c2 <;> decide
  have m3 : costOfCode c3 ≤ 6 := by interval_cases c3 <;> decide
  obtain ⟨b0, b1, b2, b3⟩ := byteField_packBlocks (v0 := c0) (v1 := c1) (v2 := c2) (v3 := c3)
    (by omega) (by omega) (by omega) (by omega)
  obtain ⟨p0, p1, p2, p3⟩ := byteField_packBlocks (v0 := costOfCode c0) (v1 := costOfCode c1) (v2 := costOfCode c2)
    (v3 := costOfCode c3) (by omega) (by omega) (by omega) (by omega)
  refine ⟨rfl, ?_, ?_, ?_, ?_, ?_⟩
  · intro k hk
    interval_cases k <;> simp [OfdmRegs.derive, b0, b1, b2, b3]
  · intro k hk
    interval_cases k <;> simp [OfdmRegs.derive, k0, k1, k2, k3, p0, p1, p2, p3]
  all_goals
    simp only [OfdmRegs.derive, RbAssignment.total, k0, k1, k2, k3, scPerRb, BitVec.toNat_ofNat]
    omega

/-- Where an OfdmParam exists its block costs add up to one of the 19 totals of R92, and registers 5 to 7 follow. -/
theorem RegInv.total {s : State} (h : RegInv s) (hv : s.ofdm.valid = true) :
    ∃ t, ((4 ≤ t ∧ t ≤ 20) ∨ t = 22 ∨ t = 24) ∧ bpscSum s.ofdm.bpsc = t ∧ s.ofdm.nCbps.toNat = 12 * t ∧
      s.ofdm.nDbps.toNat = 6 * t ∧ s.ofdm.avgBpsc.toNat = t / 4 := by
  obtain ⟨h1, h2, h3, h4⟩ := h.ofdm hv
  refine ⟨bpscSum s.ofdm.bpsc, ?_, rfl, h1, by omega, h2⟩
  have hc := h.codes hv
  have m : ∀ k < 4, byteField s.ofdm.bpsc k = 1 ∨ byteField s.ofdm.bpsc k = 2 ∨ byteField s.ofdm.bpsc k = 4 ∨
      byteField s.ofdm.bpsc k = 6 := by
    intro k hk
    obtain ⟨l, e⟩ := hc k hk
    rw [e]
    simpa using costOfCode_mem l
  have m0 := m 0 (by norm_num)
  have m1 := m 1 (by norm_num)
  have m2 := m 2 (by norm_num)
  have m3 := m 3 (by norm_num)
  unfold bpscSum
  omega

/-- A FrameParam rests on an OfdmParam (10_state.md R25, R44 (a)). -/
theorem RegInv.ofdm_of_frame {s : State} (h : RegInv s) (hv : s.frame.valid = true) : s.ofdm.valid = true := by
  by_contra hc
  have := (h.noOfdm (by simpa using hc)).2
  simp [hv] at this

/-- What FRAME_PARAM derives, as numbers, for an N_DBPS of 24 to 144 (40_parameters.md R94; no overflow, R44). -/
theorem FrameRegs.derive_toNat {len d c : Nat} (hl : len < 2 ^ 27) (hd : 24 ≤ d ∧ d ≤ 144) (hc : c = 2 * d) :
    let r := FrameRegs.derive len (BitVec.ofNat 32 d).toNat (BitVec.ofNat 32 c).toNat
    let need := 16 + 8 * len + 6
    r.valid = true ∧ r.psduSize.toNat = len ∧ r.nSym.toNat = ceilDiv need d ∧ 1 ≤ ceilDiv need d ∧
      r.nDataBits.toNat = ceilDiv need d * d ∧ r.nDataBits.toNat = need + r.nPad.toNat ∧ r.nPad.toNat < d ∧
      r.nEncodedBits.toNat = ceilDiv need d * c := by
  have e1 : (BitVec.ofNat 32 d).toNat = d := by simp; omega
  have e2 : (BitVec.ofNat 32 c).toNat = c := by simp; omega
  rw [e1, e2]
  have hb : 0 < d := by omega
  have hn : needBitsOf len = 16 + 8 * len + 6 := rfl
  have h1 := le_ceilDiv_mul (16 + 8 * len + 6) hb
  have h2 := ceilDiv_mul_lt (16 + 8 * len + 6) hb
  have h3 : 1 ≤ ceilDiv (16 + 8 * len + 6) d := by
    by_contra h
    have : ceilDiv (16 + 8 * len + 6) d = 0 := by omega
    rw [this] at h1
    omega
  have h4 : ceilDiv (16 + 8 * len + 6) d ≤ ceilDiv (16 + 8 * len + 6) d * d := Nat.le_mul_of_pos_right _ hb
  have h5 : ceilDiv (16 + 8 * len + 6) d * c = 2 * (ceilDiv (16 + 8 * len + 6) d * d) := by
    rw [hc]; ring
  simp only [FrameRegs.derive, hn, BitVec.toNat_ofNat, h5]
  generalize ceilDiv (16 + 8 * len + 6) d * d = p at *
  generalize ceilDiv (16 + 8 * len + 6) d = q at *
  simp only [true_and]
  omega

/-- FRAME_PARAM in a state with an OfdmParam (R94). -/
theorem RegInv.frame_derive {s : State} (h : RegInv s) (hv : s.ofdm.valid = true) {len : Nat} (hl : len < 2 ^ 27) :
    let r := FrameRegs.derive len s.ofdm.nDbps.toNat s.ofdm.nCbps.toNat
    let d := s.ofdm.nDbps.toNat
    let need := 16 + 8 * len + 6
    r.valid = true ∧ r.psduSize.toNat = len ∧ r.nSym.toNat = ceilDiv need d ∧ 1 ≤ ceilDiv need d ∧
      r.nDataBits.toNat = ceilDiv need d * d ∧ r.nDataBits.toNat = need + r.nPad.toNat ∧ r.nPad.toNat < d ∧
      r.nEncodedBits.toNat = ceilDiv need d * s.ofdm.nCbps.toNat ∧
      r.nEncodedBits.toNat = 2 * r.nDataBits.toNat := by
  obtain ⟨t, ht, -, hc, hd, -⟩ := h.total hv
  have := FrameRegs.derive_toNat (len := len) (d := s.ofdm.nDbps.toNat) (c := s.ofdm.nCbps.toNat) hl (by omega) (by omega)
  simp only [BitVec.ofNat_toNat, BitVec.setWidth_eq] at this
  obtain ⟨a1, a2, a3, a4, a5, a6, a7, a8⟩ := this
  refine ⟨a1, a2, a3, a4, a5, a6, a7, a8, ?_⟩
  rw [a8, a5, hc, hd]; ring

/-- Where a FrameParam exists, the lengths the stages set fit their buffers (10_state.md R44 (e)). -/
theorem RegInv.lengths_le {s : State} (h : RegInv s) (hv : s.frame.valid = true) :
    s.frame.nDataBits.toNat ≤ capData s.psduMax.val ∧ s.frame.nEncodedBits.toNat ≤ 2 * capData s.psduMax.val ∧
      48 * s.frame.nSym.toNat ≤ s.cap .sym := by
  obtain ⟨h1, h2, h3, h4, h5, h6, h7, h8⟩ := h.frame hv
  obtain ⟨t, ht, -, hc, hd, -⟩ := h.total (h.ofdm_of_frame hv)
  have a := ceilDiv_anti (16 + 8 * s.frame.psduSize.toNat + 6) (b := 24) (c := s.ofdm.nDbps.toNat) (by norm_num) (by omega)
  have b := ceilDiv_mono (a := 16 + 8 * s.frame.psduSize.toNat + 6) (b := 8 * s.psduMax.val + 22) 24 (by omega)
  refine ⟨?_, ?_, ?_⟩
  · unfold capData; omega
  · unfold capData; omega
  · simp only [State.cap, capacity]; omega

end Sys2Proof.Machine
end

