-- ==== Sys2Proof/Laws/Framing.lean ====
section
/-! SUPPORT. The bits that ASSEMBLE lays out, and the scrambler with seed 0 (spec/41_assemble_scramble_tail.md R101, R107). -/

namespace Sys2Proof.Machine

@[simp] theorem State.payloadBits_length (s : State) (n : Nat) : (s.payloadBits n).length = 8 * n := by
  simp [State.payloadBits, List.length_flatMap, Nat.mul_comm]

/-- Payload bit 8 i + b is bit b of byte i (20_memory.md R53 (a)). -/
theorem State.payloadBits_getElem? (s : State) {n i b : Nat} (hi : i < n) (hb : b < 8) :
    (s.payloadBits n)[8 * i + b]? = some ((s.cell .psdu i).getLsbD b) := by
  induction n with
  | zero => omega
  | succ n ih =>
    have e : s.payloadBits (n + 1) =
        s.payloadBits n ++ (List.range 8).map (fun b => (s.cell .psdu n).getLsbD b) := by
      simp [State.payloadBits, List.range_succ]
    rw [e]
    rcases Nat.lt_or_ge i n with h | h
    · rw [List.getElem?_append_left (by simp; omega)]
      exact ih h
    · have : i = n := by omega
      subst this
      rw [List.getElem?_append_right (by simp), State.payloadBits_length]
      simp [hb]

/-- How many bits ASSEMBLE writes (41_assemble_scramble_tail.md R101). -/
theorem State.assembledBits_length (s : State) :
    s.assembledBits.length = max (16 + 8 * s.frame.psduSize.toNat) s.frame.nDataBits.toNat := by
  simp only [State.assembledBits, List.length_append, List.length_replicate, State.payloadBits_length, serviceBits]
  omega

/-- The service bits, the payload and the zeros after it (41_assemble_scramble_tail.md R101). -/
theorem State.assembledBits_getElem? (s : State) (i : Nat) (hi : i < s.frame.nDataBits.toNat) :
    s.assembledBits[i]? =
      if i < 16 then some false
      else if i < 16 + 8 * s.frame.psduSize.toNat then (s.payloadBits s.frame.psduSize.toNat)[i - 16]?
      else some false := by
  have hp := State.payloadBits_length s s.frame.psduSize.toNat
  rw [State.assembledBits]
  split
  · rw [List.append_assoc, List.getElem?_append_left (by simpa [serviceBits])]
    rw [List.getElem?_replicate, if_pos (by simpa [serviceBits])]
  · split
    · rw [List.append_assoc, List.getElem?_append_right (by simp [serviceBits]; omega),
        List.getElem?_append_left (by simp [serviceBits]; omega)]
      simp [serviceBits]
    · rw [List.getElem?_append_right (by simp [serviceBits]; omega), List.getElem?_replicate, if_pos]
      simp [serviceBits]
      omega

/-- Seed 0: the scrambler copies, and its state stays 0 (R107). -/
theorem scramble_zero (xs : List Bool) : scrambleOut 0 xs = xs ∧ scrambleEnd 0 xs = 0 := by
  induction xs with
  | nil => exact ⟨rfl, rfl⟩
  | cons x xs ih =>
    have h : shiftIn 0 (scrFeedback 0) = 0 := by decide
    have hf : scrFeedback 0 = false := rfl
    rw [scrambleOut, scrambleEnd, h, ih.1, ih.2, hf, Bool.false_xor]
    exact ⟨rfl, rfl⟩

/-- The scrambler's final state depends on how many bits it took, not on which (R103). -/
theorem scrambleEnd_congr (st : ShiftReg) {xs ys : List Bool} (h : xs.length = ys.length) :
    scrambleEnd st xs = scrambleEnd st ys := by
  induction xs generalizing st ys with
  | nil =>
    cases ys with
    | nil => rfl
    | cons => simp at h
  | cons x xs ih =>
    cases ys with
    | nil => simp at h
    | cons y ys => exact ih _ (by simpa using h)

end Sys2Proof.Machine
end

