-- ==== Sys2Proof/Laws/Interleaver.lean ====
section
/-! SUPPORT. The interleaver's permutation and the assignments of INTERLEAVE and DEINTERLEAVE (spec/43_interleaver.md
R125 to R131). -/

namespace Sys2Proof.Machine

theorem noneTwice_eq_true {xs : List Nat} : noneTwice xs = true ↔ xs.Nodup := by
  induction xs with
  | nil => simp [noneTwice]
  | cons x xs ih =>
    simp only [noneTwice, Bool.and_eq_true, ih, List.all_eq_true, bne_iff_ne, List.nodup_cons]
    constructor
    · rintro ⟨h, hn⟩
      exact ⟨fun hm => h x hm rfl, hn⟩
    · rintro ⟨h, hn⟩
      exact ⟨fun y hy e => h (e ▸ hy), hn⟩

/-- `IlvValid` says that dest keeps the range 0 to n - 1 and takes no value twice (43_interleaver.md R129). -/
theorem ilvValid_dest {n s : Nat} (h : ilvValid n s = true) :
    (∀ k < n, dest n s k < n) ∧ ∀ j < n, ∀ k < n, dest n s j = dest n s k → j = k := by
  simp only [ilvValid, Bool.and_eq_true, List.all_eq_true, List.mem_range, decide_eq_true_eq, noneTwice_eq_true] at h
  refine ⟨fun k hk => (h.1 k hk).2, ?_⟩
  intro j hj k hk e
  have := List.inj_on_of_nodup_map h.2
  exact this (List.mem_range.mpr hj) (List.mem_range.mpr hk) e

/-- A valid dest takes every value below n. -/
theorem ilvValid_surj {n s : Nat} (h : ilvValid n s = true) {v : Nat} (hv : v < n) : ∃ k < n, dest n s k = v := by
  obtain ⟨h1, h2⟩ := ilvValid_dest h
  obtain ⟨k, hk, e⟩ := Finset.surj_on_of_inj_on_of_card_le (s := Finset.range n) (t := Finset.range n)
    (fun k _ => dest n s k) (fun k hk => Finset.mem_range.mpr (h1 k (Finset.mem_range.mp hk)))
    (fun j k hj hk e => h2 j (Finset.mem_range.mp hj) k (Finset.mem_range.mp hk) e) (by simp) v
    (Finset.mem_range.mpr hv)
  exact ⟨k, Finset.mem_range.mp hk, e.symm⟩

/-- Every index below m n is a position of one block. -/
theorem block_index {n m i : Nat} (h : i < m * n) : i / n < m ∧ i % n < n ∧ i / n * n + i % n = i := by
  have hn : 0 < n := by
    rcases Nat.eq_zero_or_pos n with rfl | h'
    · simp at h
    · exact h'
  exact ⟨Nat.div_lt_of_lt_mul (by rwa [Nat.mul_comm]), Nat.mod_lt _ hn, Nat.div_add_mod' i n⟩

theorem block_lt {n m M k : Nat} (hm : m < M) (hk : k < n) : m * n + k < M * n := by
  have : (m + 1) * n ≤ M * n := Nat.mul_le_mul_right _ hm
  rw [Nat.add_mul, Nat.one_mul] at this
  omega

theorem block_inj {n m m' k k' : Nat} (hk : k < n) (hk' : k' < n) (h : m * n + k = m' * n + k') : m = m' ∧ k = k' := by
  have hn : 0 < n := by omega
  have h1 : (m * n + k) / n = (m' * n + k') / n := by rw [h]
  rw [Nat.mul_comm m, Nat.mul_comm m', Nat.mul_add_div hn, Nat.mul_add_div hn, Nat.div_eq_of_lt hk,
    Nat.div_eq_of_lt hk'] at h1
  have : m = m' := by omega
  subst this
  exact ⟨rfl, by omega⟩

theorem State.mem_blockPositions {s : State} {p : Nat × Nat} :
    p ∈ s.blockPositions ↔ p.1 < s.frame.nSym.toNat ∧ p.2 < s.ofdm.nCbps.toNat := by
  obtain ⟨m, k⟩ := p
  simp [State.blockPositions]

theorem State.blockPositions_nodup (s : State) : s.blockPositions.Nodup := by
  unfold State.blockPositions
  rw [List.nodup_flatMap]
  refine ⟨fun m _ => List.nodup_range.map (fun a b h => (Prod.mk.injEq .. ▸ h).2), ?_⟩
  refine List.nodup_range.imp ?_
  intro a b hab
  simp only [Function.onFun, List.disjoint_left, List.mem_map, not_exists, not_and]
  rintro x ⟨k, _, rfl⟩ k' _ h
  exact hab (Prod.mk.injEq .. ▸ h).1.symm

/-- INTERLEAVE assigns each cell below N_SYM n once (43_interleaver.md R130). -/
theorem State.interleaveWrites_nodup (s : State) : (s.interleaveWrites.map Prod.fst).Nodup := by
  rw [State.interleaveWrites, List.map_map]
  refine List.Nodup.map_on ?_ s.blockPositions_nodup
  rintro ⟨m, k⟩ hp ⟨m', k'⟩ hp' h
  rw [State.mem_blockPositions] at hp hp'
  obtain ⟨h1, h2⟩ := block_inj hp.2 hp'.2 h
  simp_all

theorem State.interleaveWrites_mem {s : State} {m k : Nat} (hm : m < s.frame.nSym.toNat) (hk : k < s.ofdm.nCbps.toNat) :
    (m * s.ofdm.nCbps.toNat + k, s.cell .pun (m * s.ofdm.nCbps.toNat + s.destOf k)) ∈ s.interleaveWrites :=
  List.mem_map.mpr ⟨(m, k), State.mem_blockPositions.mpr ⟨hm, hk⟩, rfl⟩

theorem State.interleaveWrites_lt {s : State} {c : Host.Cell} (h : c ∈ s.interleaveWrites) :
    c.1 < s.frame.nSym.toNat * s.ofdm.nCbps.toNat := by
  obtain ⟨p, hp, rfl⟩ := List.mem_map.mp h
  rw [State.mem_blockPositions] at hp
  exact block_lt hp.1 hp.2

/-- DEINTERLEAVE with a valid geometry assigns each cell below N_SYM n once (43_interleaver.md R131). -/
theorem State.deinterleaveWrites_nodup {s : State}
    (hg : ilvValid s.ofdm.nCbps.toNat (stride s.ofdm.avgBpsc.toNat) = true) :
    (s.deinterleaveWrites.map Prod.fst).Nodup := by
  obtain ⟨hlt, hinj⟩ := ilvValid_dest hg
  rw [State.deinterleaveWrites, List.map_map]
  refine List.Nodup.map_on ?_ s.blockPositions_nodup
  rintro ⟨m, k⟩ hp ⟨m', k'⟩ hp' h
  rw [State.mem_blockPositions] at hp hp'
  obtain ⟨h1, h2⟩ := block_inj (hlt k hp.2) (hlt k' hp'.2) h
  have := hinj k hp.2 k' hp'.2 h2
  simp_all

theorem State.deinterleaveWrites_mem {s : State} {m k : Nat} (hm : m < s.frame.nSym.toNat)
    (hk : k < s.ofdm.nCbps.toNat) :
    (m * s.ofdm.nCbps.toNat + s.destOf k, s.cell .pun (m * s.ofdm.nCbps.toNat + k)) ∈ s.deinterleaveWrites :=
  List.mem_map.mpr ⟨(m, k), State.mem_blockPositions.mpr ⟨hm, hk⟩, rfl⟩

theorem State.deinterleaveWrites_lt {s : State}
    (hg : ilvValid s.ofdm.nCbps.toNat (stride s.ofdm.avgBpsc.toNat) = true) {c : Host.Cell}
    (h : c ∈ s.deinterleaveWrites) : c.1 < s.frame.nSym.toNat * s.ofdm.nCbps.toNat := by
  obtain ⟨p, hp, rfl⟩ := List.mem_map.mp h
  rw [State.mem_blockPositions] at hp
  exact block_lt hp.1 ((ilvValid_dest hg).1 _ hp.2)

/-- Which geometries are valid, over the 19 totals of R92 (43_interleaver.md R129). -/
theorem ilvValid_total {t : Nat} (h : (4 ≤ t ∧ t ≤ 20) ∨ t = 22 ∨ t = 24) :
    ilvValid (12 * t) (stride (t / 4)) = true ↔ 12 * t ∈ validBlockSizes := by
  have h' : t ∈ [4, 5, 6, 7, 8, 9, 10, 11, 12, 13, 14, 15, 16, 17, 18, 19, 20, 22, 24] := by
    simp only [List.mem_cons, List.not_mem_nil, or_false]
    omega
  clear h
  revert t
  decide +kernel

/-- The geometry test of INTERLEAVE and DEINTERLEAVE passes exactly for the five valid block sizes. -/
theorem RegInv.ilvValid_iff {s : State} (h : RegInv s) (hv : s.ofdm.valid = true) :
    ilvValid s.ofdm.nCbps.toNat (stride s.ofdm.avgBpsc.toNat) = true ↔ s.ofdm.nCbps.toNat ∈ validBlockSizes := by
  obtain ⟨t, ht, -, hn, -, ha⟩ := h.total hv
  rw [hn, ha]
  exact ilvValid_total ht

end Sys2Proof.Machine
end

