-- ==== Sys2Proof/Laws/Splitter.lean ====
section
/-! SUPPORT. The splitter's depths, offsets and symbols as closed forms (spec/44_symbol_splitter.md R140 to R142). -/

namespace Sys2Proof.Machine

@[simp] theorem splitBits_length (ds : List Nat) (xs : List Bool) : (splitBits ds xs).length = ds.length := by
  induction ds generalizing xs with
  | nil => rfl
  | cons d ds ih => simp [splitBits, ih]

/-- Symbol j of the splitter packs the next `ds[j]` bits after those of the symbols before it (R141). -/
theorem splitBits_getElem? (ds : List Nat) (xs : List Bool) (j : Nat) (d : Nat) (h : ds[j]? = some d) :
    (splitBits ds xs)[j]? = some (packLsb ((xs.drop (ds.take j).sum).take d)) := by
  induction ds generalizing xs j with
  | nil => simp at h
  | cons e ds ih =>
    cases j with
    | zero =>
      simp only [List.getElem?_cons_zero, Option.some.injEq] at h
      subst h
      simp [splitBits]
    | succ j =>
      rw [List.getElem?_cons_succ] at h
      simp only [splitBits, List.getElem?_cons_succ, List.take_succ_cons, List.sum_cons]
      rw [ih _ _ h, List.drop_drop]

theorem packLsb_lt (xs : List Bool) : packLsb xs < 2 ^ xs.length := by
  induction xs with
  | nil => simp [packLsb]
  | cons b xs ih =>
    simp only [packLsb, List.length_cons, pow_succ]
    cases b <;> simp <;> omega

/-- A packed symbol as a sum: bit b has the weight 2^b (R141). -/
theorem packLsb_eq_sum (xs : List Bool) :
    packLsb xs = ((List.range xs.length).map fun b => (xs.getD b false).toNat * 2 ^ b).sum := by
  induction xs with
  | nil => rfl
  | cons x xs ih =>
    rw [packLsb, List.length_cons, List.range_succ_eq_map, List.map_cons, List.map_map, List.sum_cons, ih]
    congr 1
    · simp
    · rw [← List.sum_map_mul_left]
      congr 1
      apply List.map_congr_left
      intro b _
      simp [Function.comp, pow_succ]
      ring

@[simp] theorem symbolDepths_length (w : Word) : (symbolDepths w).length = 48 := by simp [symbolDepths, nSc]

theorem symbolDepths_getElem? (w : Word) {p : Nat} (h : p < 48) : (symbolDepths w)[p]? = some (byteField w (p / 12)) := by
  simp [symbolDepths, nSc, h, depth, scPerRb]

/-- The offsets are the running sums of the depths (44_symbol_splitter.md R140). -/
theorem symbolOffset_succ (w : Word) (p : Nat) :
    symbolOffset w (p + 1) = symbolOffset w p + byteField w (p / 12) := by
  unfold symbolOffset
  by_cases hr : p % 12 + 1 < 12
  · have h1 : (p + 1) / 12 = p / 12 := by omega
    have h2 : (p + 1) % 12 = p % 12 + 1 := by omega
    rw [h1, h2]
    ring
  · have h1 : (p + 1) / 12 = p / 12 + 1 := by omega
    have h2 : (p + 1) % 12 = 0 := by omega
    have h3 : p % 12 = 11 := by omega
    rw [h1, h2, h3, List.range_succ, List.map_append, List.sum_append]
    simp
    ring

/-- The depths before position p add up to off(p) (44_symbol_splitter.md R140). -/
theorem symbolDepths_take_sum (w : Word) {p : Nat} (h : p ≤ 48) : ((symbolDepths w).take p).sum = symbolOffset w p := by
  induction p with
  | zero => simp [symbolOffset]
  | succ p ih =>
    have hp : p < 48 := by omega
    rw [List.take_add_one, symbolDepths_getElem? w hp, List.sum_append, ih (by omega), symbolOffset_succ w p]
    simp

/-- The 48 depths of one symbol add up to 12 times the sum of the four block costs (44_symbol_splitter.md R142). -/
theorem symbolDepths_sum (w : Word) : (symbolDepths w).sum = 12 * bpscSum w := by
  have h := symbolDepths_take_sum w (p := 48) (le_refl _)
  rw [List.take_of_length_le (by simp)] at h
  rw [h]
  simp [symbolOffset, List.range_succ, bpscSum]
  ring

theorem frameDepths_succ (w : Word) (M : Nat) : frameDepths w (M + 1) = frameDepths w M ++ symbolDepths w := by
  simp [frameDepths, List.range_succ]

@[simp] theorem frameDepths_length (w : Word) (M : Nat) : (frameDepths w M).length = 48 * M := by
  induction M with
  | zero => rfl
  | succ M ih =>
    rw [frameDepths_succ, List.length_append, ih, symbolDepths_length]
    ring

theorem frameDepths_sum (w : Word) (M : Nat) : (frameDepths w M).sum = M * (12 * bpscSum w) := by
  induction M with
  | zero => simp [frameDepths]
  | succ M ih =>
    rw [frameDepths_succ, List.sum_append, ih, symbolDepths_sum]
    ring

/-- Position p of symbol m: its depth, and the number of bits consumed before it (R140, R142). -/
theorem frameDepths_getElem? (w : Word) {M m p : Nat} (hm : m < M) (hp : p < 48) :
    (frameDepths w M)[48 * m + p]? = some (byteField w (p / 12)) ∧
      ((frameDepths w M).take (48 * m + p)).sum = m * (12 * bpscSum w) + symbolOffset w p := by
  induction M with
  | zero => omega
  | succ M ih =>
    rw [frameDepths_succ]
    rcases Nat.lt_or_ge m M with h | h
    · have hl : 48 * m + p < (frameDepths w M).length := by
        rw [frameDepths_length]
        omega
      rw [List.getElem?_append_left hl, List.take_append_of_le_length (by omega)]
      exact ih h
    · have : m = M := by omega
      subst this
      rw [List.getElem?_append_right (by simp), List.take_append, List.take_of_length_le (by simp)]
      simp [symbolDepths_getElem? w hp, frameDepths_sum, symbolDepths_take_sum w (p := p) (by omega)]

@[simp] theorem splitSymbols_length (w : Word) (M : Nat) (xs : List Bool) : (splitSymbols w M xs).length = 48 * M := by
  rw [splitSymbols, splitBits_length, frameDepths_length]

/-- Symbol of OFDM symbol m at position p (44_symbol_splitter.md R141). -/
theorem splitSymbols_getElem? (w : Word) {M m p : Nat} (xs : List Bool) (hm : m < M) (hp : p < 48) :
    (splitSymbols w M xs)[48 * m + p]? =
      some (packLsb ((xs.drop (m * (12 * bpscSum w) + symbolOffset w p)).take (byteField w (p / 12)))) := by
  obtain ⟨h1, h2⟩ := frameDepths_getElem? w hm hp
  rw [splitSymbols, splitBits_getElem? _ _ _ _ h1, h2]

end Sys2Proof.Machine
end

