-- ==== Sys2Proof/Laws/Commands.lean ====
section
/-! SUPPORT. What a stage command can do, said once: the two states it can leave and its frame (spec/20_memory.md R64,
spec/60_exceptions.md R167, R170). -/

namespace Sys2Proof.Machine

/-- The state `t` differs from `s` in the buffer `dst`, in the shift register of `dst` (SCR or ENC), in the event counter
and in the report, and in nothing else. -/
structure OnlyDst (dst : BufId) (s t : State) : Prop where
  psduMax : t.psduMax = s.psduMax
  pending : t.pending = s.pending
  reply : t.reply = s.reply
  ofdm : t.ofdm = s.ofdm
  frame : t.frame = s.frame
  buf : ∀ b, b ≠ dst → t.buf b = s.buf b
  scrState : t.scrState = s.scrState ∨ dst = .scr
  encState : t.encState = s.encState ∨ dst = .enc

theorem OnlyDst.len {dst : BufId} {s t : State} (h : OnlyDst dst s t) {b : BufId} (hb : b ≠ dst) :
    t.len b = s.len b := by
  rw [State.len, h.buf b hb, State.len]

theorem OnlyDst.cell {dst : BufId} {s t : State} (h : OnlyDst dst s t) {b : BufId} (hb : b ≠ dst) (i : Nat) :
    t.cell b i = s.cell b i := by
  rw [State.cell, h.buf b hb, State.cell]

theorem OnlyDst.cells {dst : BufId} {s t : State} (h : OnlyDst dst s t) : SameCellsBut [dst] s t :=
  fun _ hb i => h.cell (by simpa using hb) i

theorem OnlyDst.outside {dst : BufId} {s t : State} (h : OnlyDst dst s t) : SameOutside s t :=
  ⟨h.psduMax, h.pending, h.reply⟩

theorem OnlyDst.regs {dst : BufId} {s t : State} (h : OnlyDst dst s t) :
    SameRegsBut [0, 1, 13, 14, 16 + dst.id] s t := by
  refine sameRegsBut_of_fields (by simp) (by simp) (.inr h.ofdm) (.inr (by rw [h.ofdm])) (.inr h.frame)
    (.inr (by rw [h.frame])) (by simp) (by simp) ?_
  intro b
  by_cases hb : b = dst
  · subst hb; simp
  · exact .inr (by rw [h.buf b hb])

theorem OnlyDst.succeed {dst : BufId} {s t : State} (h : OnlyDst dst s t) (op : Byte) : OnlyDst dst s (t.succeed op) :=
  ⟨h.psduMax, h.pending, h.reply, h.ofdm, h.frame, h.buf, h.scrState, h.encState⟩

theorem OnlyDst.faultEntry {dst : BufId} {s t : State} (h : OnlyDst dst s t) (c : FaultCause) (op stage : Byte) :
    OnlyDst dst s (t.faultEntry c op stage) :=
  ⟨h.psduMax, h.pending, h.reply, h.ofdm, h.frame, h.buf, h.scrState, h.encState⟩

/-- What an abandoned stage leaves (60_exceptions.md R170). -/
structure Abandoned (dst : BufId) (s t : State) : Prop where
  only : OnlyDst dst s t
  lost : t.buf dst = .lost s.freeCount
  count : t.freeCount = s.freeCount + 1

/-- What a completed stage leaves: cells assigned in its destination, whose LEN is now `n`. -/
structure Completed (dst : BufId) (n : Nat) (s t : State) : Prop where
  only : OnlyDst dst s t
  era : (t.buf dst).era = (s.buf dst).era
  count : t.freeCount = s.freeCount
  cells : ∃ ws, (t.buf dst).cells = (s.buf dst).cells.writeAll ws
  len : t.len dst = n % 2 ^ 32

theorem Abandoned.lose (s : State) (dst : BufId) : Abandoned dst s (s.loseBuf dst) := by
  refine ⟨⟨rfl, rfl, rfl, rfl, rfl, ?_, .inl rfl, .inl rfl⟩, by simp [State.loseBuf_buf], rfl⟩
  intro b hb
  simp [State.loseBuf_buf, hb]

theorem Abandoned.scr {s t : State} (h : Abandoned .scr s t) (v : ShiftReg) : Abandoned .scr s (t.setScrState v) :=
  ⟨⟨h.only.psduMax, h.only.pending, h.only.reply, h.only.ofdm, h.only.frame, h.only.buf, .inr rfl, h.only.encState⟩,
    h.lost, h.count⟩

theorem Abandoned.enc {s t : State} (h : Abandoned .enc s t) (v : ShiftReg) : Abandoned .enc s (t.setEncState v) :=
  ⟨⟨h.only.psduMax, h.only.pending, h.only.reply, h.only.ofdm, h.only.frame, h.only.buf, h.only.scrState, .inr rfl⟩,
    h.lost, h.count⟩

theorem Completed.write (s : State) (dst : BufId) (ws : List Host.Cell) :
    Completed dst (s.len dst) s (s.writeCells dst ws) := by
  refine ⟨⟨rfl, rfl, rfl, rfl, rfl, ?_, .inl rfl, .inl rfl⟩, by simp [State.writeCells_buf], rfl,
    ⟨ws, by simp [State.writeCells_buf]⟩, ?_⟩
  · intro b hb
    simp [State.writeCells_buf, hb]
  · rw [State.writeCells_len]
    exact (Nat.mod_eq_of_lt (s.buf dst).len.isLt).symm

theorem Completed.setLen {s t : State} {dst : BufId} {m : Nat} (h : Completed dst m s t) (n : Nat) :
    Completed dst n s (t.setLen dst n) := by
  refine ⟨⟨h.only.psduMax, h.only.pending, h.only.reply, h.only.ofdm, h.only.frame, ?_, h.only.scrState,
    h.only.encState⟩, by simp [State.setLen_buf, h.era], h.count, ?_, by simp⟩
  · intro b hb
    simp [State.setLen_buf, hb, h.only.buf b hb]
  · simpa [State.setLen_buf] using h.cells

theorem Completed.scr {s t : State} {n : Nat} (h : Completed .scr n s t) (v : ShiftReg) :
    Completed .scr n s (t.setScrState v) :=
  ⟨⟨h.only.psduMax, h.only.pending, h.only.reply, h.only.ofdm, h.only.frame, h.only.buf, .inr rfl, h.only.encState⟩,
    h.era, h.count, h.cells, h.len⟩

theorem Completed.enc {s t : State} {n : Nat} (h : Completed .enc n s t) (v : ShiftReg) :
    Completed .enc n s (t.setEncState v) :=
  ⟨⟨h.only.psduMax, h.only.pending, h.only.reply, h.only.ofdm, h.only.frame, h.only.buf, h.only.scrState, .inr rfl⟩,
    h.era, h.count, h.cells, h.len⟩

/-- The LEN a completed stage leaves its destination (10_state.md R38); 0 for the commands that are no stage. -/
def destLen (s : State) : Instr → Nat
  | .ofdmParam _ _ _ _ => 0
  | .frameParam _ => 0
  | .assemble => s.frame.nDataBits.toNat
  | .scramble _ => s.frame.nDataBits.toNat
  | .tailReset => s.len .scr
  | .convEncode => 2 * s.frame.nDataBits.toNat
  | .puncture => s.frame.nEncodedBits.toNat
  | .interleave => s.frame.nEncodedBits.toNat
  | .deinterleave => s.frame.nEncodedBits.toNat
  | .split => 48 * s.frame.nSym.toNat
  | .encodeFrame _ => 0

/-- A stage command is one stage whose first two tests are the FrameParam and the LEN of its input buffer, and whose
abandoned and completed states differ from the first state in the destination only (20_memory.md R64, 60_exceptions.md
R167, R170). -/
theorem exec_stage {s : State} {i : Instr} {src dst : BufId} {n : Nat} (h : stageTable s i = some (src, n, dst)) :
    ∃ rest ab co, exec i s =
        finish i.opcode (runStage i.opcode ((s.needFrame.or (s.needLen src n)).or rest) ab co) ∧
      Abandoned dst s ab ∧ Completed dst (destLen s i) s co ∧
        (rest = none → i ≠ .assemble → i ≠ .tailReset → IsBits s src n) := by
  cases i <;> simp only [stageTable, Option.some.injEq, Prod.mk.injEq, reduceCtorEq] at h <;> obtain ⟨rfl, rfl, rfl⟩ := h
  case assemble =>
    exact ⟨none, _, _, (by rw [Option.or_none]; exact rfl), .lose s .data, (Completed.write s .data _).setLen _,
      fun _ h => absurd rfl h⟩
  case scramble seed =>
    exact ⟨(needSeed seed).or (s.needBits .data s.frame.nDataBits.toNat), _, _,
      (by rw [← Option.or_assoc]; exact rfl), (Abandoned.lose s .scr).scr _,
      ((Completed.write s .scr _).setLen _).scr _,
      fun h _ _ => State.needBits_eq_none.mp (Option.or_eq_none_iff.mp h).2⟩
  case tailReset =>
    exact ⟨none, _, _, (by rw [Option.or_none]; exact rfl), .lose s .scr, Completed.write s .scr _,
      fun _ _ h => absurd rfl h⟩
  case convEncode =>
    exact ⟨s.needBits .scr s.frame.nDataBits.toNat, _, _, rfl, (Abandoned.lose s .enc).enc _,
      ((Completed.write s .enc _).setLen _).enc _, fun h _ _ => State.needBits_eq_none.mp h⟩
  case puncture =>
    exact ⟨s.needBits .enc (2 * s.frame.nDataBits.toNat), _, _, rfl, .lose s .pun, (Completed.write s .pun _).setLen _,
      fun h _ _ => State.needBits_eq_none.mp h⟩
  case interleave =>
    exact ⟨s.needGeometry.or (s.needBits .pun s.frame.nEncodedBits.toNat), _, _,
      (by rw [← Option.or_assoc]; exact rfl), .lose s .int, (Completed.write s .int _).setLen _,
      fun h _ _ => State.needBits_eq_none.mp (Option.or_eq_none_iff.mp h).2⟩
  case deinterleave =>
    exact ⟨s.needGeometry.or (s.needBits .pun s.frame.nEncodedBits.toNat), _, _,
      (by rw [← Option.or_assoc]; exact rfl), .lose s .int, (Completed.write s .int _).setLen _,
      fun h _ _ => State.needBits_eq_none.mp (Option.or_eq_none_iff.mp h).2⟩
  case split =>
    exact ⟨s.needBits .int s.frame.nEncodedBits.toNat, _, _, rfl, .lose s .sym, (Completed.write s .sym _).setLen _,
      fun h _ _ => State.needBits_eq_none.mp h⟩

/-- What a stage command can do, all of it: its first failing test is reported over an abandoned state, or none fails
and it succeeds over a completed one. -/
theorem exec_stage_cases {s : State} {i : Instr} {src dst : BufId} {n : Nat}
    (h : stageTable s i = some (src, n, dst)) :
    (∃ c t, exec i s = .next (t.faultEntry c i.opcode i.opcode) ∧ Abandoned dst s t) ∨
      ∃ t, exec i s = .next (t.succeed i.opcode) ∧ Completed dst (destLen s i) s t ∧ s.frame.valid = true ∧
        s.len src = n ∧ (i ≠ .assemble → i ≠ .tailReset → IsBits s src n) := by
  obtain ⟨rest, ab, co, e, ha, hc, hb⟩ := exec_stage h
  rw [e]
  rcases runStage_cases i.opcode ((s.needFrame.or (s.needLen src n)).or rest) ab co with ⟨ht, hr⟩ | ⟨c, ht, hr⟩
  · rw [hr]
    simp only [Option.or_eq_none_iff, State.needFrame_eq_none, State.needLen_eq_none] at ht
    exact .inr ⟨co, rfl, hc, ht.1.1, ht.1.2, hb ht.2⟩
  · rw [hr]
    exact .inl ⟨c, ab, rfl, ha⟩

/-- The invariant of the parameter registers is about nothing else than these. -/
theorem RegInv.of_eq {s t : State} (h : RegInv s) (h1 : t.ofdm = s.ofdm) (h2 : t.frame = s.frame)
    (h3 : t.psduMax = s.psduMax) (h4 : ∀ b, t.len b ≤ s.cap b) : RegInv t := by
  constructor
  · rw [h1, h2]; exact h.noOfdm
  · rw [h1]; exact h.codes
  · rw [h1]; exact h.ofdm
  · rw [h2]; exact h.noFrame
  · rw [h1, h2, h3]; exact h.frame
  · intro b; have := h4 b; simpa [State.cap, h3] using this

/-- What a stage sets the LEN of its destination to is within the capacity (10_state.md R44 (e)). -/
theorem RegInv.destLen_le {s : State} (h : RegInv s) (hv : s.frame.valid = true) {i : Instr} {src dst : BufId} {n : Nat}
    (hi : stageTable s i = some (src, n, dst)) : destLen s i ≤ s.cap dst := by
  obtain ⟨a, b, c⟩ := h.lengths_le hv
  have hf := h.frame hv
  cases i <;> simp only [stageTable, Option.some.injEq, Prod.mk.injEq, reduceCtorEq] at hi <;>
    obtain ⟨rfl, rfl, rfl⟩ := hi <;> simp only [destLen, State.cap, capacity] at * <;>
    first | omega | exact h.lens .scr

/-! ### Chains -/

/-- `P` holds of the state a stage leaves, whether it completed or was abandoned. -/
def StageResult.All (P : State → Prop) : StageResult → Prop
  | .done s => P s
  | .raised _ _ s => P s

theorem StageResult.All.andThen {P : State → Prop} {r : StageResult} {f : State → StageResult} (h : r.All P)
    (hf : ∀ s, P s → (f s).All P) : (r.andThen f).All P := by
  cases r with
  | done s => exact hf s h
  | raised g c s => exact h

/-- What each of the seven stages keeps, ENCODE_FRAME's chain keeps (45_encode_frame.md R147). -/
theorem chainStages_all {P : State → Prop} {seed : Nat} (h1 : ∀ s, P s → (assembleStage s).All P)
    (h2 : ∀ s, P s → (scrambleStage seed s).All P) (h3 : ∀ s, P s → (tailResetStage s).All P)
    (h4 : ∀ s, P s → (convEncodeStage s).All P) (h5 : ∀ s, P s → (punctureStage s).All P)
    (h6 : ∀ s, P s → (interleaveStage s).All P) (h7 : ∀ s, P s → (splitStage s).All P) {s : State} (hs : P s) :
    (chainStages seed s).All P :=
  ((((((h1 s hs).andThen h2).andThen h3).andThen h4).andThen h5).andThen h6).andThen h7

/-- Of the stage commands only SCRAMBLE touches SCR_STATE and only CONV_ENCODE touches ENC_STATE (10_state.md R36, R37). -/
theorem exec_stage_shiftRegs {s t : State} {i : Instr} {src dst : BufId} {n : Nat}
    (h : stageTable s i = some (src, n, dst)) (e : exec i s = .next t) : ShiftRegsKept i s t := by
  have stage : ∀ {op : Byte} {test : Option FaultCause} {ab co : State},
      finish op (runStage op test ab co) = .next t → ShiftRegsKept i s ab → ShiftRegsKept i s co →
      ShiftRegsKept i s t := by
    intro op test ab co e ha hc
    cases test <;> cases e
    · exact hc
    · exact ha
  cases i <;> simp only [stageTable, reduceCtorEq] at h
  case scramble seed => exact stage e ⟨.inr ⟨seed, rfl⟩, .inl rfl⟩ ⟨.inr ⟨seed, rfl⟩, .inl rfl⟩
  case convEncode => exact stage e ⟨.inl rfl, .inr rfl⟩ ⟨.inl rfl, .inr rfl⟩
  all_goals exact stage e ⟨.inl rfl, .inl rfl⟩ ⟨.inl rfl, .inl rfl⟩

end Sys2Proof.Machine
end

