-- ==== Sys2Proof/Laws/Completions.lean ====
section
/-! SUPPORT. When each stage completes, the state it then leaves, and that state's cells, LEN registers and frame
(spec/40_parameters.md, template; spec/60_exceptions.md R167). -/

namespace Sys2Proof.Machine

/-! ### When each stage completes, and with what -/

theorem assembleStage_ok {s : State} (hv : s.frame.valid = true) (hl : s.len .psdu = s.frame.psduSize.toNat) :
    assembleStage s = .done s.assembled := by
  have h : s.needFrame.or (s.needLen .psdu s.frame.psduSize.toNat) = none := by simp [hv, hl]
  rw [assembleStage, h, runStage_none]

theorem scrambleStage_ok {s : State} {seed : Nat} (hv : s.frame.valid = true)
    (hl : s.len .data = s.frame.nDataBits.toNat) (hs : seed ≤ 127) (hb : IsBits s .data s.frame.nDataBits.toNat) :
    scrambleStage seed s = .done (s.scrambled seed) := by
  have h : ((s.needFrame.or (s.needLen .data s.frame.nDataBits.toNat)).or (needSeed seed)).or
      (s.needBits .data s.frame.nDataBits.toNat) = none := by simp [hv, hl, hs, hb]
  rw [scrambleStage, h, runStage_none]

theorem tailResetStage_ok {s : State} (hv : s.frame.valid = true) (hl : s.len .scr = s.frame.nDataBits.toNat) :
    tailResetStage s = .done s.tailCleared := by
  have h : s.needFrame.or (s.needLen .scr s.frame.nDataBits.toNat) = none := by simp [hv, hl]
  rw [tailResetStage, h, runStage_none]

theorem convEncodeStage_ok {s : State} (hv : s.frame.valid = true) (hl : s.len .scr = s.frame.nDataBits.toNat)
    (hb : IsBits s .scr s.frame.nDataBits.toNat) : convEncodeStage s = .done s.convEncoded := by
  have h : (s.needFrame.or (s.needLen .scr s.frame.nDataBits.toNat)).or (s.needBits .scr s.frame.nDataBits.toNat) =
      none := by simp [hv, hl, hb]
  rw [convEncodeStage, h, runStage_none]

theorem punctureStage_ok {s : State} (hv : s.frame.valid = true) (hl : s.len .enc = 2 * s.frame.nDataBits.toNat)
    (hb : IsBits s .enc (2 * s.frame.nDataBits.toNat)) : punctureStage s = .done s.punctured := by
  have h : (s.needFrame.or (s.needLen .enc (2 * s.frame.nDataBits.toNat))).or
      (s.needBits .enc (2 * s.frame.nDataBits.toNat)) = none := by simp [hv, hl, hb]
  rw [punctureStage, h, runStage_none]

theorem State.needInterleave_eq_none {s : State} : s.needInterleave = none ↔
    s.frame.valid = true ∧ s.len .pun = s.frame.nEncodedBits.toNat ∧
      ilvValid s.ofdm.nCbps.toNat (stride s.ofdm.avgBpsc.toNat) = true ∧
      IsBits s .pun s.frame.nEncodedBits.toNat := by
  simp [State.needInterleave, and_assoc]

theorem interleaveStage_ok {s : State} (h : s.needInterleave = none) : interleaveStage s = .done s.interleaved := by
  rw [interleaveStage, h, runStage_none]

theorem deinterleaveStage_ok {s : State} (h : s.needInterleave = none) :
    deinterleaveStage s = .done s.deinterleaved := by
  rw [deinterleaveStage, h, runStage_none]

theorem splitStage_ok {s : State} (hv : s.frame.valid = true) (hl : s.len .int = s.frame.nEncodedBits.toNat)
    (hb : IsBits s .int s.frame.nEncodedBits.toNat) : splitStage s = .done s.symbolsPacked := by
  have h : (s.needFrame.or (s.needLen .int s.frame.nEncodedBits.toNat)).or
      (s.needBits .int s.frame.nEncodedBits.toNat) = none := by simp [hv, hl, hb]
  rw [splitStage, h, runStage_none]

/-- A plain stage command is its stage and the report. -/
theorem exec_of_stage (s : State) :
    exec .assemble s = finish 0x03 (assembleStage s) ∧
      (∀ seed, exec (.scramble seed) s = finish 0x04 (scrambleStage seed s)) ∧
      exec .tailReset s = finish 0x05 (tailResetStage s) ∧ exec .convEncode s = finish 0x06 (convEncodeStage s) ∧
      exec .puncture s = finish 0x07 (punctureStage s) ∧ exec .interleave s = finish 0x08 (interleaveStage s) ∧
      exec .deinterleave s = finish 0x09 (deinterleaveStage s) ∧ exec .split s = finish 0x0A (splitStage s) :=
  ⟨rfl, fun _ => rfl, rfl, rfl, rfl, rfl, rfl, rfl⟩

/-! ### The registers of the completed states -/

@[simp] theorem State.assembled_psduMax (s : State) : s.assembled.psduMax = s.psduMax := rfl
@[simp] theorem State.assembled_ofdm (s : State) : s.assembled.ofdm = s.ofdm := rfl
@[simp] theorem State.assembled_frame (s : State) : s.assembled.frame = s.frame := rfl
@[simp] theorem State.assembled_freeCount (s : State) : s.assembled.freeCount = s.freeCount := rfl
@[simp] theorem State.assembled_pending (s : State) : s.assembled.pending = s.pending := rfl
@[simp] theorem State.assembled_reply (s : State) : s.assembled.reply = s.reply := rfl
@[simp] theorem State.assembled_scrState (s : State) : s.assembled.scrState = s.scrState := rfl
@[simp] theorem State.assembled_encState (s : State) : s.assembled.encState = s.encState := rfl

@[simp] theorem State.scrambled_psduMax (s : State) (seed : Nat) : (s.scrambled seed).psduMax = s.psduMax := rfl
@[simp] theorem State.scrambled_ofdm (s : State) (seed : Nat) : (s.scrambled seed).ofdm = s.ofdm := rfl
@[simp] theorem State.scrambled_frame (s : State) (seed : Nat) : (s.scrambled seed).frame = s.frame := rfl
@[simp] theorem State.scrambled_freeCount (s : State) (seed : Nat) : (s.scrambled seed).freeCount = s.freeCount := rfl
@[simp] theorem State.scrambled_pending (s : State) (seed : Nat) : (s.scrambled seed).pending = s.pending := rfl
@[simp] theorem State.scrambled_reply (s : State) (seed : Nat) : (s.scrambled seed).reply = s.reply := rfl
@[simp] theorem State.scrambled_encState (s : State) (seed : Nat) : (s.scrambled seed).encState = s.encState := rfl

@[simp] theorem State.tailCleared_psduMax (s : State) : s.tailCleared.psduMax = s.psduMax := rfl
@[simp] theorem State.tailCleared_ofdm (s : State) : s.tailCleared.ofdm = s.ofdm := rfl
@[simp] theorem State.tailCleared_frame (s : State) : s.tailCleared.frame = s.frame := rfl
@[simp] theorem State.tailCleared_freeCount (s : State) : s.tailCleared.freeCount = s.freeCount := rfl
@[simp] theorem State.tailCleared_pending (s : State) : s.tailCleared.pending = s.pending := rfl
@[simp] theorem State.tailCleared_reply (s : State) : s.tailCleared.reply = s.reply := rfl
@[simp] theorem State.tailCleared_scrState (s : State) : s.tailCleared.scrState = s.scrState := rfl
@[simp] theorem State.tailCleared_encState (s : State) : s.tailCleared.encState = s.encState := rfl

@[simp] theorem State.convEncoded_psduMax (s : State) : s.convEncoded.psduMax = s.psduMax := rfl
@[simp] theorem State.convEncoded_ofdm (s : State) : s.convEncoded.ofdm = s.ofdm := rfl
@[simp] theorem State.convEncoded_frame (s : State) : s.convEncoded.frame = s.frame := rfl
@[simp] theorem State.convEncoded_freeCount (s : State) : s.convEncoded.freeCount = s.freeCount := rfl
@[simp] theorem State.convEncoded_pending (s : State) : s.convEncoded.pending = s.pending := rfl
@[simp] theorem State.convEncoded_reply (s : State) : s.convEncoded.reply = s.reply := rfl
@[simp] theorem State.convEncoded_scrState (s : State) : s.convEncoded.scrState = s.scrState := rfl

@[simp] theorem State.punctured_psduMax (s : State) : s.punctured.psduMax = s.psduMax := rfl
@[simp] theorem State.punctured_ofdm (s : State) : s.punctured.ofdm = s.ofdm := rfl
@[simp] theorem State.punctured_frame (s : State) : s.punctured.frame = s.frame := rfl
@[simp] theorem State.punctured_freeCount (s : State) : s.punctured.freeCount = s.freeCount := rfl
@[simp] theorem State.punctured_pending (s : State) : s.punctured.pending = s.pending := rfl
@[simp] theorem State.punctured_reply (s : State) : s.punctured.reply = s.reply := rfl
@[simp] theorem State.punctured_scrState (s : State) : s.punctured.scrState = s.scrState := rfl
@[simp] theorem State.punctured_encState (s : State) : s.punctured.encState = s.encState := rfl

@[simp] theorem State.interleaved_psduMax (s : State) : s.interleaved.psduMax = s.psduMax := rfl
@[simp] theorem State.interleaved_ofdm (s : State) : s.interleaved.ofdm = s.ofdm := rfl
@[simp] theorem State.interleaved_frame (s : State) : s.interleaved.frame = s.frame := rfl
@[simp] theorem State.interleaved_freeCount (s : State) : s.interleaved.freeCount = s.freeCount := rfl
@[simp] theorem State.interleaved_pending (s : State) : s.interleaved.pending = s.pending := rfl
@[simp] theorem State.interleaved_reply (s : State) : s.interleaved.reply = s.reply := rfl
@[simp] theorem State.interleaved_scrState (s : State) : s.interleaved.scrState = s.scrState := rfl
@[simp] theorem State.interleaved_encState (s : State) : s.interleaved.encState = s.encState := rfl

@[simp] theorem State.deinterleaved_psduMax (s : State) : s.deinterleaved.psduMax = s.psduMax := rfl
@[simp] theorem State.deinterleaved_ofdm (s : State) : s.deinterleaved.ofdm = s.ofdm := rfl
@[simp] theorem State.deinterleaved_frame (s : State) : s.deinterleaved.frame = s.frame := rfl
@[simp] theorem State.deinterleaved_freeCount (s : State) : s.deinterleaved.freeCount = s.freeCount := rfl
@[simp] theorem State.deinterleaved_pending (s : State) : s.deinterleaved.pending = s.pending := rfl
@[simp] theorem State.deinterleaved_reply (s : State) : s.deinterleaved.reply = s.reply := rfl
@[simp] theorem State.deinterleaved_scrState (s : State) : s.deinterleaved.scrState = s.scrState := rfl
@[simp] theorem State.deinterleaved_encState (s : State) : s.deinterleaved.encState = s.encState := rfl

@[simp] theorem State.symbolsPacked_psduMax (s : State) : s.symbolsPacked.psduMax = s.psduMax := rfl
@[simp] theorem State.symbolsPacked_ofdm (s : State) : s.symbolsPacked.ofdm = s.ofdm := rfl
@[simp] theorem State.symbolsPacked_frame (s : State) : s.symbolsPacked.frame = s.frame := rfl
@[simp] theorem State.symbolsPacked_freeCount (s : State) : s.symbolsPacked.freeCount = s.freeCount := rfl
@[simp] theorem State.symbolsPacked_pending (s : State) : s.symbolsPacked.pending = s.pending := rfl
@[simp] theorem State.symbolsPacked_reply (s : State) : s.symbolsPacked.reply = s.reply := rfl
@[simp] theorem State.symbolsPacked_scrState (s : State) : s.symbolsPacked.scrState = s.scrState := rfl
@[simp] theorem State.symbolsPacked_encState (s : State) : s.symbolsPacked.encState = s.encState := rfl

/-! ### The LEN registers of the completed states -/

@[simp] theorem State.assembled_len (s : State) (b : BufId) :
    s.assembled.len b = if b = .data then s.frame.nDataBits.toNat else s.len b := by
  simp [State.assembled, Nat.mod_eq_of_lt]

@[simp] theorem State.scrambled_len (s : State) (seed : Nat) (b : BufId) :
    (s.scrambled seed).len b = if b = .scr then s.frame.nDataBits.toNat else s.len b := by
  simp [State.scrambled, Nat.mod_eq_of_lt]

@[simp] theorem State.tailCleared_len (s : State) (b : BufId) : s.tailCleared.len b = s.len b := by
  simp [State.tailCleared]

theorem State.convEncoded_len (s : State) (b : BufId) :
    s.convEncoded.len b = if b = .enc then 2 * s.frame.nDataBits.toNat % 2 ^ 32 else s.len b := by
  simp [State.convEncoded]

@[simp] theorem State.punctured_len (s : State) (b : BufId) :
    s.punctured.len b = if b = .pun then s.frame.nEncodedBits.toNat else s.len b := by
  simp [State.punctured, Nat.mod_eq_of_lt]

@[simp] theorem State.interleaved_len (s : State) (b : BufId) :
    s.interleaved.len b = if b = .int then s.frame.nEncodedBits.toNat else s.len b := by
  simp [State.interleaved, Nat.mod_eq_of_lt]

@[simp] theorem State.deinterleaved_len (s : State) (b : BufId) :
    s.deinterleaved.len b = if b = .int then s.frame.nEncodedBits.toNat else s.len b := by
  simp [State.deinterleaved, Nat.mod_eq_of_lt]

theorem State.symbolsPacked_len (s : State) (b : BufId) :
    s.symbolsPacked.len b = if b = .sym then 48 * s.frame.nSym.toNat % 2 ^ 32 else s.len b := by
  simp [State.symbolsPacked, nSc]

/-! ### The cells of the completed states -/

theorem State.assembled_cell_of_ne (s : State) {b : BufId} (h : b ≠ .data) (i : Nat) :
    s.assembled.cell b i = s.cell b i := by
  simp [State.assembled, State.writeCells_cell_of_ne s h]

theorem State.scrambled_cell_of_ne (s : State) (seed : Nat) {b : BufId} (h : b ≠ .scr) (i : Nat) :
    (s.scrambled seed).cell b i = s.cell b i := by
  simp [State.scrambled, State.writeCells_cell_of_ne s h]

theorem State.tailCleared_cell_of_ne (s : State) {b : BufId} (h : b ≠ .scr) (i : Nat) :
    s.tailCleared.cell b i = s.cell b i := by
  simp [State.tailCleared, State.writeCells_cell_of_ne s h]

theorem State.convEncoded_cell_of_ne (s : State) {b : BufId} (h : b ≠ .enc) (i : Nat) :
    s.convEncoded.cell b i = s.cell b i := by
  simp [State.convEncoded, State.writeCells_cell_of_ne s h]

theorem State.punctured_cell_of_ne (s : State) {b : BufId} (h : b ≠ .pun) (i : Nat) :
    s.punctured.cell b i = s.cell b i := by
  simp [State.punctured, State.writeCells_cell_of_ne s h]

theorem State.interleaved_cell_of_ne (s : State) {b : BufId} (h : b ≠ .int) (i : Nat) :
    s.interleaved.cell b i = s.cell b i := by
  simp [State.interleaved, State.writeCells_cell_of_ne s h]

theorem State.deinterleaved_cell_of_ne (s : State) {b : BufId} (h : b ≠ .int) (i : Nat) :
    s.deinterleaved.cell b i = s.cell b i := by
  simp [State.deinterleaved, State.writeCells_cell_of_ne s h]

theorem State.symbolsPacked_cell_of_ne (s : State) {b : BufId} (h : b ≠ .sym) (i : Nat) :
    s.symbolsPacked.cell b i = s.cell b i := by
  simp [State.symbolsPacked, State.writeCells_cell_of_ne s h]

theorem State.assembled_cell (s : State) {i : Nat} {x : Bool} (h : s.assembledBits[i]? = some x) :
    s.assembled.cell .data i = bitCell x := by
  have hi := (List.getElem?_eq_some_iff.mp h).1
  rw [State.assembled, State.setLen_cell, State.writeCells_numbered_cell, if_pos (by simpa using hi)]
  simp [h]

theorem State.scrambled_cell (s : State) (seed : Nat) {i : Nat} {x : Bool}
    (h : (scrambleOut (BitVec.ofNat 7 seed) (s.bits .data s.frame.nDataBits.toNat))[i]? = some x) :
    (s.scrambled seed).cell .scr i = bitCell x := by
  have hi := (List.getElem?_eq_some_iff.mp h).1
  rw [State.scrambled, State.setScrState_cell, State.setLen_cell, State.writeCells_numbered_cell,
    if_pos (by simpa using hi)]
  simp [h]

theorem State.tailCleared_cell (s : State) (i : Nat) :
    s.tailCleared.cell .scr i = if s.tailStart ≤ i ∧ i < s.tailStart + 6 then 0 else s.cell .scr i := by
  rw [State.tailCleared, State.writeCells_numbered_cell]
  simp only [tailBits, List.length_replicate, true_and]
  split
  · have : i - s.tailStart < 6 := by omega
    rw [List.getD_eq_getElem?_getD, List.getElem?_replicate, if_pos this]
    rfl
  · rfl

theorem State.convEncoded_cell (s : State) {i : Nat} {x : Bool}
    (h : (convOut 0 (s.bits .scr s.frame.nDataBits.toNat))[i]? = some x) :
    s.convEncoded.cell .enc i = bitCell x := by
  have hi := (List.getElem?_eq_some_iff.mp h).1
  rw [State.convEncoded, State.setEncState_cell, State.setLen_cell, State.writeCells_numbered_cell,
    if_pos (by simpa using hi)]
  rw [Nat.sub_zero, List.getD_eq_getElem?_getD, List.getElem?_map, h]
  rfl

theorem State.punctured_cell (s : State) {i : Nat} (hi : i < 2 * s.frame.nDataBits.toNat) :
    s.punctured.cell .pun i = s.cell .enc i := by
  rw [State.punctured, State.setLen_cell, State.writeCells_numbered_cell, if_pos (by simpa using hi)]
  simp [List.getD_eq_getElem?_getD, hi]

theorem State.interleaved_cell (s : State) {m k : Nat} (hm : m < s.frame.nSym.toNat) (hk : k < s.ofdm.nCbps.toNat) :
    s.interleaved.cell .int (m * s.ofdm.nCbps.toNat + k) = s.cell .pun (m * s.ofdm.nCbps.toNat + s.destOf k) := by
  rw [State.interleaved, State.setLen_cell]
  exact State.writeCells_cell_of_mem _ _ s.interleaveWrites_nodup (State.interleaveWrites_mem hm hk)

theorem State.deinterleaved_cell (s : State)
    (hg : ilvValid s.ofdm.nCbps.toNat (stride s.ofdm.avgBpsc.toNat) = true) {m k : Nat}
    (hm : m < s.frame.nSym.toNat) (hk : k < s.ofdm.nCbps.toNat) :
    s.deinterleaved.cell .int (m * s.ofdm.nCbps.toNat + s.destOf k) = s.cell .pun (m * s.ofdm.nCbps.toNat + k) := by
  rw [State.deinterleaved, State.setLen_cell]
  exact State.writeCells_cell_of_mem _ _ (State.deinterleaveWrites_nodup hg) (State.deinterleaveWrites_mem hm hk)

theorem State.symbolsPacked_cell (s : State) {i v : Nat}
    (h : (splitSymbols s.ofdm.bpsc s.frame.nSym.toNat (s.bits .int s.frame.nEncodedBits.toNat))[i]? = some v) :
    s.symbolsPacked.cell .sym i = BitVec.ofNat 8 v := by
  have hi := (List.getElem?_eq_some_iff.mp h).1
  rw [State.symbolsPacked, State.setLen_cell, State.writeCells_numbered_cell, if_pos (by simpa using hi)]
  simp [h]

/-! ### The completed states hold bits -/

theorem State.assembled_isBits (s : State) : IsBits s.assembled .data s.frame.nDataBits.toNat := by
  intro i hi
  have hl : i < s.assembledBits.length := by
    rw [State.assembledBits_length]
    omega
  rw [s.assembled_cell (List.getElem?_eq_getElem hl)]
  exact bitCell_le_one _

theorem State.scrambled_isBits (s : State) (seed : Nat) : IsBits (s.scrambled seed) .scr s.frame.nDataBits.toNat := by
  intro i hi
  rw [s.scrambled_cell seed (List.getElem?_eq_getElem (by simpa using hi))]
  exact bitCell_le_one _

theorem State.tailCleared_isBits {s : State} {n : Nat} (h : IsBits s .scr n) : IsBits s.tailCleared .scr n := by
  intro i hi
  rw [State.tailCleared_cell]
  split
  · exact Nat.zero_le 1
  · exact h i hi

theorem State.convEncoded_isBits (s : State) : IsBits s.convEncoded .enc (2 * s.frame.nDataBits.toNat) := by
  intro i hi
  rw [s.convEncoded_cell (List.getElem?_eq_getElem (by simpa using hi))]
  exact bitCell_le_one _

theorem State.punctured_isBits {s : State} (h : IsBits s .enc (2 * s.frame.nDataBits.toNat)) :
    IsBits s.punctured .pun (2 * s.frame.nDataBits.toNat) := by
  intro i hi
  rw [s.punctured_cell hi]
  exact h i hi

theorem State.interleaved_isBits {s : State}
    (hg : ilvValid s.ofdm.nCbps.toNat (stride s.ofdm.avgBpsc.toNat) = true)
    (h : IsBits s .pun (s.frame.nSym.toNat * s.ofdm.nCbps.toNat)) :
    IsBits s.interleaved .int (s.frame.nSym.toNat * s.ofdm.nCbps.toNat) := by
  intro i hi
  obtain ⟨h1, h2, h3⟩ := block_index hi
  rw [← h3, s.interleaved_cell h1 h2]
  exact h _ (block_lt h1 ((ilvValid_dest hg).1 _ h2))

theorem State.deinterleaved_isBits {s : State}
    (hg : ilvValid s.ofdm.nCbps.toNat (stride s.ofdm.avgBpsc.toNat) = true)
    (h : IsBits s .pun (s.frame.nSym.toNat * s.ofdm.nCbps.toNat)) :
    IsBits s.deinterleaved .int (s.frame.nSym.toNat * s.ofdm.nCbps.toNat) := by
  intro i hi
  obtain ⟨h1, h2, h3⟩ := block_index hi
  obtain ⟨k, hk, e⟩ := ilvValid_surj hg h2
  rw [← h3, ← e]
  rw [show dest s.ofdm.nCbps.toNat (stride s.ofdm.avgBpsc.toNat) k = s.destOf k from rfl,
    s.deinterleaved_cell hg h1 hk]
  exact h _ (block_lt h1 hk)

/-! ### The splitter on bits -/

/-- Bits packed, as a sum over cells (44_symbol_splitter.md R141). -/
theorem packLsb_bits {s : State} {b : BufId} {n off d : Nat} (hb : IsBits s b n) (h : off + d ≤ n) :
    packLsb (((s.bits b n).drop off).take d) =
      ((List.range d).map fun k => (s.cell b (off + k)).toNat * 2 ^ k).sum := by
  rw [packLsb_eq_sum]
  have hl : (((s.bits b n).drop off).take d).length = d := by
    simp
    omega
  rw [hl]
  congr 1
  apply List.map_congr_left
  intro k hk
  rw [List.mem_range] at hk
  rw [List.getD_eq_getElem?_getD, List.getElem?_take, if_pos hk, List.getElem?_drop,
    hb.bits_getElem? (by omega), hb.cell_eq (by omega)]
  simp

/-- Every depth is at most 6 (10_state.md R27). -/
theorem RegInv.depth_le {s : State} (hr : RegInv s) (hv : s.ofdm.valid = true) {k : Nat} (hk : k < 4) :
    byteField s.ofdm.bpsc k ≤ 6 := by
  obtain ⟨l, e⟩ := hr.codes hv k hk
  have := costOfCode_mem l
  rw [← e] at this
  simp at this
  omega

end Sys2Proof.Machine
end

