-- ==== Sys2Proof/Laws/Chain.lean ====
section
/-! SUPPORT. The chain of ENCODE_FRAME: when it completes and what it then leaves, and commands executed one after the
other (spec/45_encode_frame.md R147 to R149). -/

namespace Sys2Proof.Machine

theorem exec_encodeFrame_of_frame {s : State} {seed : Nat} (hv : s.frame.valid = true) :
    exec (.encodeFrame seed) s = finish 0x0B (chainStages seed s.clearStageLens) := by
  have h : s.needFrame = none := by simp [hv]
  simp only [exec, execEncodeFrame, h]

theorem runCommands_cons {i : Instr} {is : List Instr} {s t : State} (h : exec i s = .next t) :
    runCommands (i :: is) s = runCommands is t := by
  simp only [runCommands, h]

/-- The first five stages of the chain. -/
def fiveStages (seed : Nat) (s : State) : StageResult :=
  ((((assembleStage s).andThen (scrambleStage seed)).andThen tailResetStage).andThen convEncodeStage).andThen
    punctureStage

theorem chainStages_eq (seed : Nat) (s : State) :
    chainStages seed s = ((fiveStages seed s).andThen interleaveStage).andThen splitStage := rfl

/-- What the first five stages leave. -/
def State.afterFive (s : State) (seed : Nat) : State :=
  (s.assembled.scrambled seed).tailCleared.convEncoded.punctured

@[simp] theorem State.afterFive_frame (s : State) (seed : Nat) : (s.afterFive seed).frame = s.frame := by
  simp [State.afterFive]

@[simp] theorem State.afterFive_ofdm (s : State) (seed : Nat) : (s.afterFive seed).ofdm = s.ofdm := by
  simp [State.afterFive]

theorem State.afterFive_isBits (s : State) (seed : Nat) :
    IsBits (s.afterFive seed) .pun (2 * s.frame.nDataBits.toNat) :=
  State.punctured_isBits (State.convEncoded_isBits (s.assembled.scrambled seed).tailCleared)

theorem fiveStages_ok {s : State} {seed : Nat} (hv : s.frame.valid = true) (hl : s.len .psdu = s.frame.psduSize.toNat)
    (hs : seed ≤ 127) (hn : 2 * s.frame.nDataBits.toNat < 2 ^ 32) :
    fiveStages seed s = .done (s.afterFive seed) := by
  have h1 : scrambleStage seed s.assembled = .done (s.assembled.scrambled seed) :=
    scrambleStage_ok hv (by simp) hs s.assembled_isBits
  have h2 : tailResetStage (s.assembled.scrambled seed) = .done (s.assembled.scrambled seed).tailCleared :=
    tailResetStage_ok hv (by simp)
  have h3 : convEncodeStage (s.assembled.scrambled seed).tailCleared =
      .done (s.assembled.scrambled seed).tailCleared.convEncoded :=
    convEncodeStage_ok hv (by simp) (State.tailCleared_isBits (State.scrambled_isBits s.assembled seed))
  have h4 : punctureStage (s.assembled.scrambled seed).tailCleared.convEncoded =
      .done (s.assembled.scrambled seed).tailCleared.convEncoded.punctured :=
    punctureStage_ok hv (by rw [State.convEncoded_len]; simp; omega)
      (State.convEncoded_isBits (s.assembled.scrambled seed).tailCleared)
  rw [fiveStages, assembleStage_ok hv hl, StageResult.andThen_done, h1, StageResult.andThen_done, h2,
    StageResult.andThen_done, h3, StageResult.andThen_done, h4, State.afterFive]

/-- Where every test of the chain passes it completes (45_encode_frame.md R148, R149). -/
theorem chainStages_ok {s : State} {seed : Nat} (hv : s.frame.valid = true) (hl : s.len .psdu = s.frame.psduSize.toNat)
    (hs : seed ≤ 127) (hn : s.frame.nEncodedBits.toNat = 2 * s.frame.nDataBits.toNat)
    (hm : s.frame.nEncodedBits.toNat = s.frame.nSym.toNat * s.ofdm.nCbps.toNat)
    (hg : ilvValid s.ofdm.nCbps.toNat (stride s.ofdm.avgBpsc.toNat) = true) :
    chainStages seed s = .done (s.afterFive seed).interleaved.symbolsPacked := by
  have h2 : 2 * s.frame.nDataBits.toNat < 2 ^ 32 := by
    have := s.frame.nEncodedBits.isLt
    omega
  have hb := s.afterFive_isBits seed
  have hf := s.afterFive_frame seed
  have ho := s.afterFive_ofdm seed
  have h6 : interleaveStage (s.afterFive seed) = .done (s.afterFive seed).interleaved := by
    refine interleaveStage_ok (State.needInterleave_eq_none.mpr ⟨by rw [hf, hv], by simp [State.afterFive], ?_, ?_⟩)
    · rw [ho, hg]
    · rw [hf, hn]
      exact hb
  have h7 : splitStage (s.afterFive seed).interleaved = .done (s.afterFive seed).interleaved.symbolsPacked := by
    refine splitStage_ok (by rw [State.interleaved_frame, hf, hv]) (by simp) ?_
    have hi := State.interleaved_isBits (s := s.afterFive seed) (by rw [ho, hg]) (by rw [hf, ho, ← hm, hn]; exact hb)
    rw [State.interleaved_frame, hf, hm]
    rwa [hf, ho] at hi
  rw [chainStages_eq, fiveStages_ok hv hl hs h2, StageResult.andThen_done, h6, StageResult.andThen_done, h7]

/-- Two states whose first `n` cells of a buffer agree hold the same bits there. -/
theorem State.bits_congr {s u : State} {b : BufId} {n : Nat} (h : ∀ i < n, s.cell b i = u.cell b i) :
    s.bits b n = u.bits b n := by
  apply List.map_congr_left
  intro i hi
  rw [h i (List.mem_range.mp hi)]

end Sys2Proof.Machine
end

