-- ==== Sys2Proof/Laws/PerInstr.lean ====
section
/-! SUPPORT. What holds of every instruction as syntax, one lemma per constructor. -/

namespace Sys2Proof.Laws.EncodeFields

/-- OP of the encoded command is the command's opcode and ARG its operand (30_encoding.md R70, R71, R78). -/
def Statement (i : Instr) : Prop := opField (encode i) = i.opcode ∧ argField (encode i) = i.arg

theorem any (i : Instr) : Statement i := ⟨opField_encode i, argField_encode i⟩

theorem ofdmParam (rb0 rb1 rb2 rb3 : Nat) : Statement (.ofdmParam rb0 rb1 rb2 rb3) := any _
theorem frameParam (len : Int) : Statement (.frameParam len) := any _
theorem assemble : Statement (.assemble) := any _
theorem scramble (seed : Nat) : Statement (.scramble seed) := any _
theorem tailReset : Statement (.tailReset) := any _
theorem convEncode : Statement (.convEncode) := any _
theorem puncture : Statement (.puncture) := any _
theorem interleave : Statement (.interleave) := any _
theorem deinterleave : Statement (.deinterleave) := any _
theorem split : Statement (.split) := any _
theorem encodeFrame (seed : Nat) : Statement (.encodeFrame seed) := any _

end Sys2Proof.Laws.EncodeFields
end

