-- ==== Sys2Proof/Laws/Storage.lean ====
section
/-! SUPPORT. What the operations do to the canonical form of the buffers' storage (log 5, log 12). -/

namespace Sys2Proof.Machine

/-- What holds of the abandoned state, and of the completed state when no test fails, holds of the state left. -/
theorem runStage_all {P : State → Prop} {g : Byte} {t : Option FaultCause} {a c : State} (h1 : P a) (h2 : t = none → P c) :
    (runStage g t a c).All P := by
  cases t with
  | none => exact h2 rfl
  | some f => exact h1

/-- The invariant of the storage is about nothing else than the cells, the eras and the event counter. -/
theorem StorageInv.of_eq {s t : State} (h : StorageInv s) (h1 : ∀ b, (t.buf b).cells = (s.buf b).cells)
    (h2 : ∀ b, (t.buf b).era = (s.buf b).era) (h3 : t.freeCount = s.freeCount) (h4 : t.psduMax = s.psduMax) :
    StorageInv t := by
  refine ⟨fun b => ?_, fun b => ?_, fun b => ?_⟩
  · rw [h1]; exact h.rising b
  · rw [h1]; simpa [State.cap, h4] using h.below b
  · rw [h2, h3]; exact h.past b

/-- Assignments below the capacity keep it. -/
theorem StorageInv.writeCells {s : State} (h : StorageInv s) (b : BufId) (ws : List Host.Cell)
    (hw : ∀ c ∈ ws, c.1 < s.cap b) : StorageInv (s.writeCells b ws) := by
  refine ⟨fun b' => State.writeCells_wf h.rising b b' ws, fun b' => ?_, fun b' => ?_⟩
  · rw [State.writeCells_buf]
    split
    · subst_vars
      intro c hc
      rcases Memory.mem_writeAll hc with hc | hc
      · exact h.below _ c hc
      · exact hw c hc
    · exact h.below b'
  · rw [State.writeCells_buf]
    split
    · exact h.past b
    · exact h.past b'

theorem StorageInv.setLen {s : State} (h : StorageInv s) (b : BufId) (n : Nat) : StorageInv (s.setLen b n) := by
  refine h.of_eq (t := s.setLen b n) ?_ ?_ rfl rfl
  all_goals
    intro b'
    rw [State.setLen_buf]
    split
    · subst_vars; rfl
    · rfl

theorem StorageInv.loseBuf {s : State} (h : StorageInv s) (b : BufId) : StorageInv (s.loseBuf b) := by
  refine ⟨fun b' => ?_, fun b' => ?_, fun b' => ?_⟩ <;> rw [State.loseBuf_buf] <;> split
  · exact Buffer.lost_wf _
  · exact h.rising b'
  · intro c hc; cases hc
  · exact h.below b'
  · exact Nat.lt_succ_self _
  · exact Nat.lt_succ_of_lt (h.past b')

/-- Consecutive assignments stay below their end. -/
theorem numbered_lt {k : Nat} {vs : List Byte} {c : Host.Cell} (h : c ∈ numbered k vs) : c.1 < k + vs.length := by
  obtain ⟨i, v⟩ := c
  obtain ⟨h1, h2⟩ := mem_numbered.mp h
  have := (List.getElem?_eq_some_iff.mp h2).1
  show i < _
  omega

theorem StorageInv.clear {s : State} (h : StorageInv s) : StorageInv s.clearStageLens := by
  refine h.of_eq (t := s.clearStageLens) ?_ ?_ rfl rfl <;>
    intro b <;> rw [State.clearStageLens_buf] <;> split <;> rfl

end Sys2Proof.Machine
end

