-- ==== Sys2Proof/Tests/Slice0.lean ====
section
/-! SUPPORT. Tests: ill-formed terms refused, words written out bit by bit from the encoding, one step per command on
vectors of spec/95_test_vectors.md, and a witness for the hypotheses of each statement. -/

namespace Sys2Proof.Tests

-- One theorem at a time: each holds a kernel evaluation, and many at once ask for more threads than the stack
-- limit of the check allows.
set_option Elab.async false

open Sys2Proof.Machine

/-! ### Well-formedness: an ill-formed term for each check (30_encoding.md R72, R78) -/

theorem test_wf_rb0 : (Instr.ofdmParam 256 0 0 0).wf = false := by decide
theorem test_wf_rb1 : (Instr.ofdmParam 0 256 0 0).wf = false := by decide
theorem test_wf_rb2 : (Instr.ofdmParam 0 0 256 0).wf = false := by decide
theorem test_wf_rb3 : (Instr.ofdmParam 0 0 0 256).wf = false := by decide
theorem test_wf_len_high : (Instr.frameParam 2147483648).wf = false := by decide
theorem test_wf_len_low : (Instr.frameParam (-2147483649)).wf = false := by decide
theorem test_wf_scramble : (Instr.scramble 4294967296).wf = false := by decide
theorem test_wf_encodeFrame : (Instr.encodeFrame 4294967296).wf = false := by decide
theorem test_wf_bounds : (Instr.ofdmParam 255 255 255 255).wf ∧ (Instr.frameParam (-2147483648)).wf ∧
    (Instr.frameParam 2147483647).wf ∧ (Instr.scramble 4294967295).wf ∧ (Instr.encodeFrame 4294967295).wf := by decide

/-! ### Decoding: words written out bit by bit, OP above ARG (30_encoding.md R70 to R72) -/

theorem test_decode_ofdmParam :
    decodeTableWord 40 0b00000001_00000011_00000010_00000001_00000000 = some (.ofdmParam 0 1 2 3) := by
  decide +kernel
theorem test_decode_frameParam :
    decodeTableWord 40 0b00000010_10000000_00000000_00010011_10001000 = some (.frameParam (-2147478648)) := by
  decide +kernel
theorem test_decode_assemble :
    decodeTableWord 40 0b00000011_00000000_00000000_00000000_00000000 = some (.assemble) := by
  decide +kernel
theorem test_decode_scramble :
    decodeTableWord 40 0b00000100_00000000_00000000_00000000_00101010 = some (.scramble 42) := by
  decide +kernel
theorem test_decode_tailReset :
    decodeTableWord 40 0b00000101_00000000_00000000_00000000_00000000 = some (.tailReset) := by
  decide +kernel
theorem test_decode_convEncode :
    decodeTableWord 40 0b00000110_00000000_00000000_00000000_00000000 = some (.convEncode) := by
  decide +kernel
theorem test_decode_puncture :
    decodeTableWord 40 0b00000111_00000000_00000000_00000000_00000000 = some (.puncture) := by
  decide +kernel
theorem test_decode_interleave :
    decodeTableWord 40 0b00001000_00000000_00000000_00000000_00000000 = some (.interleave) := by
  decide +kernel
theorem test_decode_deinterleave :
    decodeTableWord 40 0b00001001_00000000_00000000_00000000_00000000 = some (.deinterleave) := by
  decide +kernel
theorem test_decode_split :
    decodeTableWord 40 0b00001010_00000000_00000000_00000000_00000000 = some (.split) := by
  decide +kernel
theorem test_decode_encodeFrame :
    decodeTableWord 40 0b00001011_10000000_00000000_00000000_11111111 = some (.encodeFrame 2147483903) := by
  decide +kernel
theorem test_decode_unknown : decode 0b00000000_00000000_00000000_00000000_00000000 = .error .unknownOpcode ∧
    decode 0b00001100_00000000_00000000_00000000_00000000 = .error .unknownOpcode ∧
    decode 0b11111111_00000000_00000000_00010010_00110100 = .error .unknownOpcode := by
  decide +kernel
theorem test_decode_reserved : decode 0b00000011_00000000_00000000_00000000_00000001 = .error .reservedArg ∧
    decode 0b00001010_10000000_00000000_00000000_00000000 = .error .reservedArg := by
  decide +kernel

/-! ### Small states -/

/-- The instance of 95_test_vectors.md, PSDU_MAX = 4095, right after reset. -/
def boot : State := State.resetOf 4095

/-- The next state of an outcome. -/
def nextOf : Host.Outcome State Fault Refusal → State
  | .next t => t
  | .fault _ => boot
  | .refused _ => boot

/-- After OFDM_PARAM and FRAME_PARAM. -/
def framed (c0 c1 c2 c3 : Nat) (len : Int) : State :=
  nextOf (exec (.frameParam len) (nextOf (exec (.ofdmParam c0 c1 c2 c3) boot)))

/-- A buffer loaded from cell 0 on and its LEN set, as `.load` of 95_test_vectors.md does. -/
def loaded (s : State) (b : BufId) (vs : List Nat) : State :=
  (s.writeCells b (numbered 0 (vs.map (BitVec.ofNat 8)))).setLen b vs.length

/-- The first `n` cells of a buffer as numbers. -/
def cellsOf (s : State) (b : BufId) (n : Nat) : List Nat := (List.range n).map fun i => (s.cell b i).toNat

/-- BPSK in every block, an empty payload: N_DATA_BITS 24, N_PAD 2, N_ENCODED_BITS 48. -/
def bpsk : State := framed 0 0 0 0 0

/-- The next state of one of the stage commands the witnesses below issue. -/
theorem nextOf_exec (i : Instr) (s : State) (hi : i ∈ [.assemble, .scramble 0x7F, .puncture, .split]) :
    exec i s = .next (nextOf (exec i s)) := by
  have fin : ∀ (op : Byte) (r : StageResult), finish op r = .next (nextOf (finish op r)) := by
    intro op r
    cases r <;> rfl
  simp only [List.mem_cons, List.not_mem_nil, or_false] at hi
  rcases hi with rfl | rfl | rfl | rfl <;> exact fin _ _

/-! ### One step of each command (95_test_vectors.md, sections 2.1 to 2.10) -/

theorem test_ofdmParam_mixed : let t := nextOf (exec (.ofdmParam 0 1 2 3) boot)
    t.regRead 0 = some 0x00000100 ∧ t.regRead 2 = some 1 ∧ t.regRead 3 = some 0x03020100 ∧
      t.regRead 4 = some 0x06040201 ∧ t.regRead 5 = some 3 ∧ t.regRead 6 = some 156 ∧ t.regRead 7 = some 78 := by
  decide +kernel
theorem test_ofdmParam_two_bad : let t := nextOf (exec (.ofdmParam 255 0 0 9) bpsk)
    t.regRead 0 = some 0x00010111 ∧ t.regRead 1 = some 0 ∧ t.regRead 2 = some 0 ∧ t.regRead 7 = some 0 := by
  decide +kernel
theorem test_frameParam_p2 : let t := framed 0 0 0 0 100
    t.regRead 0 = some 0x00000200 ∧ t.regRead 2 = some 3 ∧ t.regRead 8 = some 100 ∧ t.regRead 9 = some 35 ∧
      t.regRead 10 = some 840 ∧ t.regRead 11 = some 18 ∧ t.regRead 12 = some 1680 := by
  decide +kernel
theorem test_frameParam_negative_first : let t := framed 0 0 0 0 (-2147478648)
    t.regRead 0 = some 0x00020221 ∧ t.regRead 2 = some 1 ∧ t.regRead 8 = some 0 := by
  decide +kernel
theorem test_assemble_order : let t := nextOf (exec .assemble (loaded (framed 0 0 2 3 3) .psdu [0x12, 0x34, 0xFF]))
    t.regRead 0 = some 0x00000300 ∧ t.len .data = 72 ∧ cellsOf t .data 72 =
      [0, 0, 0, 0, 0, 0, 0, 0, 0, 0, 0, 0, 0, 0, 0, 0, 0, 1, 0, 0, 1, 0, 0, 0, 0, 0, 1, 0, 1, 1, 0, 0, 1, 1, 1, 1,
      1, 1, 1, 1, 0, 0, 0, 0, 0, 0, 0, 0, 0, 0, 0, 0, 0, 0, 0, 0, 0, 0, 0, 0, 0, 0, 0, 0, 0, 0, 0, 0, 0, 0, 0, 0] := by
  decide +kernel
theorem test_assemble_length : let t := nextOf (exec .assemble (loaded (framed 0 0 0 0 1) .psdu [0, 0, 0, 0, 0]))
    t.regRead 0 = some 0x00030324 ∧ t.regRead 1 = some 0 ∧ t.len .data = 0 := by
  decide +kernel
theorem test_scramble_data : let t := nextOf (exec (.scramble 0x2A) (loaded bpsk .data
      [1, 0, 1, 0, 1, 0, 1, 0, 1, 0, 1, 0, 1, 0, 1, 0, 1, 0, 1, 0, 1, 0, 1, 0]))
    t.regRead 0 = some 0x00000400 ∧ t.regRead 13 = some 0x38 ∧ cellsOf t .scr 24 =
      [0, 1, 0, 1, 0, 0, 0, 0, 1, 1, 1, 1, 1, 0, 1, 1, 0, 0, 0, 1, 0, 0, 1, 0] := by
  decide +kernel
theorem test_scramble_seed_range : let t := nextOf (exec (.scramble 0x80) (loaded bpsk .data (List.replicate 24 0)))
    t.regRead 0 = some 0x00040441 ∧ t.len .scr = 0 := by
  decide +kernel
theorem test_tailReset_reads_nothing : let t := nextOf (exec .tailReset (loaded bpsk .scr
      [1, 1, 1, 1, 1, 1, 1, 1, 1, 1, 1, 1, 1, 1, 1, 1, 7, 7, 7, 7, 7, 7, 1, 1]))
    t.regRead 0 = some 0x00000500 ∧ cellsOf t .scr 24 =
      [1, 1, 1, 1, 1, 1, 1, 1, 1, 1, 1, 1, 1, 1, 1, 1, 0, 0, 0, 0, 0, 0, 1, 1] := by
  decide +kernel
theorem test_convEncode_impulse : let t := nextOf (exec .convEncode (loaded bpsk .scr (1 :: List.replicate 23 0)))
    t.regRead 0 = some 0x00000600 ∧ t.regRead 14 = some 0 ∧
      cellsOf t .enc 48 = [1, 1, 0, 1, 1, 1, 1, 1, 0, 0, 1, 0, 1, 1] ++ List.replicate 34 0 := by
  decide +kernel
theorem test_convEncode_ones : let t := nextOf (exec .convEncode (loaded bpsk .scr (List.replicate 24 1)))
    t.regRead 14 = some 0x7F ∧
      cellsOf t .enc 48 = [1, 1, 1, 0, 0, 1, 1, 0, 1, 0, 0, 0] ++ List.replicate 36 1 := by
  decide +kernel
theorem test_puncture_keeps : let xs := (List.range 48).map fun i => if i % 3 = 0 then 1 else 0
    let t := nextOf (exec .puncture (loaded bpsk .enc xs))
    t.regRead 0 = some 0x00000700 ∧ t.len .pun = 48 ∧ cellsOf t .pun 48 = xs := by
  decide +kernel
theorem test_puncture_contract : let t := nextOf (exec .puncture (loaded bpsk .enc (3 :: List.replicate 47 0)))
    t.regRead 0 = some 0x00070712 ∧ t.regRead 1 = some 0 ∧ t.len .pun = 0 := by
  decide +kernel
theorem test_interleave_one : let t := nextOf (exec .interleave (loaded bpsk .pun (0 :: 1 :: List.replicate 46 0)))
    t.regRead 0 = some 0x00000800 ∧ cellsOf t .int 48 = [0, 0, 0, 1] ++ List.replicate 44 0 := by
  decide +kernel
theorem test_interleave_geometry : let t := nextOf (exec .interleave (loaded (framed 0 0 0 1 1) .pun (List.replicate 60 0)))
    t.regRead 0 = some 0x00080851 ∧ t.len .int = 0 := by
  decide +kernel
theorem test_deinterleave_one : let t := nextOf (exec .deinterleave (loaded bpsk .pun (0 :: 1 :: List.replicate 46 0)))
    t.regRead 0 = some 0x00000900 ∧ cellsOf t .int 48 = List.replicate 16 0 ++ 1 :: List.replicate 31 0 := by
  decide +kernel
theorem test_split_all_ones : let t := nextOf (exec .split (loaded (framed 0 1 2 3 0) .int (List.replicate 156 1)))
    t.regRead 0 = some 0x00000A00 ∧ t.len .sym = 48 ∧ cellsOf t .sym 48 =
      List.replicate 12 1 ++ List.replicate 12 3 ++ List.replicate 12 15 ++ List.replicate 12 63 := by
  decide +kernel

/-- 95_test_vectors.md, program 1, one step. -/
theorem test_encodeFrame_program1 : let t := nextOf (exec (.encodeFrame 0x5D) (loaded (framed 0 0 0 0 1) .psdu [0xA5]))
    t.regRead 0 = some 0x00000B00 ∧ t.len .sym = 96 ∧ cellsOf t .scr 48 =
      [0, 1, 1, 0, 1, 1, 0, 0, 0, 0, 0, 1, 1, 0, 0, 1, 0, 0, 0, 0, 1, 1, 0, 0, 0, 0, 0, 0, 0, 0, 1, 1, 0, 1, 1, 0,
      1, 0, 0, 0, 0, 1, 0, 1, 0, 1, 0, 1] ∧ cellsOf t .sym 24 =
      [0, 0, 1, 0, 0, 1, 1, 1, 1, 1, 0, 0, 1, 0, 0, 0, 1, 0, 1, 0, 0, 0, 0, 0] := by
  decide +kernel
theorem test_encodeFrame_fault_stage : let t := nextOf (exec (.encodeFrame 0x7F) (framed 0 0 0 1 0))
    t.regRead 0 = some 0x00080B51 ∧ t.len .pun = 60 ∧ t.len .int = 0 := by
  decide +kernel

/-! ### One step of the machine -/

theorem test_step_refusals :
    step (boot.setPending [.regWrite 15 0]) = .refused (.readOnlyRegister 15) ∧
      step (boot.setPending [.regRead 23]) = .refused (.noSuchRegister 23) ∧
      step (boot.setPending [.regWrite 16 4096]) = .refused (.lenAboveCapacity .psdu 4096) ∧
      step (boot.setPending [.bufRead 7 0]) = .refused (.noSuchBuffer 7) ∧
      step (boot.setPending [.bufWrite 0 4095 0]) = .refused (.noSuchCell .psdu 4095) ∧
      step (boot.setPending [.bufWrite 0 0 256]) = .refused (.cellValueTooLarge 256) ∧
      step (boot.setPending [.cmd 1099511627776]) = .refused (.commandWordTooLarge 1099511627776) :=
  ⟨rfl, rfl, rfl, rfl, rfl, rfl, rfl⟩
theorem test_step_runs_word : (nextOf (step (boot.withFetchWord 40 0x0103020100))).regRead 4 = some 0x06040201 := by
  decide +kernel
theorem test_step_illegal_word : (nextOf (step (bpsk.withFetchWord 40 0x0C00000000))).regRead 0 = some 0x00000C13 := by
  decide +kernel

/-! ### Witnesses: a concrete state and operands that meet all hypotheses of a statement together -/

/-- A 60-bit block size, no valid geometry. -/
def badGeo : State := framed 0 0 0 1 0

/-- The largest payload of the instance. -/
def biggest : State := framed 3 3 3 3 4095

theorem boot_regInv : RegInv boot :=
  ⟨fun _ => ⟨rfl, rfl⟩, by decide +kernel, by decide +kernel, fun _ => rfl, by decide +kernel,
    fun b => by cases b <;> decide +kernel⟩

theorem bpsk_regInv : RegInv bpsk :=
  ⟨by decide +kernel, by decide +kernel, by decide +kernel, by decide +kernel, by decide +kernel,
    fun b => by cases b <;> decide +kernel⟩

theorem badGeo_regInv : RegInv badGeo :=
  ⟨by decide +kernel, by decide +kernel, by decide +kernel, by decide +kernel, by decide +kernel,
    fun b => by cases b <;> decide +kernel⟩

theorem biggest_regInv : RegInv biggest :=
  ⟨by decide +kernel, by decide +kernel, by decide +kernel, by decide +kernel, by decide +kernel,
    fun b => by cases b <;> decide +kernel⟩

theorem loaded_regInv {s : State} (h : RegInv s) (b : BufId) (vs : List Nat) (hl : vs.length ≤ s.cap b) :
    RegInv (loaded s b vs) := by
  refine h.of_eq rfl rfl rfl ?_
  intro b'
  simp only [loaded, State.setLen_len, State.writeCells_len]
  split
  · rename_i e
    subst e
    exact le_trans (Nat.mod_le _ _) hl
  · exact h.lens b'

/-- A bit buffer of `bpsk` loaded with zeros. -/
def zeros (b : BufId) (n : Nat) : State := loaded bpsk b (List.replicate n 0)

theorem zeros_regInv : RegInv (zeros .data 24) ∧ RegInv (zeros .scr 24) ∧ RegInv (zeros .enc 48) ∧
    RegInv (zeros .pun 48) ∧ RegInv (zeros .int 48) :=
  ⟨loaded_regInv bpsk_regInv _ _ (by decide +kernel), loaded_regInv bpsk_regInv _ _ (by decide +kernel),
    loaded_regInv bpsk_regInv _ _ (by decide +kernel), loaded_regInv bpsk_regInv _ _ (by decide +kernel),
    loaded_regInv bpsk_regInv _ _ (by decide +kernel)⟩

theorem witness_DecodeOfEncode : (Instr.ofdmParam 255 0 255 3).wf = true ∧ (Instr.frameParam (-2147483648)).wf = true ∧
    (Instr.encodeFrame 4294967295).wf = true := by decide

theorem witness_EncodeOfDecode : decode 0x0BFFFFFFFF#40 = .ok (.encodeFrame 4294967295) ∧
    decode 0x02FFFFFFFF#40 = .ok (.frameParam (-1)) := by decide +kernel

theorem witness_StepRunsDecodedCommand :
    (boot.setPending [.cmd (0x0B0000005D#40).toNat]).pending = [.cmd (0x0B0000005D#40).toNat] ∧
      decode 0x0B0000005D#40 = .ok (.encodeFrame 0x5D) := by decide +kernel

theorem witness_IllegalCommandOnlyReports :
    (boot.setPending [.cmd (0x0C00000000#40).toNat]).pending = [.cmd (0x0C00000000#40).toNat] ∧
      0x0C ≤ (0x0C00000000#40 >>> 32).toNat ∧ (0x00FFFFFFFF#40 >>> 32).toNat = 0 ∧
      0x0C ≤ (0xFFFFFFFFFF#40 >>> 32).toNat ∧
      (0x0300000001#40 >>> 32).toNat ∈ [0x03, 0x05, 0x06, 0x07, 0x08, 0x09, 0x0A] ∧
      (0x0300000001#40).toNat % 2 ^ 32 ≠ 0 ∧
      (0x0A80000000#40 >>> 32).toNat ∈ [0x03, 0x05, 0x06, 0x07, 0x08, 0x09, 0x0A] ∧
      (0x0A80000000#40).toNat % 2 ^ 32 ≠ 0 := by decide +kernel

theorem witness_ResetInputClearsRegisters : (bpsk.setPending [.reset, .regRead 0]).pending = .reset :: [.regRead 0] :=
  rfl

/-- The codes of OfdmParamDerivesRecord at both ends of their range. -/
theorem witness_OfdmParamDerivesRecord : (0 ≤ 3 ∧ 3 ≤ 3) ∧
    nextOf (exec (.ofdmParam 0 3 0 3) boot) ≠ nextOf (exec (.ofdmParam 3 0 3 0) boot) := by decide +kernel

/-- Block 0 bad with all others bad, and only block 3 bad with the lowest bad code. -/
theorem witness_OfdmParamRejectsBadCode :
    (3 < [255, 4, 4, 9].getD 0 0 ∧ ∀ k < 0, [255, 4, 4, 9].getD k 0 ≤ 3) ∧
      (3 < [3, 0, 3, 4].getD 3 0 ∧ ∀ k < 3, [3, 0, 3, 4].getD k 0 ≤ 3) := by decide

theorem witness_FrameParamDerivesRecord : RegInv biggest ∧ biggest.ofdm.valid = true ∧ 4095 ≤ biggest.psduMax.val ∧
    0 ≤ biggest.psduMax.val := ⟨biggest_regInv, by decide +kernel, by decide +kernel, Nat.zero_le _⟩

/-- The lengths where the three clauses meet: -1, 0, PSDU_MAX, PSDU_MAX + 1. -/
theorem witness_PayloadLengthIsTested : bpsk.ofdm.valid = true ∧ (-1 : Int) < 0 ∧ (bpsk.psduMax.val : Int) < 4096 ∧
    (0 ≤ (4095 : Int) ∧ (4095 : Int) ≤ bpsk.psduMax.val) ∧ (0 : Int) ≤ bpsk.psduMax.val := by decide +kernel

theorem witness_ParameterChangesDiscardFrame :
    exec (.ofdmParam 4 0 0 0) bpsk =
      .next ((bpsk.discardFrame.setOfdm .none).faultEntry (.rbEncoding 0) 0x01 0x01) ∧
    (∃ t, exec (.frameParam 4096) bpsk = .next t) ∧ ∃ t, exec (.ofdmParam 0 1 2 3) bpsk = .next t :=
  ⟨rfl, ⟨_, rfl⟩, ⟨_, rfl⟩⟩

theorem witness_ParametersDependOnOperandsOnly : boot.psduMax = bpsk.psduMax ∧
    (∃ t, exec (.ofdmParam 0 1 2 3) boot = .next t) ∧ (∃ t, exec (.ofdmParam 0 1 2 3) biggest = .next t) ∧
    (loaded bpsk .psdu [7]).ofdm = bpsk.ofdm ∧ (∃ t, exec (.frameParam 1) (loaded bpsk .psdu [7]) = .next t) ∧
    ∃ t, exec (.frameParam 1) bpsk = .next t :=
  ⟨by decide +kernel, ⟨_, rfl⟩, ⟨_, rfl⟩, rfl, ⟨_, rfl⟩, ⟨_, rfl⟩⟩

theorem witness_AssembleLaysOutFrame : RegInv bpsk ∧ bpsk.frame.valid = true ∧
    bpsk.len .psdu = bpsk.frame.psduSize.toNat := ⟨bpsk_regInv, by decide +kernel, by decide +kernel⟩

theorem zeros_isBits : IsBits (zeros .data 24) .data 24 ∧ IsBits (zeros .scr 24) .scr 24 ∧
    IsBits (zeros .enc 48) .enc 48 ∧ IsBits (zeros .pun 48) .pun 48 ∧ IsBits (zeros .int 48) .int 48 := by
  unfold IsBits
  decide +kernel

theorem zeros_frame (b : BufId) (n : Nat) : (zeros b n).frame = bpsk.frame ∧ (zeros b n).ofdm = bpsk.ofdm := ⟨rfl, rfl⟩

theorem bpsk_frame : bpsk.frame.valid = true ∧ bpsk.frame.nDataBits.toNat = 24 ∧ bpsk.frame.nEncodedBits.toNat = 48 ∧
    bpsk.frame.nSym.toNat = 1 ∧ bpsk.ofdm.nCbps.toNat = 48 := by decide +kernel

/-- For ScrambleAddsKeystream, ScrambleSeedZeroCopies and TailIsZeroWhateverTheSeed, with the seeds 0 and 127. -/
theorem witness_Scramble : RegInv (zeros .data 24) ∧ (zeros .data 24).frame.valid = true ∧
    (zeros .data 24).len .data = (zeros .data 24).frame.nDataBits.toNat ∧ 127 ≤ 127 ∧ 0 ≤ 127 ∧
    IsBits (zeros .data 24) .data (zeros .data 24).frame.nDataBits.toNat := by
  refine ⟨zeros_regInv.1, bpsk_frame.1, by decide +kernel, le_refl _, Nat.zero_le _, ?_⟩
  rw [(zeros_frame .data 24).1, bpsk_frame.2.1]
  exact zeros_isBits.1

/-- The output of one SCRAMBLE, copied back into DATA. -/
def copiedBack : State :=
  loaded bpsk .data (cellsOf (nextOf (exec (.scramble 0x7F) (zeros .data 24))) .scr 24)

theorem witness_ScrambleIsSelfInverse : (zeros .data 24).frame.valid = true ∧
    exec (.scramble 0x7F) (zeros .data 24) = .next (nextOf (exec (.scramble 0x7F) (zeros .data 24))) ∧
    copiedBack.frame = (zeros .data 24).frame ∧
    copiedBack.len .data = (nextOf (exec (.scramble 0x7F) (zeros .data 24))).len .scr ∧
    ∀ i < (nextOf (exec (.scramble 0x7F) (zeros .data 24))).len .scr,
      copiedBack.cell .data i = (nextOf (exec (.scramble 0x7F) (zeros .data 24))).cell .scr i :=
  ⟨bpsk_frame.1, nextOf_exec _ _ (by decide), rfl, by decide +kernel, by decide +kernel⟩

theorem witness_TailResetZeroesSixCells : (zeros .scr 24).frame.valid = true ∧
    (zeros .scr 24).len .scr = (zeros .scr 24).frame.nDataBits.toNat := ⟨bpsk_frame.1, by decide +kernel⟩

theorem witness_ConvEncodeEmitsParities : RegInv (zeros .scr 24) ∧ (zeros .scr 24).frame.valid = true ∧
    (zeros .scr 24).len .scr = (zeros .scr 24).frame.nDataBits.toNat ∧
    IsBits (zeros .scr 24) .scr (zeros .scr 24).frame.nDataBits.toNat := by
  refine ⟨zeros_regInv.2.1, bpsk_frame.1, by decide +kernel, ?_⟩
  rw [(zeros_frame .scr 24).1, bpsk_frame.2.1]
  exact zeros_isBits.2.1

theorem witness_ConvEncoderIsLinear : [true, false, true].length = [false, false, true].length := rfl

theorem witness_PunctureKeepsEveryBit : (zeros .enc 48).frame.valid = true ∧
    (zeros .enc 48).len .enc = 2 * (zeros .enc 48).frame.nDataBits.toNat ∧
    IsBits (zeros .enc 48) .enc (2 * (zeros .enc 48).frame.nDataBits.toNat) := by
  refine ⟨bpsk_frame.1, by decide +kernel, ?_⟩
  rw [(zeros_frame .enc 48).1, bpsk_frame.2.1]
  exact zeros_isBits.2.2.1

theorem witness_DestIsColumnTranspose : 0 < 1 ∧ 15 < 16 * 1 := by decide

/-- Both ends of the sums of FiveGeometriesAreValid. -/
theorem witness_FiveGeometriesAreValid : (4 ≤ 24 ∧ 24 ≤ 24) ∧ ((4 ≤ 4 ∧ 4 ≤ 20) ∨ 4 = 22 ∨ 4 = 24) := by decide

/-- For InterleavePermutesBlocks, DeinterleaveInvertsAssignment and InterleaverRoundTrip. -/
theorem witness_Interleave : RegInv (zeros .pun 48) ∧ (zeros .pun 48).frame.valid = true ∧
    (zeros .pun 48).len .pun = (zeros .pun 48).frame.nEncodedBits.toNat ∧
    (zeros .pun 48).ofdm.nCbps.toNat ∈ validBlockSizes ∧
    IsBits (zeros .pun 48) .pun (zeros .pun 48).frame.nEncodedBits.toNat := by
  refine ⟨zeros_regInv.2.2.2.1, bpsk_frame.1, by decide +kernel, by decide +kernel, ?_⟩
  rw [(zeros_frame .pun 48).1, bpsk_frame.2.2.1]
  exact zeros_isBits.2.2.2.1

/-- The second half of InterleaverRoundTrip: the result copied back into PUN. -/
theorem witness_InterleaverRoundTrip : let t := nextOf (exec .interleave (zeros .pun 48))
    let u := loaded (zeros .pun 48) .pun (cellsOf t .int 48)
    u.ofdm = (zeros .pun 48).ofdm ∧ u.frame = (zeros .pun 48).frame ∧ u.len .pun = t.len .int ∧
      ∀ i < t.len .int, u.cell .pun i = t.cell .int i :=
  ⟨rfl, rfl, by decide +kernel, by decide +kernel⟩

theorem witness_SplitPacksSymbols : RegInv (zeros .int 48) ∧ (zeros .int 48).frame.valid = true ∧
    (zeros .int 48).len .int = (zeros .int 48).frame.nEncodedBits.toNat ∧
    IsBits (zeros .int 48) .int (zeros .int 48).frame.nEncodedBits.toNat := by
  refine ⟨zeros_regInv.2.2.2.2, bpsk_frame.1, by decide +kernel, ?_⟩
  rw [(zeros_frame .int 48).1, bpsk_frame.2.2.1]
  exact zeros_isBits.2.2.2.2

/-- Two successful SPLITs with the same parameters, whose INT buffers differ in the last bit of the one block. -/
theorem witness_SplitConsumesWholeBlocks : let u := loaded bpsk .int (List.replicate 47 0 ++ [1])
    RegInv (zeros .int 48) ∧ (zeros .int 48).ofdm.valid = true ∧ (zeros .int 48).frame.valid = true ∧
      (List.replicate 48 true).length = (zeros .int 48).frame.nEncodedBits.toNat ∧
      u.ofdm = (zeros .int 48).ofdm ∧ u.frame = (zeros .int 48).frame ∧
      exec .split (zeros .int 48) = .next (nextOf (exec .split (zeros .int 48))) ∧
      exec .split u = .next (nextOf (exec .split u)) ∧
      (nextOf (exec .split (zeros .int 48))).status.code = 0 ∧ (nextOf (exec .split u)).status.code = 0 ∧
      0 < (zeros .int 48).frame.nSym.toNat ∧
      (nextOf (exec .split u)).cell .sym 47 ≠ (nextOf (exec .split (zeros .int 48))).cell .sym 47 :=
  ⟨zeros_regInv.2.2.2.2, by decide +kernel, bpsk_frame.1, by decide +kernel, rfl, rfl, nextOf_exec _ _ (by decide),
    nextOf_exec _ _ (by decide), by decide +kernel, by decide +kernel, by decide +kernel, by decide +kernel⟩

theorem witness_SymbolsStayInRange : RegInv (zeros .int 48) ∧
    exec .split (zeros .int 48) = .next (nextOf (exec .split (zeros .int 48))) ∧
    (nextOf (exec .split (zeros .int 48))).status.code = 0 ∧ 0 < (zeros .int 48).frame.nSym.toNat ∧ 47 < 48 :=
  ⟨zeros_regInv.2.2.2.2, nextOf_exec _ _ (by decide), by decide +kernel, by decide +kernel, by decide⟩

theorem witness_EncodeFrameIsSevenCommands : RegInv bpsk ∧ bpsk.frame.valid = true ∧
    bpsk.len .psdu = bpsk.frame.psduSize.toNat ∧ 127 ≤ 127 ∧ bpsk.ofdm.nCbps.toNat ∈ validBlockSizes :=
  ⟨bpsk_regInv, bpsk_frame.1, by decide +kernel, le_refl _, by decide +kernel⟩

/-- A state for each branch of EncodeFrameFaults: no FrameParam, a wrong LEN_PSDU, a seed of 128 and a seed of 127. -/
theorem witness_EncodeFrameFaults : (RegInv boot ∧ boot.frame.valid = false) ∧
    (RegInv biggest ∧ biggest.frame.valid = true ∧ biggest.len .psdu ≠ biggest.frame.psduSize.toNat) ∧
    (RegInv bpsk ∧ bpsk.frame.valid = true ∧ bpsk.len .psdu = bpsk.frame.psduSize.toNat ∧ 127 < 128) ∧
    (RegInv badGeo ∧ badGeo.frame.valid = true ∧ badGeo.len .psdu = badGeo.frame.psduSize.toNat ∧ ¬ 127 < 127 ∧
      badGeo.ofdm.nCbps.toNat ∉ validBlockSizes) :=
  ⟨⟨boot_regInv, rfl⟩, ⟨biggest_regInv, by decide +kernel, by decide +kernel⟩,
    ⟨bpsk_regInv, bpsk_frame.1, by decide +kernel, by decide⟩,
    ⟨badGeo_regInv, by decide +kernel, by decide +kernel, by decide, by decide +kernel⟩⟩

theorem witness_FrameDependsOnPayloadOnly : let u := (zeros .pun 48).setScrState 0x55
    RegInv bpsk ∧ bpsk.ofdm = u.ofdm ∧ bpsk.frame = u.frame ∧ bpsk.len .psdu = u.len .psdu ∧
      ∀ i < bpsk.len .psdu, bpsk.cell .psdu i = u.cell .psdu i :=
  ⟨bpsk_regInv, rfl, rfl, by decide +kernel, by decide +kernel⟩

theorem witness_SequenceFaults : boot.ofdm.valid = false ∧ boot.frame.valid = false ∧
    stageTable boot .split = some (.int, boot.frame.nEncodedBits.toNat, .sym) ∧ bpsk.frame.valid = true ∧
    stageTable bpsk .puncture = some (.enc, 2 * bpsk.frame.nDataBits.toNat, .pun) ∧
    bpsk.len .enc ≠ 2 * bpsk.frame.nDataBits.toNat := ⟨rfl, rfl, rfl, bpsk_frame.1, rfl, by decide +kernel⟩

theorem witness_ConfigFaults : RegInv badGeo ∧ badGeo.ofdm.valid = true ∧ badGeo.frame.valid = true ∧
    badGeo.ofdm.nCbps.toNat ∉ validBlockSizes ∧ badGeo.len .psdu = badGeo.frame.psduSize.toNat ∧
    (badGeo.psduMax.val : Int) < 4096 ∧ 127 < 128 ∧
    RegInv (loaded badGeo .data (List.replicate 30 0)) ∧
    (loaded badGeo .data (List.replicate 30 0)).len .data = badGeo.frame.nDataBits.toNat ∧
    RegInv (loaded badGeo .pun (List.replicate 60 0)) ∧
    (loaded badGeo .pun (List.replicate 60 0)).len .pun = badGeo.frame.nEncodedBits.toNat :=
  ⟨badGeo_regInv, by decide +kernel, by decide +kernel, by decide +kernel, by decide +kernel, by decide +kernel,
    by decide, loaded_regInv badGeo_regInv _ _ (by decide +kernel), by decide +kernel,
    loaded_regInv badGeo_regInv _ _ (by decide +kernel), by decide +kernel⟩

/-- The last clause of ConfigFaults. -/
theorem witness_ConfigFaults_report : exec (.frameParam (-1)) bpsk = .next (bpsk.discardFrame.faultEntry .psduNegative
    0x02 0x02) ∧ (bpsk.discardFrame.faultEntry .psduNegative 0x02 0x02).status.code = 1 := ⟨rfl, rfl⟩

/-- The highest cell of PUN holds 2, the lowest of DATA holds 255. -/
theorem witness_ContractFaults : let s := loaded bpsk .pun (List.replicate 47 0 ++ [2])
    let u := loaded bpsk .data (255 :: List.replicate 23 0)
    (RegInv s ∧ s.frame.valid = true ∧ stageTable s .interleave = some (.pun, s.frame.nEncodedBits.toNat, .int) ∧
      s.len .pun = s.frame.nEncodedBits.toNat ∧ s.ofdm.nCbps.toNat ∈ validBlockSizes ∧
      1 < (s.cell .pun 47).toNat ∧ ∀ j < 47, (s.cell .pun j).toNat ≤ 1) ∧
    (RegInv u ∧ u.frame.valid = true ∧ stageTable u (.scramble 127) = some (.data, u.frame.nDataBits.toNat, .scr) ∧
      u.len .data = u.frame.nDataBits.toNat ∧ 1 < (u.cell .data 0).toNat) ∧
    (RegInv bpsk ∧ stageTable bpsk .assemble = some (.psdu, bpsk.frame.psduSize.toNat, .data) ∧
      bpsk.len .psdu = bpsk.frame.psduSize.toNat) :=
  ⟨⟨loaded_regInv bpsk_regInv _ _ (by decide +kernel), bpsk_frame.1, rfl, by decide +kernel, by decide +kernel,
      by decide +kernel, by decide +kernel⟩,
    ⟨loaded_regInv bpsk_regInv _ _ (by decide +kernel), bpsk_frame.1, rfl, by decide +kernel, by decide +kernel⟩,
    ⟨bpsk_regInv, rfl, by decide +kernel⟩⟩

theorem witness_StagesWriteOnlyBits : RegInv (zeros .enc 48) ∧
    stageTable (zeros .enc 48) .puncture = some (.enc, 2 * (zeros .enc 48).frame.nDataBits.toNat, .pun) ∧
    BufId.pun ≠ .sym ∧ exec .puncture (zeros .enc 48) = .next (nextOf (exec .puncture (zeros .enc 48))) ∧
    (nextOf (exec .puncture (zeros .enc 48))).status.code = 0 ∧
    (RegInv (zeros .scr 24) ∧ IsBits (zeros .scr 24) .scr ((zeros .scr 24).len .scr) ∧
      (nextOf (exec .tailReset (zeros .scr 24))).status.code = 0) := by
  refine ⟨zeros_regInv.2.2.1, rfl, by decide, nextOf_exec _ _ (by decide), by decide +kernel, zeros_regInv.2.1, ?_,
    by decide +kernel⟩
  rw [show (zeros .scr 24).len .scr = 24 by decide +kernel]
  exact zeros_isBits.2.1

/-- For StatusReportsCommand, NoCommandTouchesPayload and ShiftRegistersCarryNothing. -/
theorem witness_exec_next : exec .assemble bpsk = .next (nextOf (exec .assemble bpsk)) ∧
    (nextOf (exec .assemble bpsk)).status.code = 0 ∧ exec .split boot = .next (nextOf (exec .split boot)) ∧
    (nextOf (exec .split boot)).status.code ≠ 0 ∧
    (nextOf (exec .convEncode bpsk)).faultInfo ≠ 0 :=
  ⟨nextOf_exec _ _ (by decide), by decide +kernel, nextOf_exec _ _ (by decide), by decide +kernel, by decide +kernel⟩

theorem witness_OnlyDestinationBufferChanges : stageTable bpsk .assemble =
    some (.psdu, bpsk.frame.psduSize.toNat, .data) ∧ exec .assemble bpsk = .next (nextOf (exec .assemble bpsk)) :=
  ⟨rfl, nextOf_exec _ _ (by decide)⟩

/-- The last register and the first that does not exist, the highest cell and the first beyond. -/
theorem witness_RefusedAccesses : (boot.setPending [.regRead 23]).pending = [.regRead 23] ∧
    ¬ (HostAct.regRead 23).Defined boot.cap ∧ (HostAct.regRead 22).Defined boot.cap ∧
    (HostAct.bufRead 0 4094).Defined boot.cap ∧ (HostAct.regWrite 16 4095).Defined boot.cap ∧
    (HostAct.bufWrite 0 4094 255).Defined boot.cap ∧ (HostAct.cmd 1099511627775).Defined boot.cap ∧
    decode 0xFFFFFFFFFF#40 = .error .unknownOpcode :=
  ⟨rfl, by simp [HostAct.Defined], by simp [HostAct.Defined], ⟨.psdu, rfl, by decide +kernel⟩,
    ⟨.psdu, rfl, by decide +kernel⟩, ⟨.psdu, rfl, by decide +kernel, by decide⟩, by simp [HostAct.Defined],
    by decide +kernel⟩

theorem witness_HostAccesses :
    (boot.setPending [.regRead 15]).pending = [.regRead 15] ∧ boot.regRead 15 = some 0 ∧
      (boot.setPending [.bufRead (BufId.id .sym) 0]).pending = [.bufRead (BufId.id .sym) 0] ∧ 0 < boot.cap .sym ∧
      (boot.setPending [.regWrite (16 + BufId.id .psdu) 4095]).pending = [.regWrite (16 + BufId.id .psdu) 4095] ∧
      4095 ≤ boot.cap .psdu ∧
      (boot.setPending [.bufWrite (BufId.id .psdu) 4094 255]).pending = [.bufWrite (BufId.id .psdu) 4094 255] ∧
      4094 < boot.cap .psdu ∧ 255 < 256 :=
  ⟨rfl, rfl, rfl, by decide +kernel, rfl, by decide +kernel, rfl, by decide +kernel, by decide⟩

theorem boot_storageInv : StorageInv boot :=
  ⟨fun b => by cases b <;> decide, fun b c hc => by (cases b <;> cases hc), fun b => by cases b <;> decide +kernel⟩

theorem withPending_inv {s : State} (hr : RegInv s) (hs : StorageInv s) (as : List HostAct) :
    RegInv (s.setPending as) ∧ StorageInv (s.setPending as) :=
  ⟨hr.of_eq rfl rfl rfl hr.lens, hs.of_eq (fun _ => rfl) (fun _ => rfl) rfl rfl⟩

/-- For StepKeepsParameterInvariants and StepKeepsStorageCanonical: a step that executes a command. -/
theorem witness_StepKeeps : let s := boot.setPending [.cmd 0x0103020100]
    RegInv s ∧ StorageInv s ∧ step s = .next (nextOf (step s)) :=
  ⟨(withPending_inv boot_regInv boot_storageInv _).1, (withPending_inv boot_regInv boot_storageInv _).2, rfl⟩

end Sys2Proof.Tests
end

section
/-! SUPPORT. Scope (spec/00_scope.md R10): a step executes the command the host issues, and every command completes. -/

namespace Sys2Proof.Machine

/-! ### The step that issues a legal command word -/

theorem step_of_pending {s : State} {a : HostAct} {rest : List HostAct} (h : s.pending = a :: rest) :
    step s = perform exec a (s.setPending rest) := by
  simp only [step, h]

/-- `HostCmd` of a 40-bit word is in its domain, and the word it issues is that word (20_memory.md R50). -/
theorem perform_cmd (run : Instr → State → Host.Outcome State Fault Refusal) (cw : CommandWord) (s : State) :
    perform run (.cmd cw.toNat) s = issue run cw (s.setReply none) := by
  simp only [perform, if_pos cw.isLt, BitVec.ofNat_toNat, BitVec.setWidth_eq]

theorem issue_of_decode_ok {run : Instr → State → Host.Outcome State Fault Refusal} {cw : CommandWord} {i : Instr}
    (s : State) (h : decode cw = .ok i) : issue run cw s = run i s := by
  simp only [issue, h]

/-- Settles O4: take the primitive off the list, then issue the word, then run what it decodes to. -/
theorem stepRunsDecodedCommand : Obligations.StepRunsDecodedCommand := by
  intro s cw rest i hp hd
  calc step s
      = perform exec (.cmd cw.toNat) (s.setPending rest) := step_of_pending hp
    _ = issue exec cw ((s.setPending rest).setReply none) := perform_cmd _ _ _
    _ = exec i ((s.setPending rest).setReply none) := issue_of_decode_ok _ hd

/-! ### The commands that are no plain stage, per outcome (40_parameters.md R91, R94; 45_encode_frame.md R147) -/

theorem exec_ofdmParam_of_error {c0 c1 c2 c3 b : Nat} (s : State) (h : RbAssignment.ofCodes c0 c1 c2 c3 = .error b) :
    exec (.ofdmParam c0 c1 c2 c3) s =
      .next ((s.discardFrame.setOfdm .none).faultEntry (.rbEncoding b) 0x01 0x01) := by
  simp only [exec, execOfdmParam, h]

theorem exec_ofdmParam_of_ok {c0 c1 c2 c3 : Nat} {a : RbAssignment} (s : State)
    (h : RbAssignment.ofCodes c0 c1 c2 c3 = .ok a) :
    exec (.ofdmParam c0 c1 c2 c3) s =
      .next ((s.discardFrame.setOfdm (.derive c0 c1 c2 c3 a)).succeed 0x01) := by
  simp only [exec, execOfdmParam, h]

theorem exec_frameParam_of_some {s : State} {len : Int} {c : FaultCause} (h : s.needPayload len = some c) :
    exec (.frameParam len) s = .next (s.discardFrame.faultEntry c 0x02 0x02) := by
  simp only [exec, execFrameParam, h]

theorem exec_frameParam_of_none {s : State} {len : Int} (h : s.needPayload len = none) :
    exec (.frameParam len) s = .next ((s.discardFrame.setFrame
      (.derive len.toNat s.ofdm.nDbps.toNat s.ofdm.nCbps.toNat)).succeed 0x02) := by
  simp only [exec, execFrameParam, h]

theorem exec_encodeFrame_of_needFrame {s : State} {c : FaultCause} (seed : Nat) (h : s.needFrame = some c) :
    exec (.encodeFrame seed) s = .next (s.faultEntry c 0x0B 0x0B) := by
  simp only [exec, execEncodeFrame, h]

/-! ### Completion -/

/-- The end of a command is a next state, whether its stages completed or raised a fault (60_exceptions.md R171). -/
theorem finish_completes (op : Byte) (r : StageResult) : ∃ t, finish op r = .next t := by
  obtain ⟨_, _, e⟩ | ⟨_, _, _, _, e⟩ := finish_cases op r
  · exact ⟨_, e⟩
  · exact ⟨_, e⟩

theorem exec_ofdmParam_completes (c0 c1 c2 c3 : Nat) (s : State) : ∃ t, exec (.ofdmParam c0 c1 c2 c3) s = .next t := by
  cases h : RbAssignment.ofCodes c0 c1 c2 c3 with
  | error b => exact ⟨_, exec_ofdmParam_of_error s h⟩
  | ok a => exact ⟨_, exec_ofdmParam_of_ok s h⟩

theorem exec_frameParam_completes (len : Int) (s : State) : ∃ t, exec (.frameParam len) s = .next t := by
  cases h : s.needPayload len with
  | some c => exact ⟨_, exec_frameParam_of_some h⟩
  | none => exact ⟨_, exec_frameParam_of_none h⟩

theorem exec_encodeFrame_completes (seed : Nat) (s : State) : ∃ t, exec (.encodeFrame seed) s = .next t := by
  cases h : s.needFrame with
  | some c => exact ⟨_, exec_encodeFrame_of_needFrame seed h⟩
  | none =>
    rw [exec_encodeFrame_of_frame (State.needFrame_eq_none.mp h)]
    exact finish_completes _ _

/-- Settles O42: the two parameter commands and ENCODE_FRAME complete on each branch of their tests, and each of the
eight stage commands is the report of its stage. -/
theorem everyCommandCompletes : Obligations.EveryCommandCompletes := by
  intro i s
  obtain ⟨assemble, scramble, tailReset, convEncode, puncture, interleave, deinterleave, split⟩ := exec_of_stage s
  cases i with
  | ofdmParam c0 c1 c2 c3 => exact exec_ofdmParam_completes c0 c1 c2 c3 s
  | frameParam len => exact exec_frameParam_completes len s
  | assemble => exact assemble ▸ finish_completes _ _
  | scramble seed => exact scramble seed ▸ finish_completes _ _
  | tailReset => exact tailReset ▸ finish_completes _ _
  | convEncode => exact convEncode ▸ finish_completes _ _
  | puncture => exact puncture ▸ finish_completes _ _
  | interleave => exact interleave ▸ finish_completes _ _
  | deinterleave => exact deinterleave ▸ finish_completes _ _
  | split => exact split ▸ finish_completes _ _
  | encodeFrame seed => exact exec_encodeFrame_completes seed s

end Sys2Proof.Machine
end

section
/-! SUPPORT. What a step can do, said once, and the two invariants that every step keeps (spec/10_state.md R39, R40,
R43, R44). -/

namespace Sys2Proof.Machine

/-! ### What a step can do -/

/-- What one action from outside can make of the state it is performed on (20_memory.md R50, 30_encoding.md R76,
70_reset_and_hazards.md R190). -/
inductive ActionEffect (s : State) : State → Prop
  /-- A legal command word runs. -/
  | command {i : Instr} {t : State} (h : exec i (s.setReply none) = .next t) : ActionEffect s t
  /-- An illegal command word only reports. -/
  | illegal (c : FaultCause) (op : Byte) : ActionEffect s ((s.setReply none).faultEntry c op 0)
  /-- A read returns its value. -/
  | read (r : HostReply) : ActionEffect s (s.setReply (some r))
  /-- A LEN register takes a value up to the capacity of its buffer. -/
  | lenWrite (b : BufId) {n : Nat} (h : n ≤ s.cap b) : ActionEffect s ((s.setLen b n).setReply none)
  /-- A cell below the capacity takes a value. -/
  | cellWrite (b : BufId) {i : Nat} (v : Byte) (h : i < s.cap b) :
      ActionEffect s ((s.writeCells b [(i, v)]).setReply none)
  /-- The reset input. -/
  | reset : ActionEffect s s.externalReset

theorem issue_effect {cw : CommandWord} {s t : State} (h : issue exec cw (s.setReply none) = .next t) :
    ActionEffect s t := by
  cases hd : decode cw with
  | ok i =>
    rw [issue_of_decode_ok _ hd] at h
    exact .command h
  | error e =>
    simp only [issue, hd, Host.Outcome.next.injEq] at h
    exact h ▸ .illegal _ _

/-- An action that is not refused has one of these effects. -/
theorem perform_effect {a : HostAct} {s t : State} (h : perform exec a s = .next t) : ActionEffect s t := by
  cases a with
  | cmd cw =>
    simp only [perform] at h
    split at h
    · exact issue_effect h
    · cases h
  | regRead n =>
    simp only [perform] at h
    split at h <;> cases h
    exact .read _
  | regWrite n v =>
    simp only [perform] at h
    split at h
    · cases h
    · split at h
      · cases h
      · split at h <;> cases h
        exact .lenWrite _ ‹_›
  | bufRead b i =>
    simp only [perform] at h
    split at h
    · cases h
    · split at h <;> cases h
      exact .read _
  | bufWrite b i v =>
    simp only [perform] at h
    split at h
    · cases h
    · split at h
      · cases h
      · split at h <;> cases h
        exact .cellWrite _ _ (Nat.lt_of_not_le ‹_›)
  | reset =>
    cases h
    exact .reset

/-- Everything a step can do: nothing where nothing is pending, else the effect of the action it takes off. -/
theorem step_effect {s t : State} (h : step s = .next t) : t = s ∨ ∃ rest, ActionEffect (s.setPending rest) t := by
  cases hp : s.pending with
  | nil =>
    simp only [step, hp, Host.Outcome.next.injEq] at h
    exact .inl h.symm
  | cons a rest =>
    rw [step_of_pending hp] at h
    exact .inr ⟨rest, perform_effect h⟩

/-! ### What the commands that are no plain stage can do -/

/-- OFDM_PARAM, on a code above 3 and on an assignment (40_parameters.md R91). -/
theorem exec_ofdmParam_cases {s t : State} {c0 c1 c2 c3 : Nat} (e : exec (.ofdmParam c0 c1 c2 c3) s = .next t) :
    (∃ b, RbAssignment.ofCodes c0 c1 c2 c3 = .error b ∧
        t = (s.discardFrame.setOfdm .none).faultEntry (.rbEncoding b) 0x01 0x01) ∨
      ∃ a, RbAssignment.ofCodes c0 c1 c2 c3 = .ok a ∧
        t = (s.discardFrame.setOfdm (.derive c0 c1 c2 c3 a)).succeed 0x01 := by
  cases hc : RbAssignment.ofCodes c0 c1 c2 c3 with
  | error b =>
    rw [exec_ofdmParam_of_error s hc] at e
    cases e
    exact .inl ⟨b, rfl, rfl⟩
  | ok a =>
    rw [exec_ofdmParam_of_ok s hc] at e
    cases e
    exact .inr ⟨a, rfl, rfl⟩

/-- FRAME_PARAM, on its first failing test and on a payload length (40_parameters.md R94). -/
theorem exec_frameParam_cases {s t : State} {len : Int} (e : exec (.frameParam len) s = .next t) :
    (∃ c, s.needPayload len = some c ∧ t = s.discardFrame.faultEntry c 0x02 0x02) ∨
      (s.needPayload len = none ∧
        t = (s.discardFrame.setFrame (.derive len.toNat s.ofdm.nDbps.toNat s.ofdm.nCbps.toNat)).succeed 0x02) := by
  cases hc : s.needPayload len with
  | some c =>
    rw [exec_frameParam_of_some hc] at e
    cases e
    exact .inl ⟨c, rfl, rfl⟩
  | none =>
    rw [exec_frameParam_of_none hc] at e
    cases e
    exact .inr ⟨rfl, rfl⟩

/-- ENCODE_FRAME, without and with a FrameParam (45_encode_frame.md R147). -/
theorem exec_encodeFrame_cases {s t : State} {seed : Nat} (e : exec (.encodeFrame seed) s = .next t) :
    (∃ c, s.needFrame = some c ∧ t = s.faultEntry c 0x0B 0x0B) ∨
      (s.frame.valid = true ∧ finish 0x0B (chainStages seed s.clearStageLens) = .next t) := by
  cases hf : s.needFrame with
  | some c =>
    rw [exec_encodeFrame_of_needFrame seed hf] at e
    cases e
    exact .inl ⟨c, rfl, rfl⟩
  | none =>
    have hv := State.needFrame_eq_none.mp hf
    exact .inr ⟨hv, exec_encodeFrame_of_frame hv ▸ e⟩

/-! ### Properties that the buffer updates keep -/

/-- `P` speaks of the parameters, the buffers and the event counter only, and every update of a buffer that stays within
its capacity keeps it. -/
structure UpdateClosed (P : State → Prop) : Prop where
  congr : ∀ {s t : State}, P s → t.psduMax = s.psduMax → t.ofdm = s.ofdm → t.frame = s.frame → t.bufs = s.bufs →
    t.freeCount = s.freeCount → P t
  write : ∀ {s : State} {b : BufId} {ws : List Host.Cell}, P s → (∀ c ∈ ws, c.1 < s.cap b) → P (s.writeCells b ws)
  len : ∀ {s : State} {b : BufId} {n : Nat}, P s → n ≤ s.cap b → P (s.setLen b n)
  lose : ∀ {s : State} (b : BufId), P s → P (s.loseBuf b)
  clear : ∀ {s : State}, P s → P s.clearStageLens

theorem UpdateClosed.and {P Q : State → Prop} (hP : UpdateClosed P) (hQ : UpdateClosed Q) :
    UpdateClosed fun s => P s ∧ Q s where
  congr h h1 h2 h3 h4 h5 := ⟨hP.congr h.1 h1 h2 h3 h4 h5, hQ.congr h.2 h1 h2 h3 h4 h5⟩
  write h hw := ⟨hP.write h.1 hw, hQ.write h.2 hw⟩
  len h hn := ⟨hP.len h.1 hn, hQ.len h.2 hn⟩
  lose b h := ⟨hP.lose b h.1, hQ.lose b h.2⟩
  clear h := ⟨hP.clear h.1, hQ.clear h.2⟩

/-- What the completed stages do to their destination: assignments below the capacity, then LEN. -/
theorem UpdateClosed.fill {P : State → Prop} (hP : UpdateClosed P) {s : State} (h : P s) {b : BufId}
    {ws : List Host.Cell} {n : Nat} (hw : ∀ c ∈ ws, c.1 < s.cap b) (hn : n ≤ s.cap b) :
    P ((s.writeCells b ws).setLen b n) :=
  hP.len (hP.write h hw) hn

theorem numbered_zero_lt {vs : List Byte} {n : Nat} (h : vs.length ≤ n) : ∀ c ∈ numbered 0 vs, c.1 < n := by
  intro c hc
  have := numbered_lt hc
  omega

theorem UpdateClosed.finish {P : State → Prop} (hP : UpdateClosed P) {op : Byte} {r : StageResult} {t : State}
    (h : r.All P) (e : Machine.finish op r = .next t) : P t := by
  cases r with
  | done s =>
    cases e
    exact hP.congr h rfl rfl rfl rfl rfl
  | raised g c s =>
    cases e
    exact hP.congr h rfl rfl rfl rfl rfl

/-! ### The stages -/

/-- The stage of each of the eight stage commands (20_memory.md R64). -/
def stageOf : Instr → Option (State → StageResult)
  | .ofdmParam _ _ _ _ => none
  | .frameParam _ => none
  | .assemble => some assembleStage
  | .scramble seed => some (scrambleStage seed)
  | .tailReset => some tailResetStage
  | .convEncode => some convEncodeStage
  | .puncture => some punctureStage
  | .interleave => some interleaveStage
  | .deinterleave => some deinterleaveStage
  | .split => some splitStage
  | .encodeFrame _ => none

/-- A stage command is its stage and the report. -/
theorem exec_of_stageOf {i : Instr} {f : State → StageResult} (h : stageOf i = some f) (s : State) :
    exec i s = finish i.opcode (f s) := by
  cases i <;> cases h <;> rfl

/-- The sizes of a frame against the layout of DATA and the capacities (00_scope.md R7, 41_assemble_scramble_tail.md
R100, R109). -/
structure SizesFit (s : State) : Prop where
  payload : 16 + 8 * s.frame.psduSize.toNat ≤ s.frame.nDataBits.toNat
  tail : s.tailStart + tailBits ≤ s.frame.nDataBits.toNat
  data : s.frame.nDataBits.toNat ≤ s.cap .data
  scr : s.frame.nDataBits.toNat ≤ s.cap .scr
  enc : 2 * s.frame.nDataBits.toNat ≤ s.cap .enc
  encoded : s.frame.nEncodedBits.toNat = 2 * s.frame.nDataBits.toNat
  pun : s.frame.nEncodedBits.toNat ≤ s.cap .pun
  int : s.frame.nEncodedBits.toNat ≤ s.cap .int
  blocks : s.frame.nEncodedBits.toNat = s.frame.nSym.toNat * s.ofdm.nCbps.toNat
  sym : 48 * s.frame.nSym.toNat ≤ s.cap .sym

theorem RegInv.sizesFit {s : State} (h : RegInv s) (hv : s.frame.valid = true) : SizesFit s := by
  obtain ⟨hdata, henc, hsym⟩ := h.lengths_le hv
  obtain ⟨-, -, -, -, hneed, -, hblocks, htwice⟩ := h.frame hv
  constructor <;> simp only [State.cap, capacity, State.tailStart, tailBits] at * <;> omega

/-- Under the invariant of the parameter registers a stage writes below the capacity of its destination only, whether
it completes or is abandoned (20_memory.md R64, 60_exceptions.md R170). -/
theorem UpdateClosed.stage {P : State → Prop} (hP : UpdateClosed P) {i : Instr} {f : State → StageResult}
    (hi : stageOf i = some f) {s : State} (hr : RegInv s) (h : P s) : (f s).All P := by
  have sizes := hr.sizesFit
  cases i <;> cases hi
  case assemble =>
    refine runStage_all (hP.lose _ h) fun ht => ?_
    obtain ⟨hv, -⟩ : s.frame.valid = true ∧ _ := by simpa using ht
    have fit := sizes hv
    refine hP.fill h (numbered_zero_lt ?_) fit.data
    rw [List.length_map, State.assembledBits_length, max_eq_right fit.payload]
    exact fit.data
  case scramble seed =>
    refine runStage_all (hP.congr (hP.lose .scr h) rfl rfl rfl rfl rfl) fun ht => ?_
    obtain ⟨hv, -⟩ : s.frame.valid = true ∧ _ := by simpa [and_assoc] using ht
    have hscr := (sizes hv).scr
    exact hP.congr (hP.fill h (b := .scr) (numbered_zero_lt (by simpa using hscr)) hscr) rfl rfl rfl rfl rfl
  case tailReset =>
    refine runStage_all (hP.lose _ h) fun ht => ?_
    obtain ⟨hv, -⟩ : s.frame.valid = true ∧ _ := by simpa using ht
    refine hP.write h fun c hc => ?_
    calc c.1 < s.tailStart + tailBits := by simpa using numbered_lt hc
      _ ≤ s.frame.nDataBits.toNat := (sizes hv).tail
      _ ≤ s.cap .scr := (sizes hv).scr
  case convEncode =>
    refine runStage_all (hP.congr (hP.lose .enc h) rfl rfl rfl rfl rfl) fun ht => ?_
    obtain ⟨hv, -⟩ : s.frame.valid = true ∧ _ := by simpa [and_assoc] using ht
    have henc := (sizes hv).enc
    exact hP.congr (hP.fill h (b := .enc) (numbered_zero_lt (by simpa using henc)) henc) rfl rfl rfl rfl rfl
  case puncture =>
    refine runStage_all (hP.lose _ h) fun ht => ?_
    obtain ⟨hv, -⟩ : s.frame.valid = true ∧ _ := by simpa [and_assoc] using ht
    have fit := sizes hv
    exact hP.fill h (numbered_zero_lt (by simpa [← fit.encoded] using fit.pun)) fit.pun
  case interleave =>
    refine runStage_all (hP.lose _ h) fun ht => ?_
    obtain ⟨hv, -⟩ := State.needInterleave_eq_none.mp ht
    have fit := sizes hv
    exact hP.fill h (fun c hc => (State.interleaveWrites_lt hc).trans_le (fit.blocks ▸ fit.int)) fit.int
  case deinterleave =>
    refine runStage_all (hP.lose _ h) fun ht => ?_
    obtain ⟨hv, -, hg, -⟩ := State.needInterleave_eq_none.mp ht
    have fit := sizes hv
    exact hP.fill h (fun c hc => (State.deinterleaveWrites_lt hg hc).trans_le (fit.blocks ▸ fit.int)) fit.int
  case split =>
    refine runStage_all (hP.lose _ h) fun ht => ?_
    obtain ⟨hv, -⟩ : s.frame.valid = true ∧ _ := by simpa [and_assoc] using ht
    have hsym := (sizes hv).sym
    exact hP.fill h (numbered_zero_lt (by simpa using hsym)) hsym

/-! ### The invariant of the parameter registers -/

theorem RegInv.updateClosed : UpdateClosed RegInv where
  congr {s t} h h1 h2 h3 h4 _ := h.of_eq h2 h3 h1 fun b => by
    rw [State.len, State.buf, h4]
    exact h.lens b
  write {s b ws} h _ := h.of_eq (t := s.writeCells b ws) rfl rfl rfl fun b' => by
    rw [State.writeCells_len]
    exact h.lens b'
  len {s b n} h hn := h.of_eq (t := s.setLen b n) rfl rfl rfl fun b' => by
    rw [State.setLen_len]
    split
    · subst_vars
      exact (Nat.mod_le _ _).trans hn
    · exact h.lens b'
  lose {s} b h := h.of_eq (t := s.loseBuf b) rfl rfl rfl fun b' => by
    rw [State.loseBuf_len]
    split
    · exact Nat.zero_le _
    · exact h.lens b'
  clear {s} h := h.of_eq (t := s.clearStageLens) rfl rfl rfl fun b => by
    rw [State.clearStageLens_len]
    split
    · exact h.lens b
    · exact Nat.zero_le _

/-- No OfdmParam and no FrameParam: the invariant asks for the capacities only (10_state.md R44 (a), (c), (e)). -/
theorem RegInv.of_none {s : State} (h1 : s.ofdm = .none) (h2 : s.frame = .none) (h3 : ∀ b, s.len b ≤ s.cap b) :
    RegInv s where
  noOfdm _ := ⟨h1, by rw [h2]; rfl⟩
  codes hv := by rw [h1] at hv; cases hv
  ofdm hv := by rw [h1] at hv; cases hv
  noFrame _ := h2
  frame hv := by rw [h2] at hv; cases hv
  lens := h3

theorem RegInv.discardFrame_len_le {s : State} (h : RegInv s) (b : BufId) : s.discardFrame.len b ≤ s.cap b := by
  rw [State.discardFrame_len]
  split
  · exact h.lens b
  · exact Nat.zero_le _

theorem RegInv.discardFrame {s : State} (h : RegInv s) : RegInv s.discardFrame where
  noOfdm hv := ⟨(h.noOfdm hv).1, rfl⟩
  codes := h.codes
  ofdm := h.ofdm
  noFrame _ := rfl
  frame hv := by cases hv
  lens := h.discardFrame_len_le

/-- The OfdmParam that OFDM_PARAM derives is a record of R44 (b) (40_parameters.md R91). -/
theorem RegInv.setOfdm_derive {s : State} (h : RegInv s) {c0 c1 c2 c3 : Nat} {a : RbAssignment}
    (hc : RbAssignment.ofCodes c0 c1 c2 c3 = .ok a) : RegInv (s.discardFrame.setOfdm (.derive c0 c1 c2 c3 a)) := by
  obtain ⟨hvalid, hrb, hbpsc, havg, hcbps, hdbps⟩ := OfdmRegs.derive_toNat hc
  obtain ⟨⟨l0, l1, l2, l3⟩, -⟩ := RbAssignment.ofCodes_eq_ok hc
  have hle : ∀ k < 4, [c0, c1, c2, c3].getD k 0 ≤ 3 := by
    intro k hk
    interval_cases k <;> assumption
  have hsum : bpscSum (OfdmRegs.derive c0 c1 c2 c3 a).bpsc =
      costOfCode c0 + costOfCode c1 + costOfCode c2 + costOfCode c3 := by
    rw [bpscSum, hbpsc 0 (by norm_num), hbpsc 1 (by norm_num), hbpsc 2 (by norm_num), hbpsc 3 (by norm_num)]
    rfl
  refine ⟨fun hv => ?_, fun _ k hk => ?_, fun _ => ?_, fun _ => rfl, fun hv => ?_, h.discardFrame_len_le⟩
  · cases hvalid.symm.trans hv
  · simp only [State.setOfdm_ofdm]
    rw [hrb k hk, hbpsc k hk]
    exact ⟨hle k hk, rfl⟩
  · simp only [State.setOfdm_ofdm]
    omega
  · cases hv

/-- The FrameParam that FRAME_PARAM derives is a record of R44 (d) (40_parameters.md R94). -/
theorem RegInv.setFrame_derive {s : State} (h : RegInv s) (hv : s.ofdm.valid = true) {n : Nat} (hn : n ≤ s.psduMax.val) :
    RegInv (s.discardFrame.setFrame (.derive n s.ofdm.nDbps.toNat s.ofdm.nCbps.toNat)) := by
  obtain ⟨hvalid, hsize, hsym, hpos, hdata, hneed, hpad, henc, htwice⟩ :=
    h.frame_derive hv (hn.trans_lt s.psduMax.isLt)
  refine ⟨fun hv' => ?_, h.codes, h.ofdm, fun hv' => ?_, fun _ => ?_, h.discardFrame_len_le⟩
  · cases hv.symm.trans hv'
  · cases hvalid.symm.trans hv'
  · simp only [State.setFrame_frame, State.setFrame_ofdm, State.discardFrame_ofdm, State.setFrame_psduMax,
      State.discardFrame_psduMax, hsize, hsym, true_and]
    exact ⟨hn, hpos, hdata, hneed, hpad, henc, htwice⟩

theorem State.needPayload_eq_none {s : State} {len : Int} (h : s.needPayload len = none) :
    s.ofdm.valid = true ∧ 0 ≤ len ∧ len ≤ s.psduMax.val := by
  unfold State.needPayload at h
  split at h
  · cases h
  · split at h
    · cases h
    · split at h
      · cases h
      · exact ⟨by simpa using ‹¬ s.ofdm.valid = false›, by omega, by omega⟩

theorem RegInv.exec_ofdmParam {s t : State} {c0 c1 c2 c3 : Nat} (h : RegInv s)
    (e : exec (.ofdmParam c0 c1 c2 c3) s = .next t) : RegInv t := by
  obtain ⟨b, -, rfl⟩ | ⟨a, hc, rfl⟩ := exec_ofdmParam_cases e
  · exact .of_none rfl rfl h.discardFrame_len_le
  · exact updateClosed.congr (h.setOfdm_derive hc) rfl rfl rfl rfl rfl

theorem RegInv.exec_frameParam {s t : State} {len : Int} (h : RegInv s) (e : exec (.frameParam len) s = .next t) :
    RegInv t := by
  obtain ⟨c, -, rfl⟩ | ⟨hc, rfl⟩ := exec_frameParam_cases e
  · exact updateClosed.congr h.discardFrame rfl rfl rfl rfl rfl
  · obtain ⟨hv, hpos, hle⟩ := State.needPayload_eq_none hc
    exact updateClosed.congr (h.setFrame_derive hv (n := len.toNat) (by omega)) rfl rfl rfl rfl rfl

/-! ### From the updates to the step -/

theorem State.externalReset_buf (s : State) (b : BufId) : s.externalReset.buf b = .lost s.freeCount :=
  Buffers.get_lost _ b

/-- Every stage of the chain keeps the invariant of the parameter registers, so the next one may rest on it. -/
theorem UpdateClosed.exec_encodeFrame {P : State → Prop} (hP : UpdateClosed P) {seed : Nat} {s t : State}
    (hr : RegInv s) (h : P s) (e : exec (.encodeFrame seed) s = .next t) : P t := by
  have both : UpdateClosed fun s => RegInv s ∧ P s := RegInv.updateClosed.and hP
  have keeps {i : Instr} {f : State → StageResult} (hi : stageOf i = some f) :
      ∀ u, RegInv u ∧ P u → (f u).All fun s => RegInv s ∧ P s := fun _ hu => both.stage hi hu.1 hu
  obtain ⟨c, -, rfl⟩ | ⟨-, e⟩ := exec_encodeFrame_cases e
  · exact hP.congr h rfl rfl rfl rfl rfl
  · have chain := chainStages_all (keeps (i := .assemble) rfl) (keeps (i := .scramble seed) rfl)
      (keeps (i := .tailReset) rfl) (keeps (i := .convEncode) rfl) (keeps (i := .puncture) rfl)
      (keeps (i := .interleave) rfl) (keeps (i := .split) rfl) (both.clear ⟨hr, h⟩)
    exact (both.finish chain e).2

/-- What the buffer updates, the two parameter commands and the reset input keep, every step keeps. -/
theorem UpdateClosed.step {P : State → Prop} (hP : UpdateClosed P)
    (hofdm : ∀ {c0 c1 c2 c3 s t}, P s → exec (.ofdmParam c0 c1 c2 c3) s = .next t → P t)
    (hframe : ∀ {len s t}, P s → exec (.frameParam len) s = .next t → P t)
    (hreset : ∀ s : State, P s.externalReset) {s t : State} (hr : RegInv s) (h : P s)
    (e : Machine.step s = .next t) : P t := by
  obtain rfl | ⟨rest, effect⟩ := step_effect e
  · exact h
  · have hp : P (s.setPending rest) := hP.congr h rfl rfl rfl rfl rfl
    cases effect with
    | @command i _ e =>
      have hr' : RegInv ((s.setPending rest).setReply none) := RegInv.updateClosed.congr hr rfl rfl rfl rfl rfl
      have h' : P ((s.setPending rest).setReply none) := hP.congr h rfl rfl rfl rfl rfl
      have stage {f : State → StageResult} (hi : stageOf i = some f) : P t :=
        hP.finish (hP.stage hi hr' h') (exec_of_stageOf hi _ ▸ e)
      cases i with
      | ofdmParam => exact hofdm h' e
      | frameParam => exact hframe h' e
      | encodeFrame => exact hP.exec_encodeFrame hr' h' e
      | _ => exact stage rfl
    | illegal c op => exact hP.congr h rfl rfl rfl rfl rfl
    | read r => exact hP.congr h rfl rfl rfl rfl rfl
    | lenWrite b hn => exact hP.congr (hP.len hp hn) rfl rfl rfl rfl rfl
    | cellWrite b v hi =>
      exact hP.congr (hP.write hp (fun c hc => by rw [List.mem_singleton.mp hc]; exact hi)) rfl rfl rfl rfl rfl
    | reset => exact hreset _

/-- Settles O48: the buffer updates keep R44 (e) and touch no parameter register, the parameter commands derive records
or leave none, the reset input leaves none. -/
theorem stepKeepsParameterInvariants : Obligations.StepKeepsParameterInvariants := by
  intro s s' h e
  refine RegInv.updateClosed.step RegInv.exec_ofdmParam RegInv.exec_frameParam (fun u => ?_) h h e
  refine .of_none rfl rfl fun b => ?_
  rw [State.len, State.externalReset_buf]
  exact Nat.zero_le _

/-! ### The canonical form of the storage -/

theorem StorageInv.updateClosed : UpdateClosed StorageInv where
  congr {s t} h h1 _ _ h4 h5 :=
    h.of_eq (fun b => by rw [State.buf, h4, State.buf]) (fun b => by rw [State.buf, h4, State.buf]) h5 h1
  write {s b ws} h hw := h.writeCells b ws hw
  len {s b n} h _ := h.setLen b n
  lose b h := h.loseBuf b
  clear h := h.clear

/-- Where every buffer was lost at one past event, no cell is stored (10_state.md R40, R43). -/
theorem StorageInv.of_lost {s : State} {era : Nat} (h : ∀ b, s.buf b = .lost era) (he : era < s.freeCount) :
    StorageInv s where
  rising b := by rw [h b]; exact Buffer.lost_wf era
  below b c hc := by rw [h b] at hc; cases hc
  past b := by rw [h b]; exact he

/-- A change of the parameter registers alone, with LEN[1..6] cleared, stores nothing (40_parameters.md R91, R94). -/
theorem StorageInv.of_clear {s t : State} (h : StorageInv s) (hb : t.bufs = s.bufs.clearStageLens)
    (hf : t.freeCount = s.freeCount) (hm : t.psduMax = s.psduMax) : StorageInv t :=
  h.clear.of_eq (fun b => by rw [State.buf, hb]; rfl) (fun b => by rw [State.buf, hb]; rfl) hf hm

theorem StorageInv.exec_ofdmParam {s t : State} {c0 c1 c2 c3 : Nat} (h : StorageInv s)
    (e : exec (.ofdmParam c0 c1 c2 c3) s = .next t) : StorageInv t := by
  obtain ⟨b, -, rfl⟩ | ⟨a, -, rfl⟩ := exec_ofdmParam_cases e
  · exact h.of_clear rfl rfl rfl
  · exact h.of_clear rfl rfl rfl

theorem StorageInv.exec_frameParam {s t : State} {len : Int} (h : StorageInv s)
    (e : exec (.frameParam len) s = .next t) : StorageInv t := by
  obtain ⟨c, -, rfl⟩ | ⟨-, rfl⟩ := exec_frameParam_cases e
  · exact h.of_clear rfl rfl rfl
  · exact h.of_clear rfl rfl rfl

/-- Settles O49: assignments below the capacity keep the canonical form, a lost buffer stores nothing, and each event
takes the next number. -/
theorem stepKeepsStorageCanonical : Obligations.StepKeepsStorageCanonical := by
  intro s s' hr h e
  exact StorageInv.updateClosed.step StorageInv.exec_ofdmParam StorageInv.exec_frameParam
    (fun u => .of_lost u.externalReset_buf (Nat.lt_succ_self _)) hr h e

/-- Settles O50: at reset there are no parameters, every LEN is 0, and every buffer was lost at event 0. -/
theorem resetMeetsInvariants : Obligations.ResetMeetsInvariants := by
  intro m
  refine ⟨.of_none rfl rfl fun b => ?_, .of_lost (State.resetOf_buf m) Nat.zero_lt_one, rfl⟩
  rw [State.resetOf_len]
  exact Nat.zero_le _

end Sys2Proof.Machine
end

section
/-! SUPPORT. The report of every command, and the layout of the packed registers (spec/10_state.md R22 to R25, R36,
R37, spec/60_exceptions.md R160). -/

namespace Sys2Proof.Machine

/-! ### Reports -/

theorem FaultCause.code_bounds (c : FaultCause) : c.code ≠ 0 ∧ c.code.toNat ≤ 4 := by
  cases c <;> simp [FaultCause.code]

/-- FAULT_INFO says something for three kinds of cause only (10_state.md R24). -/
theorem FaultCause.info_ne_zero {c : FaultCause} (h : c.info ≠ 0) :
    (c.code = 1 ∧ c.sub = 1) ∨ c.code = 2 ∨ (c.code = 4 ∧ c.sub = 2) := by
  cases c with
  | rbEncoding block => exact .inl ⟨rfl, rfl⟩
  | bitValue index => exact .inr (.inl rfl)
  | inputLength b => exact .inr (.inr ⟨rfl, rfl⟩)
  | _ => exact absurd rfl h

/-- The report in `t`: a success of the opcode `op`, or a fault of it with a stage that `stageOk` allows. -/
def Reports (op : Byte) (stageOk : Byte → Prop) (t : State) : Prop :=
  (t.status = .ok op ∧ t.faultInfo = 0) ∨
    ∃ c stage, t.status = .ofFault c op stage ∧ t.faultInfo = c.info ∧ stageOk stage

theorem Reports.succeed (op : Byte) (stageOk : Byte → Prop) (s : State) : Reports op stageOk (s.succeed op) :=
  .inl ⟨rfl, rfl⟩

theorem Reports.faultEntry {op stage : Byte} {stageOk : Byte → Prop} (c : FaultCause) (h : stageOk stage) (s : State) :
    Reports op stageOk (s.faultEntry c op stage) :=
  .inr ⟨c, stage, rfl, rfl, h⟩

theorem exec_stage_reports {s t : State} {i : Instr} {src dst : BufId} {n : Nat}
    (h : stageTable s i = some (src, n, dst)) (e : exec i s = .next t) : Reports i.opcode (· = i.opcode) t := by
  obtain ⟨c, u, e', -⟩ | ⟨u, e', -⟩ := exec_stage_cases h <;> rw [e'] at e <;> cases e
  · exact .faultEntry (stageOk := (· = i.opcode)) c rfl u
  · exact .succeed _ _ u

theorem exec_encodeFrame_reports {s t : State} {seed : Nat} (e : exec (.encodeFrame seed) s = .next t) :
    Reports 0x0B (fun _ => True) t := by
  obtain ⟨c, -, rfl⟩ | ⟨-, e⟩ := exec_encodeFrame_cases e
  · exact .faultEntry c trivial s
  · obtain ⟨u, -, e'⟩ | ⟨g, c, u, -, e'⟩ := finish_cases 0x0B (chainStages seed s.clearStageLens) <;> rw [e'] at e <;>
      cases e
    · exact .succeed _ _ u
    · exact .faultEntry c trivial u

/-- Every command reports its success or one fault under its opcode, and but for ENCODE_FRAME that is also the stage
(10_state.md R23, 60_exceptions.md R170). -/
theorem exec_reports {s t : State} {i : Instr} (e : exec i s = .next t) :
    Reports i.opcode (fun stage => (∀ seed, i ≠ .encodeFrame seed) → stage = i.opcode) t := by
  have stage {src dst : BufId} {n : Nat} (h : stageTable s i = some (src, n, dst)) :
      Reports i.opcode (fun stage => (∀ seed, i ≠ .encodeFrame seed) → stage = i.opcode) t :=
    (exec_stage_reports h e).imp_right fun ⟨c, g, hs, hi, hg⟩ => ⟨c, g, hs, hi, fun _ => hg⟩
  cases i with
  | ofdmParam =>
    obtain ⟨b, -, rfl⟩ | ⟨a, -, rfl⟩ := exec_ofdmParam_cases e
    · exact .faultEntry _ (fun _ => rfl) _
    · exact .succeed _ _ _
  | frameParam =>
    obtain ⟨c, -, rfl⟩ | ⟨-, rfl⟩ := exec_frameParam_cases e
    · exact .faultEntry _ (fun _ => rfl) _
    · exact .succeed _ _ _
  | encodeFrame seed =>
    exact (exec_encodeFrame_reports e).imp_right fun ⟨c, g, hs, hi, _⟩ => ⟨c, g, hs, hi, fun h => absurd rfl (h seed)⟩
  | _ => exact stage rfl

/-- Settles O40: a success reports zeros beside the opcode, a fault what its cause says. -/
theorem statusReportsCommand : Obligations.StatusReportsCommand := by
  intro s t i e
  obtain ⟨hs, hi⟩ | ⟨c, stage, hs, hi, hg⟩ := exec_reports e <;> rw [hs, hi]
  · exact ⟨rfl, Nat.zero_le _, fun _ => ⟨rfl, rfl, rfl⟩, fun h => absurd rfl h, fun h => absurd rfl h⟩
  · obtain ⟨hcode, hle⟩ := c.code_bounds
    exact ⟨rfl, hle, fun h => absurd h hcode, fun _ => hg, FaultCause.info_ne_zero⟩

/-! ### Packed registers -/

/-- The low part of two fields side by side. -/
theorem extract_append_low {m n : Nat} (x : BitVec m) (y : BitVec n) : (x ++ y).extractLsb' 0 n = y := by
  rw [BitVec.extractLsb'_append_eq_of_add_le (by omega), BitVec.extractLsb'_eq_self]

/-- What lies above the low part is cut from the high part. -/
theorem extract_append_high {m n : Nat} (x : BitVec m) (y : BitVec n) (k len : Nat) :
    (x ++ y).extractLsb' (n + k) len = x.extractLsb' k len := by
  rw [BitVec.extractLsb'_append_eq_of_le (by omega), Nat.add_sub_cancel_left]

/-- STATUS field by field (10_state.md R23). -/
theorem Status.word_fields (st : Status) :
    st.word.extractLsb' 0 4 = st.code ∧ st.word.extractLsb' 4 4 = st.sub ∧ st.word.extractLsb' 8 8 = st.op ∧
      st.word.extractLsb' 16 8 = st.stage ∧ st.word.extractLsb' 24 8 = 0 := by
  have above (k len : Nat) : st.word.extractLsb' (4 + (4 + k)) len =
      ((0 : Byte) ++ st.stage ++ st.op).extractLsb' k len :=
    (extract_append_high _ st.code (4 + k) len).trans (extract_append_high _ st.sub k len)
  refine ⟨extract_append_low _ _, ?_, ?_, ?_, ?_⟩
  · exact (extract_append_high _ st.code 0 4).trans (extract_append_low _ _)
  · exact (above 0 8).trans (extract_append_low _ _)
  · exact ((above 8 8).trans (extract_append_high _ _ 0 8)).trans (extract_append_low _ _)
  · exact ((above 16 8).trans (extract_append_high _ _ 8 8)).trans
      ((extract_append_high _ _ 0 8).trans BitVec.extractLsb'_eq_self)

/-- VALID bit by bit (10_state.md R25). -/
theorem validWord_bits (o f : Bool) :
    (validWord o f).getLsbD 0 = o ∧ (validWord o f).getLsbD 1 = f ∧ (validWord o f).extractLsb' 2 30 = 0 := by
  cases o <;> cases f <;> decide

/-- A shift register read as a register of the host: its seven bits and 25 zeros (10_state.md R36, R37). -/
theorem shiftReg_word (v : ShiftReg) :
    (v.setWidth 32).extractLsb' 0 7 = v ∧ (v.setWidth 32).extractLsb' 7 25 = 0 := by
  constructor
  · rw [BitVec.extractLsb'_setWidth_of_le (by norm_num), BitVec.extractLsb'_eq_self]
  · apply BitVec.eq_of_getLsbD_eq
    intro k hk
    simp

/-- Settles O41: each register read as a word gives its fields back. -/
theorem statusWordLayout : Obligations.StatusWordLayout := by
  intro s
  obtain ⟨scrBits, scrZero⟩ := shiftReg_word s.scrState
  obtain ⟨encBits, encZero⟩ := shiftReg_word s.encState
  obtain ⟨code, sub, op, stage, zero⟩ := s.status.word_fields
  exact ⟨_, _, _, _, rfl, rfl, rfl, rfl, rfl, scrBits, scrZero, encBits, encZero, code, sub, op, stage, zero,
    validWord_bits s.ofdm.valid s.frame.valid⟩

end Sys2Proof.Machine
end

section
/-! SUPPORT. Two runs of one command from related states: what no command reads, and what ENCODE_FRAME depends on
(spec/10_state.md R36, R37, R41, spec/70_reset_and_hazards.md R192, spec/45_encode_frame.md R147). -/

namespace Sys2Proof.Machine

/-! ### Two stage results side by side -/

/-- Both complete, with states that `D` relates, or both are abandoned by the same stage with the same cause, with states
that `R` relates. -/
def StageResult.Both (D R : State → State → Prop) : StageResult → StageResult → Prop
  | .done t, .done u => D t u
  | .raised g c t, .raised g' c' u => g = g' ∧ c = c' ∧ R t u
  | .done _, .raised _ _ _ => False
  | .raised _ _ _, .done _ => False

theorem StageResult.Both.cases {D R : State → State → Prop} {r r' : StageResult} (h : r.Both D R r') :
    (∃ t u, r = .done t ∧ r' = .done u ∧ D t u) ∨ ∃ g c t u, r = .raised g c t ∧ r' = .raised g c u ∧ R t u := by
  cases r with
  | done t =>
    cases r' with
    | done u => exact .inl ⟨t, u, rfl, rfl, h⟩
    | raised g c u => exact h.elim
  | raised g c t =>
    cases r' with
    | done u => exact h.elim
    | raised g' c' u =>
      obtain ⟨rfl, rfl, hR⟩ := h
      exact .inr ⟨g, c, t, u, rfl, rfl, hR⟩

/-- Two runs of one stage whose tests say the same. -/
theorem runStage_both {D R : State → State → Prop} {g : Byte} {x y : Option FaultCause} {a a' c c' : State} (h : x = y)
    (hR : R a a') (hD : x = none → D c c') : (runStage g x a c).Both D R (runStage g y a' c') := by
  subst h
  cases x with
  | none => exact hD rfl
  | some f => exact ⟨rfl, rfl, hR⟩

theorem StageResult.Both.andThen {D D' R : State → State → Prop} {r r' : StageResult} {f f' : State → StageResult}
    (h : r.Both D R r') (hf : ∀ t u, D t u → (f t).Both D' R (f' u)) :
    (r.andThen f).Both D' R (r'.andThen f') := by
  obtain ⟨t, u, rfl, rfl, hD⟩ | ⟨g, c, t, u, rfl, rfl, hR⟩ := h.cases
  · exact hf t u hD
  · exact ⟨rfl, rfl, hR⟩

/-! ### The shift registers carry nothing (10_state.md R36, R37) -/

/-- Of two runs, one from `s` and one from `s'`, which have come to `t` and `t'`: these differ in the shift registers at
most, and each of the two registers holds the same in both or is in both what it was at the start. -/
structure ShiftCarry (s s' t t' : State) : Prop where
  rest : ∃ x y, t' = (t.setScrState x).setEncState y
  scr : t'.scrState = t.scrState ∨ (t'.scrState = s'.scrState ∧ t.scrState = s.scrState)
  enc : t'.encState = t.encState ∨ (t'.encState = s'.encState ∧ t.encState = s.encState)

theorem ShiftCarry.start (s : State) (x y : ShiftReg) :
    ShiftCarry s ((s.setScrState x).setEncState y) s ((s.setScrState x).setEncState y) :=
  ⟨⟨x, y, rfl⟩, .inr ⟨rfl, rfl⟩, .inr ⟨rfl, rfl⟩⟩

/-- An update that neither reads nor writes the shift registers. -/
theorem ShiftCarry.update {s s' t t' : State} (h : ShiftCarry s s' t t') (f : State → State)
    (hf : ∀ x y, f ((t.setScrState x).setEncState y) = ((f t).setScrState x).setEncState y)
    (h1 : (f t).scrState = t.scrState) (h2 : (f t).encState = t.encState) : ShiftCarry s s' (f t) (f t') := by
  obtain ⟨⟨x, y, rfl⟩, hscr, henc⟩ := h
  rw [hf]
  exact ⟨⟨x, y, rfl⟩, by simpa [h1] using hscr, by simpa [h2] using henc⟩

/-- A register that both runs write takes one value, whatever it held. -/
theorem ShiftCarry.setScrState {s s' t t' : State} (h : ShiftCarry s s' t t') (v : ShiftReg) :
    ShiftCarry s s' (t.setScrState v) (t'.setScrState v) := by
  obtain ⟨⟨x, y, rfl⟩, -, henc⟩ := h
  exact ⟨⟨v, y, rfl⟩, .inl rfl, henc⟩

theorem ShiftCarry.setEncState {s s' t t' : State} (h : ShiftCarry s s' t t') (v : ShiftReg) :
    ShiftCarry s s' (t.setEncState v) (t'.setEncState v) := by
  obtain ⟨⟨x, y, rfl⟩, hscr, -⟩ := h
  exact ⟨⟨x, v, rfl⟩, hscr, .inl rfl⟩

/-- What a completed stage does to its destination. -/
theorem ShiftCarry.fill {s s' t t' : State} (h : ShiftCarry s s' t t') (b : BufId) (ws : List Host.Cell) (n : Nat) :
    ShiftCarry s s' ((t.writeCells b ws).setLen b n) ((t'.writeCells b ws).setLen b n) :=
  h.update (fun u => (u.writeCells b ws).setLen b n) (fun _ _ => rfl) rfl rfl

theorem ShiftCarry.loseBuf {s s' t t' : State} (h : ShiftCarry s s' t t') (b : BufId) :
    ShiftCarry s s' (t.loseBuf b) (t'.loseBuf b) :=
  h.update (fun u => u.loseBuf b) (fun _ _ => rfl) rfl rfl

/-- No stage reads a shift register: its tests and what it assigns are the same in both runs. -/
theorem ShiftCarry.stage {i : Instr} {f : State → StageResult} (hi : stageOf i = some f) {s s' t t' : State}
    (h : ShiftCarry s s' t t') : (f t).Both (ShiftCarry s s') (ShiftCarry s s') (f t') := by
  obtain ⟨x, y, rfl⟩ := h.rest
  cases i <;> cases hi
  case assemble => exact runStage_both rfl (h.loseBuf _) fun _ => h.fill _ _ _
  case scramble seed =>
    exact runStage_both rfl ((h.loseBuf .scr).setScrState _) fun _ => (h.fill .scr _ _).setScrState _
  case tailReset =>
    exact runStage_both rfl (h.loseBuf _) fun _ => h.update State.tailCleared (fun _ _ => rfl) rfl rfl
  case convEncode =>
    exact runStage_both rfl ((h.loseBuf .enc).setEncState _) fun _ => (h.fill .enc _ _).setEncState _
  case puncture => exact runStage_both rfl (h.loseBuf _) fun _ => h.fill _ _ _
  case interleave => exact runStage_both rfl (h.loseBuf _) fun _ => h.fill _ _ _
  case deinterleave => exact runStage_both rfl (h.loseBuf _) fun _ => h.fill _ _ _
  case split => exact runStage_both rfl (h.loseBuf _) fun _ => h.fill _ _ _

theorem ShiftCarry.chain {seed : Nat} {s s' t t' : State} (h : ShiftCarry s s' t t') :
    (chainStages seed t).Both (ShiftCarry s s') (ShiftCarry s s') (chainStages seed t') := by
  have stage {i : Instr} {f : State → StageResult} (hi : stageOf i = some f) :
      ∀ u u', ShiftCarry s s' u u' → (f u).Both (ShiftCarry s s') (ShiftCarry s s') (f u') := fun _ _ hu => hu.stage hi
  exact ((((((stage (i := .assemble) rfl t t' h).andThen (stage (i := .scramble seed) rfl)).andThen
    (stage (i := .tailReset) rfl)).andThen (stage (i := .convEncode) rfl)).andThen
    (stage (i := .puncture) rfl)).andThen (stage (i := .interleave) rfl)).andThen (stage (i := .split) rfl)

theorem ShiftCarry.finish {s s' t : State} {op : Byte} {r r' : StageResult}
    (h : r.Both (ShiftCarry s s') (ShiftCarry s s') r') (e : Machine.finish op r = .next t) :
    ∃ t', Machine.finish op r' = .next t' ∧ ShiftCarry s s' t t' := by
  obtain ⟨u, u', rfl, rfl, hu⟩ | ⟨g, c, u, u', rfl, rfl, hu⟩ := h.cases <;> cases e
  · exact ⟨_, rfl, hu.update (fun v => v.succeed op) (fun _ _ => rfl) rfl rfl⟩
  · exact ⟨_, rfl, hu.update (fun v => v.faultEntry c op g) (fun _ _ => rfl) rfl rfl⟩

theorem exec_shiftCarry {s t : State} {i : Instr} (x y : ShiftReg) (e : exec i s = .next t) :
    ∃ t', exec i ((s.setScrState x).setEncState y) = .next t' ∧
      ShiftCarry s ((s.setScrState x).setEncState y) t t' := by
  have start := ShiftCarry.start s x y
  have stage {f : State → StageResult} (hi : stageOf i = some f) :
      ∃ t', exec i ((s.setScrState x).setEncState y) = .next t' ∧
        ShiftCarry s ((s.setScrState x).setEncState y) t t' := by
    rw [exec_of_stageOf hi] at e ⊢
    exact ShiftCarry.finish (start.stage hi) e
  cases i with
  | ofdmParam c0 c1 c2 c3 =>
    obtain ⟨b, hc, rfl⟩ | ⟨a, hc, rfl⟩ := exec_ofdmParam_cases e
    · exact ⟨_, exec_ofdmParam_of_error _ hc, start.update
        (fun u => (u.discardFrame.setOfdm .none).faultEntry (.rbEncoding b) 0x01 0x01) (fun _ _ => rfl) rfl rfl⟩
    · exact ⟨_, exec_ofdmParam_of_ok _ hc, start.update
        (fun u => (u.discardFrame.setOfdm (.derive c0 c1 c2 c3 a)).succeed 0x01) (fun _ _ => rfl) rfl rfl⟩
  | frameParam len =>
    obtain ⟨c, hc, rfl⟩ | ⟨hc, rfl⟩ := exec_frameParam_cases e
    · exact ⟨_, exec_frameParam_of_some hc, start.update (fun u => u.discardFrame.faultEntry c 0x02 0x02)
        (fun _ _ => rfl) rfl rfl⟩
    · exact ⟨_, exec_frameParam_of_none hc, start.update (fun u => (u.discardFrame.setFrame
        (.derive len.toNat u.ofdm.nDbps.toNat u.ofdm.nCbps.toNat)).succeed 0x02) (fun _ _ => rfl) rfl rfl⟩
  | encodeFrame seed =>
    obtain ⟨c, hc, rfl⟩ | ⟨hv, e⟩ := exec_encodeFrame_cases e
    · exact ⟨_, exec_encodeFrame_of_needFrame seed hc, start.update (fun u => u.faultEntry c 0x0B 0x0B)
        (fun _ _ => rfl) rfl rfl⟩
    · rw [exec_encodeFrame_of_frame (s := (s.setScrState x).setEncState y) hv]
      exact ShiftCarry.finish (start.update State.clearStageLens (fun _ _ => rfl) rfl rfl).chain e
  | _ => exact stage rfl

/-- Settles O47: the run from the changed shift registers ends in the same state but for these two, each of which the
command wrote in both runs or left alone in both. -/
theorem shiftRegistersCarryNothing : Obligations.ShiftRegistersCarryNothing := by
  intro s t i x y e
  obtain ⟨_, e', ⟨x', y', rfl⟩, hscr, henc⟩ := exec_shiftCarry x y e
  exact ⟨x', y', e', hscr, henc⟩

/-! ### What the encoded frame depends on (10_state.md R41) -/

/-- Two states with one frame geometry that agree in LEN and the cells below it for the buffers of `bs`, and in the shift
registers of the stages that filled SCR and ENC, where these are among them. -/
structure SameFrame (bs : List BufId) (s u : State) : Prop where
  ofdm : s.ofdm = u.ofdm
  frame : s.frame = u.frame
  encoded : s.frame.nEncodedBits.toNat = 2 * s.frame.nDataBits.toNat
  blocks : s.frame.nEncodedBits.toNat = s.frame.nSym.toNat * s.ofdm.nCbps.toNat
  len : ∀ b ∈ bs, s.len b = u.len b
  cell : ∀ b ∈ bs, ∀ i < s.len b, s.cell b i = u.cell b i
  scrState : .scr ∈ bs → s.scrState = u.scrState
  encState : .enc ∈ bs → s.encState = u.encState

/-- A stage that fills its destination alike in both states. -/
theorem SameFrame.extend {bs : List BufId} {s u t v : State} {dst : BufId} {n : Nat} (h : SameFrame bs s u)
    (ht : Completed dst n s t) (hv : Completed dst n u v) (hc : ∀ i < n, t.cell dst i = v.cell dst i)
    (hscr : dst = .scr → t.scrState = v.scrState) (henc : dst = .enc → t.encState = v.encState) :
    SameFrame (dst :: bs) t v where
  ofdm := by rw [ht.only.ofdm, hv.only.ofdm, h.ofdm]
  frame := by rw [ht.only.frame, hv.only.frame, h.frame]
  encoded := by rw [ht.only.frame, h.encoded]
  blocks := by rw [ht.only.frame, ht.only.ofdm, h.blocks]
  len b hb := by
    by_cases e : b = dst
    · rw [e, ht.len, hv.len]
    · rw [ht.only.len e, hv.only.len e]
      exact h.len b (List.mem_of_ne_of_mem e hb)
  cell b hb i hi := by
    by_cases e : b = dst
    · subst e
      rw [ht.len] at hi
      exact hc i (hi.trans_le (Nat.mod_le _ _))
    · rw [ht.only.len e] at hi
      rw [ht.only.cell e, hv.only.cell e]
      exact h.cell b (List.mem_of_ne_of_mem e hb) i hi
  scrState hb := by
    by_cases e : dst = .scr
    · exact hscr e
    · rw [ht.only.scrState.resolve_right e, hv.only.scrState.resolve_right e]
      exact h.scrState (List.mem_of_ne_of_mem (Ne.symm e) hb)
  encState hb := by
    by_cases e : dst = .enc
    · exact henc e
    · rw [ht.only.encState.resolve_right e, hv.only.encState.resolve_right e]
      exact h.encState (List.mem_of_ne_of_mem (Ne.symm e) hb)

/-- The first tests of a stage say the same, since they look at the FrameParam and a LEN only. -/
theorem SameFrame.tests {bs : List BufId} {s u : State} (h : SameFrame bs s u) {b : BufId} (hb : b ∈ bs) (n : Nat) :
    s.needFrame.or (s.needLen b n) = u.needFrame.or (u.needLen b n) := by
  simp only [State.needFrame, State.needLen, h.frame, h.len b hb]

theorem SameFrame.cell_of_tests {bs : List BufId} {s u : State} (h : SameFrame bs s u) {b : BufId} (hb : b ∈ bs) {n : Nat}
    (ht : s.needFrame.or (s.needLen b n) = none) : ∀ i < n, s.cell b i = u.cell b i := by
  obtain ⟨-, rfl⟩ : s.frame.valid = true ∧ s.len b = n := by simpa using ht
  exact h.cell b hb

theorem State.needBits_congr {s u : State} {b : BufId} {n : Nat} (h : ∀ i < n, s.cell b i = u.cell b i) :
    s.needBits b n = u.needBits b n := by
  unfold State.needBits
  congr 1
  refine List.find?_congr fun i hi => ?_
  rw [h i (List.mem_range.mp hi)]

/-- A later test may rest on the earlier ones having passed. -/
theorem or_congr_of_none {x x' y y' : Option FaultCause} (hx : x = x') (hy : x = none → y = y') :
    x.or y = x'.or y' := by
  subst hx
  cases x with
  | none => simpa using hy rfl
  | some c => rfl

/-- The test of the bits looks at the cells below a LEN that was tested before it, `mid` being what stands between. -/
theorem SameFrame.tests_bits {bs : List BufId} {s u : State} (h : SameFrame bs s u) {b : BufId} (hb : b ∈ bs) (n : Nat)
    (mid : Option FaultCause) :
    ((s.needFrame.or (s.needLen b n)).or mid).or (s.needBits b n) =
      ((u.needFrame.or (u.needLen b n)).or mid).or (u.needBits b n) :=
  or_congr_of_none (by rw [h.tests hb]) fun ht =>
    State.needBits_congr (h.cell_of_tests hb (Option.or_eq_none_iff.mp ht).1)

/-! Of each stage of the chain, what it does to its destination (`Completed`), and that two runs agree there. -/

theorem State.assembled_completed (s : State) : Completed .data s.frame.nDataBits.toNat s s.assembled :=
  (Completed.write s .data _).setLen _

theorem State.scrambled_completed (s : State) (seed : Nat) :
    Completed .scr s.frame.nDataBits.toNat s (s.scrambled seed) :=
  ((Completed.write s .scr _).setLen _).scr _

theorem State.tailCleared_completed (s : State) : Completed .scr (s.len .scr) s s.tailCleared :=
  Completed.write s .scr _

theorem State.convEncoded_completed (s : State) : Completed .enc (2 * s.frame.nDataBits.toNat) s s.convEncoded :=
  ((Completed.write s .enc _).setLen _).enc _

theorem State.punctured_completed (s : State) : Completed .pun s.frame.nEncodedBits.toNat s s.punctured :=
  (Completed.write s .pun _).setLen _

theorem State.interleaved_completed (s : State) : Completed .int s.frame.nEncodedBits.toNat s s.interleaved :=
  (Completed.write s .int _).setLen _

theorem State.symbolsPacked_completed (s : State) : Completed .sym (48 * s.frame.nSym.toNat) s s.symbolsPacked :=
  (Completed.write s .sym _).setLen _

/-- The outcome of one stage in two runs that agree in its input: the same report, or agreement in its destination too. -/
def AgreeAfter (dst : BufId) (bs : List BufId) (r r' : StageResult) : Prop :=
  r.Both (SameFrame (dst :: bs)) (fun _ _ => True) r'

theorem SameFrame.assemble {bs : List BufId} {s u : State} (h : SameFrame bs s u) (hb : .psdu ∈ bs) :
    AgreeAfter .data bs (assembleStage s) (assembleStage u) := by
  have hf := h.frame
  refine runStage_both (by rw [← hf]; exact h.tests hb _) trivial fun ht => ?_
  have hbits : s.assembledBits = u.assembledBits := by
    have hcell := h.cell_of_tests hb ht
    simp only [State.assembledBits, State.payloadBits, ← hf]
    congr 2
    refine List.flatMap_congr fun i hi => ?_
    rw [hcell i (List.mem_range.mp hi)]
  refine h.extend s.assembled_completed (hf ▸ u.assembled_completed) (fun i hi => ?_) nofun nofun
  have hx := List.getElem?_eq_getElem (l := s.assembledBits) (i := i) (by rw [State.assembledBits_length]; omega)
  rw [s.assembled_cell hx, u.assembled_cell (by rw [← hbits]; exact hx)]

theorem SameFrame.scramble {bs : List BufId} {s u : State} (h : SameFrame bs s u) (hb : .data ∈ bs) (seed : Nat) :
    AgreeAfter .scr bs (scrambleStage seed s) (scrambleStage seed u) := by
  have hf := h.frame
  refine runStage_both (by rw [← hf]; exact h.tests_bits hb _ (needSeed seed)) trivial fun ht => ?_
  simp only [Option.or_eq_none_iff] at ht
  have hbits := State.bits_congr (h.cell_of_tests hb (Option.or_eq_none_iff.mpr ht.1.1))
  refine h.extend (s.scrambled_completed seed) (hf ▸ u.scrambled_completed seed) (fun i hi => ?_) (fun _ => ?_) nofun
  · have hx := List.getElem?_eq_getElem (i := i)
      (l := scrambleOut (BitVec.ofNat 7 seed) (s.bits .data s.frame.nDataBits.toNat)) (by simpa using hi)
    rw [s.scrambled_cell seed hx, u.scrambled_cell seed (by rw [← hf, ← hbits]; exact hx)]
  · show scrambleEnd _ _ = scrambleEnd _ _
    rw [← hf, ← hbits]

theorem SameFrame.tailReset {bs : List BufId} {s u : State} (h : SameFrame bs s u) (hb : .scr ∈ bs) :
    AgreeAfter .scr bs (tailResetStage s) (tailResetStage u) := by
  have hf := h.frame
  refine runStage_both (by rw [← hf]; exact h.tests hb _) trivial fun _ => ?_
  refine h.extend s.tailCleared_completed (h.len _ hb ▸ u.tailCleared_completed) (fun i hi => ?_)
    (fun _ => h.scrState hb) nofun
  have hstart : s.tailStart = u.tailStart := by rw [State.tailStart, hf, State.tailStart]
  rw [State.tailCleared_cell, State.tailCleared_cell, hstart, h.cell _ hb i hi]

theorem SameFrame.convEncode {bs : List BufId} {s u : State} (h : SameFrame bs s u) (hb : .scr ∈ bs) :
    AgreeAfter .enc bs (convEncodeStage s) (convEncodeStage u) := by
  have hf := h.frame
  refine runStage_both (by simpa [hf] using h.tests_bits hb s.frame.nDataBits.toNat none) trivial fun ht => ?_
  have hbits := State.bits_congr (h.cell_of_tests hb (Option.or_eq_none_iff.mp ht).1)
  refine h.extend s.convEncoded_completed (hf ▸ u.convEncoded_completed) (fun i hi => ?_) nofun (fun _ => ?_)
  · have hx := List.getElem?_eq_getElem (i := i) (l := convOut 0 (s.bits .scr s.frame.nDataBits.toNat))
      (by simpa using hi)
    rw [s.convEncoded_cell hx, u.convEncoded_cell (by rw [← hf, ← hbits]; exact hx)]
  · show convEnd _ _ = convEnd _ _
    rw [← hf, ← hbits]

theorem SameFrame.puncture {bs : List BufId} {s u : State} (h : SameFrame bs s u) (hb : .enc ∈ bs) :
    AgreeAfter .pun bs (punctureStage s) (punctureStage u) := by
  have hf := h.frame
  refine runStage_both (by simpa [hf] using h.tests_bits hb (2 * s.frame.nDataBits.toNat) none) trivial fun ht => ?_
  have hcell := h.cell_of_tests hb (Option.or_eq_none_iff.mp ht).1
  refine h.extend s.punctured_completed (hf ▸ u.punctured_completed) (fun i hi => ?_) nofun nofun
  rw [h.encoded] at hi
  rw [s.punctured_cell hi, u.punctured_cell (hf ▸ hi), hcell i hi]

theorem SameFrame.interleave {bs : List BufId} {s u : State} (h : SameFrame bs s u) (hb : .pun ∈ bs) :
    AgreeAfter .int bs (interleaveStage s) (interleaveStage u) := by
  have hf := h.frame
  have ho := h.ofdm
  have hdest : u.destOf = s.destOf := by
    funext k
    rw [State.destOf, State.destOf, ho]
  refine runStage_both ?_ trivial fun ht => ?_
  · simpa [State.needInterleave, State.needGeometry, hf, ho] using
      h.tests_bits hb s.frame.nEncodedBits.toNat s.needGeometry
  · obtain ⟨-, hl, hg, -⟩ := State.needInterleave_eq_none.mp ht
    refine h.extend s.interleaved_completed (hf ▸ u.interleaved_completed) (fun i hi => ?_) nofun nofun
    rw [h.blocks] at hi
    obtain ⟨hm, hk, e⟩ := block_index hi
    have hd : i / s.ofdm.nCbps.toNat * s.ofdm.nCbps.toNat + s.destOf (i % s.ofdm.nCbps.toNat) < s.len .pun := by
      rw [hl, h.blocks]
      exact block_lt hm ((ilvValid_dest hg).1 _ hk)
    have hs := s.interleaved_cell hm hk
    have hu := u.interleaved_cell (hf ▸ hm) (ho ▸ hk)
    rw [← ho, e, hdest] at hu
    rw [e] at hs
    rw [hs, hu, h.cell _ hb _ hd]

theorem SameFrame.split {bs : List BufId} {s u : State} (h : SameFrame bs s u) (hb : .int ∈ bs) :
    AgreeAfter .sym bs (splitStage s) (splitStage u) := by
  have hf := h.frame
  refine runStage_both (by simpa [hf] using h.tests_bits hb s.frame.nEncodedBits.toNat none) trivial fun ht => ?_
  have hbits := State.bits_congr (h.cell_of_tests hb (Option.or_eq_none_iff.mp ht).1)
  refine h.extend s.symbolsPacked_completed (hf ▸ u.symbolsPacked_completed) (fun i hi => ?_) nofun nofun
  have hx := List.getElem?_eq_getElem (i := i)
    (l := splitSymbols s.ofdm.bpsc s.frame.nSym.toNat (s.bits .int s.frame.nEncodedBits.toNat)) (by simpa using hi)
  rw [s.symbolsPacked_cell hx, u.symbolsPacked_cell (by rw [← hf, ← h.ofdm, ← hbits]; exact hx)]

/-- The buffers that agree grow stage by stage, from the payload to the symbols (45_encode_frame.md R147). -/
theorem SameFrame.chain {s u : State} (h : SameFrame [.psdu] s u) (seed : Nat) :
    (chainStages seed s).Both (SameFrame [.sym, .int, .pun, .enc, .scr, .scr, .data, .psdu]) (fun _ _ => True)
      (chainStages seed u) :=
  ((((((h.assemble (by simp)).andThen fun _ _ h => h.scramble (by simp) seed).andThen fun _ _ h =>
    h.tailReset (by simp)).andThen fun _ _ h => h.convEncode (by simp)).andThen fun _ _ h =>
    h.puncture (by simp)).andThen fun _ _ h => h.interleave (by simp)).andThen fun _ _ h =>
    h.split (by simp)

/-- Settles O35: without a FrameParam both runs report that; with one, each stage reads what the stages before it wrote
alike in both runs. -/
theorem frameDependsOnPayloadOnly : Obligations.FrameDependsOnPayloadOnly := by
  intro s u seed hr hofdm hframe hlen hcell
  cases hf : s.needFrame with
  | some c =>
    have hf' : u.needFrame = some c := by rwa [State.needFrame, ← hframe]
    exact ⟨_, _, exec_encodeFrame_of_needFrame seed hf, exec_encodeFrame_of_needFrame seed hf', rfl, rfl,
      fun h => absurd h c.code_bounds.1⟩
  | none =>
    have hv := State.needFrame_eq_none.mp hf
    obtain ⟨-, -, -, -, -, -, hblocks, htwice⟩ := hr.frame hv
    have start : SameFrame [.psdu] s.clearStageLens u.clearStageLens := by
      refine ⟨hofdm, hframe, htwice, hblocks, ?_, ?_, by simp, by simp⟩
      · simpa using hlen
      · simpa using hcell
    rw [exec_encodeFrame_of_frame hv, exec_encodeFrame_of_frame (hframe ▸ hv)]
    obtain ⟨t, v, ht, hv, same⟩ | ⟨g, c, t, v, ht, hv, -⟩ := (start.chain seed).cases <;> rw [ht, hv]
    · refine ⟨_, _, rfl, rfl, rfl, rfl, fun _ => ⟨same.scrState (by simp), same.encState (by simp), ?_⟩⟩
      intro b i hb hi
      have hmem : b ∈ [BufId.sym, .int, .pun, .enc, .scr, .scr, .data, .psdu] := by cases b <;> decide
      exact ⟨same.len b hmem, same.cell b hmem i hi⟩
    · exact ⟨_, _, rfl, rfl, rfl, rfl, fun h => absurd h c.code_bounds.1⟩

end Sys2Proof.Machine
end

section
/-! SUPPORT. The host's accesses: each primitive inside its domain and outside it (spec/20_memory.md R50, R55, R56,
spec/10_state.md R22, R40). -/

namespace Sys2Proof.Machine

/-! ### Buffer ids and LEN register numbers -/

theorem BufId.id_le_six (b : BufId) : b.id ≤ 6 := by
  cases b <;> decide

@[simp] theorem BufId.ofId_id (b : BufId) : BufId.ofId b.id = some b := by
  cases b <;> rfl

theorem BufId.eq_id_of_ofId {n : Nat} {b : BufId} (h : BufId.ofId n = some b) : n = b.id := by
  unfold BufId.ofId at h
  split at h <;> cases h <;> rfl

@[simp] theorem lenRegister_id (b : BufId) : lenRegister (16 + b.id) = some b := by
  simp [lenRegister]

theorem eq_id_of_lenRegister {n : Nat} {b : BufId} (h : lenRegister n = some b) : n = 16 + b.id := by
  unfold lenRegister at h
  split at h
  · cases h
  · have := BufId.eq_id_of_ofId h
    omega

/-! ### The primitives inside their domain, and their refusal outside it -/

section

variable {run : Instr → State → Host.Outcome State Fault Refusal} {s : State}

theorem perform_cmd_of_lt {cw : Nat} (h : cw < 2 ^ 40) :
    perform run (.cmd cw) s = issue run (BitVec.ofNat 40 cw) (s.setReply none) := by
  simp only [perform, if_pos h]

theorem perform_regRead {n : Nat} {w : Word} (h : s.regRead n = some w) :
    perform run (.regRead n) s = .next (s.setReply (some (.regValue w))) := by
  simp only [perform, h]

theorem perform_regWrite {b : BufId} {v : Nat} (h : v ≤ s.cap b) :
    perform run (.regWrite (16 + b.id) v) s = .next ((s.setLen b v).setReply none) := by
  have hn : ¬ 22 < 16 + b.id := by
    have := b.id_le_six
    omega
  simp only [perform, if_neg hn, lenRegister_id, if_pos h]

theorem perform_bufRead {b : BufId} {i : Nat} (h : i < s.cap b) :
    perform run (.bufRead b.id i) s = .next (s.setReply (some (.cellValue (s.cell b i)))) := by
  simp only [perform, BufId.ofId_id, if_pos h]

theorem perform_bufWrite {b : BufId} {i v : Nat} (hi : i < s.cap b) (hv : v < 256) :
    perform run (.bufWrite b.id i v) s = .next ((s.writeCells b [(i, BitVec.ofNat 8 v)]).setReply none) := by
  simp only [perform, BufId.ofId_id, if_neg (Nat.not_le.mpr hi), if_neg (Nat.not_le.mpr hv)]

theorem issue_of_decode_error {cw : CommandWord} {e : DecodeError} (s : State) (h : decode cw = .error e) :
    issue run cw s = .next (s.faultEntry (commandFault e) (opField cw) 0) := by
  simp only [issue, h]

/-- An illegal command word is no reason to refuse (R55): like a legal one it ends in a next state. -/
theorem issue_completes (cw : CommandWord) (s : State) : ∃ t, issue exec cw s = .next t := by
  cases h : decode cw with
  | ok i => exact issue_of_decode_ok s h ▸ everyCommandCompletes i s
  | error e => exact ⟨_, issue_of_decode_error s h⟩

theorem perform_completes_of_defined {a : HostAct} (h : a.Defined s.cap) : ∃ t, perform exec a s = .next t := by
  cases a with
  | cmd cw => exact perform_cmd_of_lt h ▸ issue_completes _ _
  | regRead n =>
    cases hr : s.regRead n with
    | none => exact absurd h (Nat.not_le.mpr (State.regRead_eq_none.mp hr))
    | some w => exact ⟨_, perform_regRead hr⟩
  | regWrite n v =>
    obtain ⟨b, rfl, hv⟩ := h
    exact ⟨_, perform_regWrite hv⟩
  | bufRead n i =>
    obtain ⟨b, rfl, hi⟩ := h
    exact ⟨_, perform_bufRead hi⟩
  | bufWrite n i v =>
    obtain ⟨b, rfl, hi, hv⟩ := h
    exact ⟨_, perform_bufWrite hi hv⟩
  | reset => exact ⟨_, rfl⟩

/-- Outside its domain a primitive is refused by the first test it fails (log 10). -/
theorem perform_refused_of_not_defined {a : HostAct} (h : ¬ a.Defined s.cap) : ∃ r, perform run a s = .refused r := by
  cases a with
  | cmd cw => exact ⟨.commandWordTooLarge cw, if_neg h⟩
  | regRead n =>
    have hr : s.regRead n = none := State.regRead_eq_none.mpr (Nat.lt_of_not_le h)
    exact ⟨.noSuchRegister n, by simp only [perform, hr]⟩
  | regWrite n v =>
    by_cases hn : 22 < n
    · exact ⟨.noSuchRegister n, if_pos hn⟩
    · cases hb : lenRegister n with
      | none => exact ⟨.readOnlyRegister n, by simp only [perform, if_neg hn, hb]⟩
      | some b =>
        have hv : ¬ v ≤ s.cap b := fun hv => h ⟨b, eq_id_of_lenRegister hb, hv⟩
        exact ⟨.lenAboveCapacity b v, by simp only [perform, if_neg hn, hb, if_neg hv]⟩
  | bufRead n i =>
    cases hb : BufId.ofId n with
    | none => exact ⟨.noSuchBuffer n, by simp only [perform, hb]⟩
    | some b =>
      have hi : ¬ i < s.cap b := fun hi => h ⟨b, BufId.eq_id_of_ofId hb, hi⟩
      exact ⟨.noSuchCell b i, by simp only [perform, hb, if_neg hi]⟩
  | bufWrite n i v =>
    cases hb : BufId.ofId n with
    | none => exact ⟨.noSuchBuffer n, by simp only [perform, hb]⟩
    | some b =>
      by_cases hi : s.cap b ≤ i
      · exact ⟨.noSuchCell b i, by simp only [perform, hb, if_pos hi]⟩
      · have hv : 256 ≤ v := by
          by_contra hv
          exact h ⟨b, BufId.eq_id_of_ofId hb, Nat.lt_of_not_le hi, Nat.lt_of_not_le hv⟩
        exact ⟨.cellValueTooLarge v, by simp only [perform, hb, if_neg hi, if_pos hv]⟩
  | reset => exact absurd trivial h

/-- Refusal and completion exclude each other, so a primitive is refused outside its domain only. -/
theorem perform_refused_iff {a : HostAct} : (∃ r, perform exec a s = .refused r) ↔ ¬ a.Defined s.cap := by
  refine ⟨?_, perform_refused_of_not_defined⟩
  rintro ⟨r, hr⟩ h
  obtain ⟨t, ht⟩ := perform_completes_of_defined h
  cases hr.symm.trans ht

end

/-! ### What the two writes change -/

@[simp] theorem State.setPending_regRead (s : State) (as : List HostAct) (n : Nat) :
    (s.setPending as).regRead n = s.regRead n := rfl

@[simp] theorem State.setReply_regRead (s : State) (r : Option HostReply) (n : Nat) :
    (s.setReply r).regRead n = s.regRead n := rfl

theorem State.setLen_sameRegsBut (s : State) (b : BufId) (n : Nat) : SameRegsBut [16 + b.id] s (s.setLen b n) := by
  refine sameRegsBut_of_fields (.inr rfl) (.inr rfl) (.inr rfl) (.inr rfl) (.inr rfl) (.inr rfl) (.inr rfl)
    (.inr rfl) fun b' => ?_
  by_cases h : b' = b
  · exact .inl (by simp [h])
  · exact .inr (by rw [State.setLen_buf, if_neg h])

theorem State.writeCells_sameRegs (s : State) (b : BufId) (ws : List Host.Cell) :
    SameRegsBut [] s (s.writeCells b ws) := by
  refine sameRegsBut_of_fields (.inr rfl) (.inr rfl) (.inr rfl) (.inr rfl) (.inr rfl) (.inr rfl) (.inr rfl)
    (.inr rfl) fun b' => .inr ?_
  by_cases h : b' = b <;> simp [State.writeCells_buf, h]

/-- A LEN value up to the capacity is stored as it is: it fits the register. -/
theorem State.setLen_len_of_le_cap (s : State) {b : BufId} {n : Nat} (h : n ≤ s.cap b) : (s.setLen b n).len b = n := by
  rw [State.setLen_len, if_pos rfl, Nat.mod_eq_of_lt (h.trans_lt (s.cap_lt b))]

/-! ### The statements about the step -/

/-- Settles O43: the step performs the pending action, which is refused exactly outside its domain; an illegal word
takes the branch of the issue that reports a COMMAND fault. -/
theorem refusedAccesses : Obligations.RefusedAccesses := by
  intro s a rest hp
  rw [step_of_pending hp]
  refine ⟨perform_refused_iff, perform_completes_of_defined (s := s.setPending rest), ?_⟩
  rintro cw e rfl hd
  refine ⟨_, (perform_cmd exec cw _).trans (issue_of_decode_error _ hd), ?_⟩
  cases e <;> rfl

/-- Settles O44: the step is the primitive inside its domain, and each write's state operation has its own frame. -/
theorem hostAccesses : Obligations.HostAccesses := by
  intro s rest
  refine ⟨fun n w hp hr => ?regRead, fun b i hp hi => ?bufRead, fun b v hp hv => ?regWrite,
    fun b i v hp hi hv => ?bufWrite⟩ <;> rw [step_of_pending hp]
  case regRead => exact perform_regRead hr
  case bufRead => exact perform_bufRead (s := s.setPending rest) hi
  case regWrite =>
    refine ⟨_, perform_regWrite hv, (s.setPending rest).setLen_len_of_le_cap hv, fun n hn => ?_, fun b' _ j => ?_,
      rfl, rfl⟩
    · exact (s.setPending rest).setLen_sameRegsBut b v n hn
    · simp
  case bufWrite =>
    refine ⟨_, perform_bufWrite hi hv, ?_, fun b' j hne => ?_, fun n hn => ?_, rfl, rfl⟩
    · simpa [State.writeCells_single_cell] using hv
    · have hcell : ¬ (b' = b ∧ j = i) := by simpa using hne
      simp [State.writeCells_single_cell, hcell]
    · exact (s.setPending rest).writeCells_sameRegs b _ n hn

end Sys2Proof.Machine
end

section
/-! SUPPORT. The decoder by opcode, its two round trips with the encoder, and the step that issues an illegal command
word (spec/30_encoding.md R70 to R72, R76 to R78). -/

namespace Sys2Proof

/-! ### What the decoder answers, per opcode (R71, R72, R76) -/

/-- The commands without an operand: their ARG is reserved (R72). -/
def reservedArgCommands : List Instr :=
  [.assemble, .tailReset, .convEncode, .puncture, .interleave, .deinterleave, .split]

/-- An opcode is none of the map's, or that of one of the eleven commands (R71). -/
theorem opcode_cases (op : Byte) :
    (op.toNat = 0 ∨ 0x0C ≤ op.toNat) ∨ op = 0x01 ∨ op = 0x02 ∨ op = 0x04 ∨ op = 0x0B ∨
      ∃ i ∈ reservedArgCommands, op = i.opcode := by
  decide +revert

section

variable {cw : CommandWord}

theorem decode_of_unknown (h : (opField cw).toNat = 0 ∨ 0x0C ≤ (opField cw).toNat) :
    decode cw = .error .unknownOpcode := by
  unfold decode
  split
  case h_12 => rfl
  all_goals omega

theorem decode_of_ofdmParam (h : opField cw = 0x01) :
    decode cw = .ok (.ofdmParam (byteField (argField cw) 0) (byteField (argField cw) 1) (byteField (argField cw) 2)
      (byteField (argField cw) 3)) := by
  rw [decode, h]
  rfl

theorem decode_of_frameParam (h : opField cw = 0x02) : decode cw = .ok (.frameParam (argField cw).toInt) := by
  rw [decode, h]
  rfl

theorem decode_of_scramble (h : opField cw = 0x04) : decode cw = .ok (.scramble (argField cw).toNat) := by
  rw [decode, h]
  rfl

theorem decode_of_encodeFrame (h : opField cw = 0x0B) : decode cw = .ok (.encodeFrame (argField cw).toNat) := by
  rw [decode, h]
  rfl

theorem decode_of_reservedArg {i : Instr} (hi : i ∈ reservedArgCommands) (h : opField cw = i.opcode) :
    decode cw = needZeroArg (argField cw) i := by
  simp only [reservedArgCommands, List.mem_cons, List.not_mem_nil, or_false] at hi
  rw [decode, h]
  rcases hi with rfl | rfl | rfl | rfl | rfl | rfl | rfl <;> rfl

/-- A non-zero ARG under an opcode whose ARG is reserved (R76 (b)). -/
theorem decode_of_nonzero_reservedArg (hop : (opField cw).toNat ∈ [0x03, 0x05, 0x06, 0x07, 0x08, 0x09, 0x0A])
    (harg : argField cw ≠ 0) : decode cw = .error .reservedArg := by
  obtain ⟨i, hi, e⟩ : ∃ i ∈ reservedArgCommands, i.opcode.toNat = (opField cw).toNat := List.mem_map.mp hop
  rw [decode_of_reservedArg hi (BitVec.eq_of_toNat_eq e.symm), needZeroArg, if_neg harg]

end

/-! ### The round trips -/

/-- A command without an operand has no field to exceed, and its word carries ARG 0 (R72). -/
theorem wf_and_arg_of_reservedArg {i : Instr} (hi : i ∈ reservedArgCommands) : i.wf = true ∧ i.arg = 0 := by
  revert i
  decide

/-- A word decodes to each well-formed command whose opcode and operand are its fields: every field reads back the
operand that was written to it. -/
theorem decode_of_fields {cw : CommandWord} {i : Instr} (hwf : i.wf = true) (hop : opField cw = i.opcode)
    (harg : argField cw = i.arg) : decode cw = .ok i := by
  cases i with
  | ofdmParam rb0 rb1 rb2 rb3 =>
    obtain ⟨⟨⟨h0, h1⟩, h2⟩, h3⟩ : ((rb0 < 256 ∧ rb1 < 256) ∧ rb2 < 256) ∧ rb3 < 256 := by simpa [Instr.wf] using hwf
    obtain ⟨e0, e1, e2, e3⟩ := byteField_packBlocks h0 h1 h2 h3
    rw [decode_of_ofdmParam hop, harg, Instr.arg, e0, e1, e2, e3]
  | frameParam len =>
    obtain ⟨hlow, hhigh⟩ : -2 ^ 31 ≤ len ∧ len < 2 ^ 31 := by simpa [Instr.wf] using hwf
    rw [decode_of_frameParam hop, harg, Instr.arg, BitVec.toInt_ofInt_eq_self (by norm_num) hlow hhigh]
  | scramble seed =>
    have hseed : seed < 2 ^ 32 := by simpa [Instr.wf] using hwf
    rw [decode_of_scramble hop, harg, Instr.arg, BitVec.toNat_ofNat, Nat.mod_eq_of_lt hseed]
  | encodeFrame seed =>
    have hseed : seed < 2 ^ 32 := by simpa [Instr.wf] using hwf
    rw [decode_of_encodeFrame hop, harg, Instr.arg, BitVec.toNat_ofNat, Nat.mod_eq_of_lt hseed]
  | assemble | tailReset | convEncode | puncture | interleave | deinterleave | split =>
    rw [decode_of_reservedArg (by simp [reservedArgCommands]) hop, harg]
    rfl

/-- What a word decodes to is well formed and has the word's fields as its opcode and operand. -/
theorem fields_of_decode {cw : CommandWord} {i : Instr} (h : decode cw = .ok i) :
    i.wf = true ∧ i.opcode = opField cw ∧ i.arg = argField cw := by
  obtain hop | hop | hop | hop | hop | ⟨j, hj, hop⟩ := opcode_cases (opField cw)
  · cases (decode_of_unknown hop).symm.trans h
  · cases (decode_of_ofdmParam hop).symm.trans h
    exact ⟨by simp [Instr.wf, byteField_lt], hop.symm, packBlocks_byteField _⟩
  · cases (decode_of_frameParam hop).symm.trans h
    have hlow := BitVec.le_toInt (argField cw)
    have hhigh := BitVec.toInt_lt (x := argField cw)
    exact ⟨by simpa [Instr.wf] using And.intro hlow hhigh, hop.symm, BitVec.ofInt_toInt⟩
  · cases (decode_of_scramble hop).symm.trans h
    exact ⟨by simp [Instr.wf], hop.symm, by simp [Instr.arg]⟩
  · cases (decode_of_encodeFrame hop).symm.trans h
    exact ⟨by simp [Instr.wf], hop.symm, by simp [Instr.arg]⟩
  · obtain ⟨hzero, rfl⟩ := needZeroArg_eq_ok.mp ((decode_of_reservedArg hj hop).symm.trans h)
    obtain ⟨hwf, harg⟩ := wf_and_arg_of_reservedArg hj
    exact ⟨hwf, hop.symm, harg.trans hzero.symm⟩

/-- Settles O1: the fields of an encoded word are the command's opcode and operand. -/
theorem decodeOfEncode : Obligations.DecodeOfEncode :=
  fun i hwf => decode_of_fields hwf (opField_encode i) (argField_encode i)

/-- Settles O2: the command has the word's fields as its opcode and operand, and a word is its OP above its ARG. -/
theorem encodeOfDecode : Obligations.EncodeOfDecode := by
  intro cw i h
  obtain ⟨hwf, hop, harg⟩ := fields_of_decode h
  refine ⟨hwf, ?_⟩
  calc encode i
      = opField cw ++ argField cw := by rw [encode, hop, harg]
    _ = cw := append_fields cw

/-- A printed word decodes to the command beside it when it is that command's word. -/
theorem decode_of_encode_eq {cw : CommandWord} {i : Instr} (hcw : encode i = cw) (hwf : i.wf = true) :
    decode cw = .ok i :=
  hcw ▸ decodeOfEncode i hwf

/-- Settles O3: each printed word is the encoding of the command beside it. -/
theorem printedWordsDecode : Obligations.PrintedWordsDecode :=
  ⟨decode_of_encode_eq (by decide) (by decide), decode_of_encode_eq (by decide) (by decide),
    decode_of_encode_eq (by decide) (by decide), decode_of_encode_eq (by decide) (by decide),
    decode_of_encode_eq (by decide) (by decide), decode_of_encode_eq (by decide) (by decide),
    decode_of_encode_eq (by decide) (by decide), decode_of_encode_eq (by decide) (by decide)⟩

end Sys2Proof

namespace Sys2Proof.Machine

/-! ### The step that issues an illegal command word (R76) -/

/-- Fault entry writes STATUS and FAULT_INFO only (60_exceptions.md R170). -/
theorem State.faultEntry_sameRegsBut (s : State) (c : FaultCause) (op stage : Byte) :
    SameRegsBut [0, 1] s (s.faultEntry c op stage) :=
  sameRegsBut_of_fields (.inl (by simp)) (.inl (by simp)) (.inr rfl) (.inr rfl) (.inr rfl) (.inr rfl) (.inr rfl)
    (.inr rfl) fun _ => .inr rfl

/-- The step that issues a word the decoder rejects is fault entry for the decoder's reason, with STAGE 0. -/
theorem step_of_decode_error {s : State} {cw : CommandWord} {rest : List HostAct} {e : DecodeError}
    (hp : s.pending = .cmd cw.toNat :: rest) (hd : decode cw = .error e) :
    step s = .next (((s.setPending rest).setReply none).faultEntry (commandFault e) (opField cw) 0) := by
  rw [step_of_pending hp, perform_cmd, issue_of_decode_error _ hd]

/-- Such a step reports a COMMAND fault with the reason's SUB and changes nothing else. -/
theorem step_of_decode_error_only_reports {s : State} {cw : CommandWord} {rest : List HostAct} {e : DecodeError}
    (hp : s.pending = .cmd cw.toNat :: rest) (hd : decode cw = .error e) :
    ∃ t, step s = .next t ∧ Faulted t 3 (commandFault e).sub (opField cw) 0 0 ∧
      SameRegsBut [0, 1] s t ∧ SameCellsBut [] s t ∧ t.psduMax = s.psduMax ∧ t.pending = rest := by
  obtain ⟨hcode, hinfo⟩ : (commandFault e).code = 3 ∧ (commandFault e).info = 0 := by
    cases e <;> exact ⟨rfl, rfl⟩
  refine ⟨_, step_of_decode_error hp hd, ⟨?_, hinfo⟩, ?_, fun _ _ _ => rfl, rfl, rfl⟩
  · rw [State.faultEntry_status, Status.ofFault, hcode]
  · exact State.faultEntry_sameRegsBut ((s.setPending rest).setReply none) _ _ _

/-- Settles O5: in both cases the decoder rejects the word, for the reason the report gives. -/
theorem illegalCommandOnlyReports : Obligations.IllegalCommandOnlyReports := by
  intro s cw rest hp
  rw [← opField_toNat, ← argField_toNat, BitVec.ofNat_toNat, BitVec.setWidth_eq]
  refine ⟨fun hop => ?unknown, fun hop harg => ?reserved⟩
  case unknown => exact step_of_decode_error_only_reports hp (decode_of_unknown hop)
  case reserved =>
    have hne : argField cw ≠ 0 := fun h => harg (by rw [h]; rfl)
    exact step_of_decode_error_only_reports hp (decode_of_nonzero_reservedArg hop hne)

end Sys2Proof.Machine
end

section
/-! SUPPORT. The two parameter commands: what both leave unchanged, the records they write, and what these depend on
(spec/40_parameters.md R91 to R95). -/

namespace Sys2Proof.Machine

/-! ### What both parameter commands keep -/

/-- `t` is what a parameter command makes of `s`: the statements at the head of R91 and R94 were performed on the
buffers, and beside them only the report and the two parameter records are new. -/
structure ParamUpdate (s t : State) : Prop where
  bufs : t.bufs = s.discardFrame.bufs
  scrState : t.scrState = s.scrState
  encState : t.encState = s.encState
  outside : SameOutside s t

theorem ParamUpdate.discardFrame (s : State) : ParamUpdate s s.discardFrame := ⟨rfl, rfl, rfl, rfl, rfl, rfl⟩

theorem ParamUpdate.setOfdm {s t : State} (h : ParamUpdate s t) (r : OfdmRegs) : ParamUpdate s (t.setOfdm r) :=
  ⟨h.bufs, h.scrState, h.encState, h.outside⟩

theorem ParamUpdate.setFrame {s t : State} (h : ParamUpdate s t) (r : FrameRegs) : ParamUpdate s (t.setFrame r) :=
  ⟨h.bufs, h.scrState, h.encState, h.outside⟩

theorem ParamUpdate.succeed {s t : State} (h : ParamUpdate s t) (op : Byte) : ParamUpdate s (t.succeed op) :=
  ⟨h.bufs, h.scrState, h.encState, h.outside⟩

theorem ParamUpdate.faultEntry {s t : State} (h : ParamUpdate s t) (c : FaultCause) (op stage : Byte) :
    ParamUpdate s (t.faultEntry c op stage) :=
  ⟨h.bufs, h.scrState, h.encState, h.outside⟩

theorem ParamUpdate.buf {s t : State} (h : ParamUpdate s t) (b : BufId) : t.buf b = s.discardFrame.buf b := by
  rw [State.buf, h.bufs, State.buf]

theorem ParamUpdate.stageLensZero {s t : State} (h : ParamUpdate s t) : StageLensZero t := by
  intro b hb
  rw [State.len, h.buf, ← State.len, State.discardFrame_len, if_neg hb]

theorem ParamUpdate.sameCells {s t : State} (h : ParamUpdate s t) : SameCellsBut [] s t := by
  intro b _ i
  rw [State.cell, h.buf, ← State.cell, State.discardFrame_cell]

/-- Every LEN register is listed or that of PSDU, which stays (R202). -/
theorem ParamUpdate.len_listed_or_same {s t : State} (h : ParamUpdate s t) {ns : List Nat}
    (hns : ∀ n, 17 ≤ n → n ≤ 22 → n ∈ ns) (b : BufId) :
    16 + b.id ∈ ns ∨ (t.buf b).len = (s.buf b).len := by
  by_cases hb : b = .psdu
  · exact .inr (by rw [h.buf, State.discardFrame_buf, if_pos hb])
  · have hpos : 1 ≤ b.id := by
      cases b with
      | psdu => exact absurd rfl hb
      | _ => decide
    have hle := b.id_le_six
    exact .inl (hns _ (by omega) (by omega))

/-- The registers that OFDM_PARAM does not write (R91). -/
theorem ParamUpdate.sameRegs {s t : State} (h : ParamUpdate s t) :
    SameRegsBut [0, 1, 2, 3, 4, 5, 6, 7, 8, 9, 10, 11, 12, 17, 18, 19, 20, 21, 22] s t :=
  sameRegsBut_of_fields (.inl (by simp)) (.inl (by simp)) (.inl fun n _ _ => by interval_cases n <;> simp)
    (.inl (by simp)) (.inl fun n _ _ => by interval_cases n <;> simp) (.inl (by simp)) (.inr h.scrState)
    (.inr h.encState) (h.len_listed_or_same fun n _ _ => by interval_cases n <;> simp)

/-- The registers that FRAME_PARAM does not write, which leaves the OfdmParam as it is (R94). -/
theorem ParamUpdate.sameRegs_of_ofdm {s t : State} (h : ParamUpdate s t) (ho : t.ofdm = s.ofdm) :
    SameRegsBut [0, 1, 2, 8, 9, 10, 11, 12, 17, 18, 19, 20, 21, 22] s t :=
  sameRegsBut_of_fields (.inl (by simp)) (.inl (by simp)) (.inr ho)
    (.inl (by simp)) (.inl fun n _ _ => by interval_cases n <;> simp) (.inl (by simp)) (.inr h.scrState)
    (.inr h.encState) (h.len_listed_or_same fun n _ _ => by interval_cases n <;> simp)

/-! ### Registers of absent records -/

theorem State.regRead_of_no_frame {t : State} (h : t.frame = .none) {n : Nat} (h8 : 8 ≤ n) (h12 : n ≤ 12) :
    t.regRead n = some 0 := by
  interval_cases n <;> simp [State.regRead, h, FrameRegs.none]

theorem State.regRead_of_no_params {t : State} (ho : t.ofdm = .none) (hf : t.frame = .none) {n : Nat} (h2 : 2 ≤ n)
    (h12 : n ≤ 12) : t.regRead n = some 0 := by
  rcases Nat.lt_or_ge n 8 with h8 | h8
  · interval_cases n <;> simp [State.regRead, ho, hf, OfdmRegs.none, FrameRegs.none, validWord]
  · exact State.regRead_of_no_frame hf h8 h12

/-! ### OFDM_PARAM -/

/-- Settles O8: the four codes are an assignment, whose derived record has the fields of R91. -/
theorem ofdmParamDerivesRecord : Obligations.OfdmParamDerivesRecord := by
  intro s c0 c1 c2 c3 h0 h1 h2 h3
  obtain ⟨a, hc⟩ := RbAssignment.ofCodes_ok_of_le h0 h1 h2 h3
  obtain ⟨-, -, hbpsc, havg, hcbps, hdbps⟩ := OfdmRegs.derive_toNat hc
  have kept := ((ParamUpdate.discardFrame s).setOfdm (.derive c0 c1 c2 c3 a)).succeed 0x01
  refine ⟨_, exec_ofdmParam_of_ok s hc, ⟨rfl, rfl⟩, rfl, rfl, hbpsc, havg, hcbps.trans (by ring), ?_,
    fun n => State.regRead_of_no_frame rfl, kept.stageLensZero, kept.sameRegs, kept.sameCells, kept.outside⟩
  calc 2 * (OfdmRegs.derive c0 c1 c2 c3 a).nDbps.toNat
      = 12 * (costOfCode c0 + costOfCode c1 + costOfCode c2 + costOfCode c3) := by rw [hdbps]; ring
    _ = (OfdmRegs.derive c0 c1 c2 c3 a).nCbps.toNat := hcbps.symm

/-- Settles O9: the block is the one the codes are refused for, and fault entry keeps the absent records. -/
theorem ofdmParamRejectsBadCode : Obligations.OfdmParamRejectsBadCode := by
  intro s c0 c1 c2 c3 b hb hbad hlow
  have kept := ((ParamUpdate.discardFrame s).setOfdm .none).faultEntry (.rbEncoding b) 0x01 0x01
  exact ⟨_, exec_ofdmParam_of_error s (RbAssignment.ofCodes_eq_error.mpr ⟨hb, hbad, hlow⟩), ⟨rfl, rfl⟩,
    fun n => State.regRead_of_no_params rfl rfl, kept.stageLensZero, kept.sameRegs, kept.sameCells, kept.outside⟩

/-! ### FRAME_PARAM -/

theorem State.needPayload_of_neg {s : State} {len : Int} (hv : s.ofdm.valid = true) (h : len < 0) :
    s.needPayload len = some .psduNegative := by
  simp [State.needPayload, hv, h]

theorem State.needPayload_of_gt {s : State} {len : Int} (hv : s.ofdm.valid = true) (h : (s.psduMax.val : Int) < len) :
    s.needPayload len = some .psduTooLarge := by
  have hpos : ¬ len < 0 := by omega
  simp [State.needPayload, hv, h, hpos]

theorem State.needPayload_of_le {s : State} {len : Int} (hv : s.ofdm.valid = true) (h0 : 0 ≤ len)
    (h : len ≤ s.psduMax.val) : s.needPayload len = none := by
  simp [State.needPayload, hv, h0.not_gt, h.not_gt]

/-- What every fault of FRAME_PARAM leaves (R94). -/
theorem discardFrame_faultEntry_frameDiscarded (s : State) (c : FaultCause) (op stage : Byte) :
    FrameDiscarded s (s.discardFrame.faultEntry c op stage) := by
  have kept := (ParamUpdate.discardFrame s).faultEntry c op stage
  exact ⟨rfl, fun n => State.regRead_of_no_frame rfl, rfl, kept.stageLensZero, kept.sameRegs_of_ofdm rfl,
    kept.sameCells, kept.outside⟩

/-- A payload length up to PSDU_MAX fits PSDU_SIZE (00_scope.md R7). -/
theorem FrameRegs.derive_psduSize {s : State} {len : Nat} (h : len ≤ s.psduMax.val) (nDbps nCbps : Nat) :
    (FrameRegs.derive len nDbps nCbps).psduSize.toNat = len := by
  have hmax := s.psduMax.isLt
  rw [FrameRegs.derive, BitVec.toNat_ofNat, Nat.mod_eq_of_lt (by omega)]

/-- Settles O10: the length passes its tests, and the derived record has the fields of R94. -/
theorem frameParamDerivesRecord : Obligations.FrameParamDerivesRecord := by
  intro s n hr hv hn
  obtain ⟨-, hsize, hsym, -, hdata, hneed, -, henc, -⟩ := hr.frame_derive hv (hn.trans_lt s.psduMax.isLt)
  have kept := ((ParamUpdate.discardFrame s).setFrame (.derive n s.ofdm.nDbps.toNat s.ofdm.nCbps.toNat)).succeed 0x02
  have hnone : s.needPayload n = none := State.needPayload_of_le hv (by omega) (by omega)
  refine ⟨_, exec_frameParam_of_none hnone, ⟨rfl, rfl⟩, ?_, hsize, hsym,
    hdata.trans (congrArg (· * _) hsym.symm), hneed.symm, henc.trans (congrArg (· * _) hsym.symm), kept.stageLensZero,
    kept.sameRegs_of_ofdm rfl, kept.sameCells, kept.outside⟩
  exact congrArg (fun v => some (validWord v true)) hv

/-- Settles O11: one test of R93 per clause. -/
theorem payloadLengthIsTested : Obligations.PayloadLengthIsTested := by
  intro s len hv
  refine ⟨fun hneg => ?negative, fun hgt => ?tooLarge, fun hpos hle => ?accepted⟩
  case negative =>
    exact ⟨_, exec_frameParam_of_some (State.needPayload_of_neg hv hneg), ⟨rfl, rfl⟩,
      discardFrame_faultEntry_frameDiscarded s _ _ _⟩
  case tooLarge =>
    exact ⟨_, exec_frameParam_of_some (State.needPayload_of_gt hv hgt), ⟨rfl, rfl⟩,
      discardFrame_faultEntry_frameDiscarded s _ _ _⟩
  case accepted =>
    have hsize := FrameRegs.derive_psduSize (s := s) (len := len.toNat) (by omega) s.ofdm.nDbps.toNat s.ofdm.nCbps.toNat
    refine ⟨_, exec_frameParam_of_none (State.needPayload_of_le hv hpos hle), ⟨rfl, rfl⟩, ?_⟩
    rw [State.succeed_frame, State.setFrame_frame, hsize, Int.toNat_of_nonneg hpos]

/-! ### What the records depend on -/

/-- Settles O13: both runs take the same branch, and what that writes names no other part of the state. -/
theorem parametersDependOnOperandsOnly : Obligations.ParametersDependOnOperandsOnly := by
  refine ⟨fun s u s' u' c0 c1 c2 c3 es eu => ?ofdm, fun s u s' u' len hmax hvalid hcbps hdbps es eu => ?frame⟩
  case ofdm =>
    cases hc : RbAssignment.ofCodes c0 c1 c2 c3 with
    | error b =>
      rw [exec_ofdmParam_of_error _ hc] at es eu
      cases es
      cases eu
      exact ⟨rfl, rfl⟩
    | ok a =>
      rw [exec_ofdmParam_of_ok _ hc] at es eu
      cases es
      cases eu
      exact ⟨rfl, rfl⟩
  case frame =>
    have same : u.needPayload len = s.needPayload len := by simp only [State.needPayload, hmax, hvalid]
    cases hc : s.needPayload len with
    | some c =>
      rw [exec_frameParam_of_some hc] at es
      rw [exec_frameParam_of_some (same.trans hc)] at eu
      cases es
      cases eu
      exact ⟨rfl, rfl, rfl⟩
    | none =>
      rw [exec_frameParam_of_none hc, hdbps, hcbps] at es
      rw [exec_frameParam_of_none (same.trans hc)] at eu
      cases es
      cases eu
      exact ⟨rfl, rfl, rfl⟩

/-! ### The reachable sums of costs (R92) -/

/-- No four costs add up to 21, 23 or less than 4. -/
theorem cost_sum_mem {c0 c1 c2 c3 : Nat} (h0 : c0 ≤ 3) (h1 : c1 ≤ 3) (h2 : c2 ≤ 3) (h3 : c3 ≤ 3) :
    let t := costOfCode c0 + costOfCode c1 + costOfCode c2 + costOfCode c3
    (4 ≤ t ∧ t ≤ 20) ∨ t = 22 ∨ t = 24 := by
  have m0 := costOfCode_mem h0
  have m1 := costOfCode_mem h1
  have m2 := costOfCode_mem h2
  have m3 := costOfCode_mem h3
  simp only [List.mem_cons, List.not_mem_nil, or_false] at m0 m1 m2 m3
  omega

/-- Each of the 19 sums of R92 is taken. -/
theorem exists_cost_sum {t : Nat} (ht : t ≤ 24) (h : (4 ≤ t ∧ t ≤ 20) ∨ t = 22 ∨ t = 24) :
    ∃ a b c d : Fin 4, costOfCode a + costOfCode b + costOfCode c + costOfCode d = t := by
  revert t
  decide +kernel

/-- Settles O26: the block size 12 t is one of the five exactly for the five sums. -/
theorem fiveGeometriesAreValid : Obligations.FiveGeometriesAreValid := by
  refine ⟨fun t ht => ⟨?_, exists_cost_sum ht⟩, fun t ht => (ilvValid_total ht).trans ?_⟩
  · rintro ⟨a, b, c, d, rfl⟩
    exact cost_sum_mem (by omega) (by omega) (by omega) (by omega)
  · simp only [validBlockSizes, List.mem_cons, List.not_mem_nil, or_false]
    omega

end Sys2Proof.Machine
end

section
/-! SUPPORT. The frame a stage command leaves when it succeeds (spec/20_memory.md R64). -/

namespace Sys2Proof.Machine

/-- A state that differs in one destination only, with a success reported over it: the registers that may differ are the
report, the destination's shift register and its LEN; the other buffers and all outside are as before. -/
theorem OnlyDst.succeed_frame {dst : BufId} {s t : State} (h : OnlyDst dst s t) (op : Byte) {ns : List Nat}
    (hreport : 0 ∈ ns ∧ 1 ∈ ns) (hscr : 13 ∈ ns ∨ t.scrState = s.scrState) (henc : 14 ∈ ns ∨ t.encState = s.encState)
    (hlen : 16 + dst.id ∈ ns ∨ (t.buf dst).len = (s.buf dst).len) :
    SameRegsBut ns s (t.succeed op) ∧ SameCellsBut [dst] s (t.succeed op) ∧ SameOutside s (t.succeed op) := by
  refine ⟨?_, (h.succeed op).cells, (h.succeed op).outside⟩
  refine sameRegsBut_of_fields (.inl hreport.1) (.inl hreport.2) (.inr h.ofdm) (.inr (by simp [h.ofdm])) (.inr h.frame)
    (.inr (by simp [h.frame])) hscr henc ?_
  intro b
  by_cases hb : b = dst
  · rw [hb]
    exact hlen
  · exact .inr (by simp [h.buf b hb])

theorem State.succeed_succeeded (s : State) (op : Byte) : Succeeded (s.succeed op) op := ⟨rfl, rfl⟩

end Sys2Proof.Machine
end

section
/-! SUPPORT. ASSEMBLE, SCRAMBLE and TAIL_RESET: what each leaves on success, the layout of the assembled frame, the
scrambler as its own inverse, its period, and the tail (spec/41_assemble_scramble_tail.md R100 to R110). -/

namespace Sys2Proof.Machine

/-! ### ASSEMBLE -/

theorem exec_assemble_of_tests {s : State} (hv : s.frame.valid = true)
    (hl : s.len .psdu = s.frame.psduSize.toNat) : exec .assemble s = .next (s.assembled.succeed 0x03) := by
  rw [(exec_of_stage s).1, assembleStage_ok hv hl, finish_done]

/-- ASSEMBLE writes the cells of its bits and no cell above them (R101). -/
theorem State.assembled_cell_of_length_le (s : State) {i : Nat} (h : s.assembledBits.length ≤ i) :
    s.assembled.cell .data i = s.cell .data i := by
  rw [State.assembled, State.setLen_cell, State.writeCells_numbered_cell, if_neg (by simp; omega)]

/-- The service field and what follows the payload are 0 (R101, R102). -/
theorem State.assembled_cell_eq_zero (s : State) {i : Nat} (hi : i < s.frame.nDataBits.toNat)
    (h : i < 16 ∨ 16 + 8 * s.frame.psduSize.toNat ≤ i) : s.assembled.cell .data i = 0 := by
  have hbit : s.assembledBits[i]? = some false := by
    rw [s.assembledBits_getElem? i hi]
    rcases h with h | h
    · rw [if_pos h]
    · rw [if_neg (by omega), if_neg (by omega)]
  exact s.assembled_cell hbit

/-- Bit b of payload byte i, least significant bit first (R101). -/
theorem State.assembled_cell_payload (s : State) {i b : Nat} (hi : i < s.frame.psduSize.toNat) (hb : b < 8)
    (hn : 16 + 8 * s.frame.psduSize.toNat ≤ s.frame.nDataBits.toNat) :
    s.assembled.cell .data (16 + 8 * i + b) = bitCell ((s.cell .psdu i).getLsbD b) := by
  refine s.assembled_cell ?_
  rw [s.assembledBits_getElem? _ (by omega), if_neg (by omega), if_pos (by omega),
    show 16 + 8 * i + b - 16 = 8 * i + b by omega, s.payloadBits_getElem? hi hb]

/-- The layout of the data bits: service field, payload, tail, padding (R100). -/
theorem RegInv.nDataBits_eq {s : State} (h : RegInv s) (hv : s.frame.valid = true) :
    s.frame.nDataBits.toNat = 16 + 8 * s.frame.psduSize.toNat + 6 + s.frame.nPad.toNat := by
  obtain ⟨-, -, -, -, h5, -⟩ := h.frame hv
  exact h5

/-- Settles O14: the assembled bits are the service zeros, the payload and zeros up to N_DATA_BITS, which by R100 leaves
room for them, so that no cell beyond is written. -/
theorem assembleLaysOutFrame : Obligations.AssembleLaysOutFrame := by
  intro s hr hv hl
  have hn := hr.nDataBits_eq hv
  refine ⟨_, exec_assemble_of_tests hv hl, s.assembled.succeed_succeeded _, by simp, ?service, ?payload, ?zeros, ?above,
    s.assembled_completed.only.succeed_frame _ (by simp) (.inr rfl) (.inr rfl) (.inl (by decide))⟩
  case service =>
    intro i hi
    exact s.assembled_cell_eq_zero (by omega) (.inl hi)
  case payload =>
    intro i hi b hb
    rw [State.succeed_cell, s.assembled_cell_payload hi hb (by omega), bitCell_toNat, BitVec.getLsbD, Nat.toNat_testBit]
  case zeros =>
    intro i hlo hhi
    exact s.assembled_cell_eq_zero hhi (.inr hlo)
  case above =>
    intro i hi
    refine s.assembled_cell_of_length_le ?_
    rw [State.assembledBits_length]
    omega

/-! ### SCRAMBLE -/

section
variable {s : State} {seed : Nat}

theorem exec_scramble_of_tests (hv : s.frame.valid = true) (hl : s.len .data = s.frame.nDataBits.toNat)
    (hs : seed ≤ 127) (hb : IsBits s .data s.frame.nDataBits.toNat) :
    exec (.scramble seed) s = .next ((s.scrambled seed).succeed 0x04) := by
  rw [(exec_of_stage s).2.1, scrambleStage_ok hv hl hs hb, finish_done]

theorem State.scrambled_scrState (s : State) (seed : Nat) : (s.scrambled seed).scrState =
    scrambleEnd (BitVec.ofNat 7 seed) (s.bits .data s.frame.nDataBits.toNat) := rfl

/-- SCRAMBLE writes N_DATA_BITS cells and no cell above them (R104). -/
theorem State.scrambled_cell_of_le (s : State) (seed : Nat) {i : Nat} (h : s.frame.nDataBits.toNat ≤ i) :
    (s.scrambled seed).cell .scr i = s.cell .scr i := by
  rw [State.scrambled, State.setScrState_cell, State.setLen_cell, State.writeCells_numbered_cell,
    if_neg (by simp; omega)]

theorem bitCell_getLsbD_zero (x : Bool) : (bitCell x).getLsbD 0 = x := by cases x <;> rfl

/-- What SCR holds after SCRAMBLE, as bits: the scrambler's output for the bits of DATA (R104). -/
theorem State.scrambled_bits (s : State) (seed : Nat) : (s.scrambled seed).bits .scr s.frame.nDataBits.toNat =
    scrambleOut (BitVec.ofNat 7 seed) (s.bits .data s.frame.nDataBits.toNat) := by
  refine List.ext_getElem (by simp) fun i hi ho => ?_
  have hcell := s.scrambled_cell seed (List.getElem?_eq_getElem ho)
  simp only [State.bits, List.getElem_map, List.getElem_range] at hcell ⊢
  rw [hcell]
  exact bitCell_getLsbD_zero _

/-- Where the scrambler's output is the bits that DATA of `u` holds, SCR holds the cells of DATA of `u`. -/
theorem State.scrambled_cell_eq_data {u : State} (hb : IsBits u .data s.frame.nDataBits.toNat)
    (ho : scrambleOut (BitVec.ofNat 7 seed) (s.bits .data s.frame.nDataBits.toNat) =
      u.bits .data s.frame.nDataBits.toNat) {i : Nat} (hi : i < s.frame.nDataBits.toNat) :
    (s.scrambled seed).cell .scr i = u.cell .data i := by
  rw [hb.cell_eq hi]
  refine s.scrambled_cell seed ?_
  rw [ho, hb.bits_getElem? hi]

/-- SCRAMBLE adds to each bit of DATA the bit of any keystream of its seed (R105). -/
theorem State.scrambled_cell_keystream {κ : Nat → Bool} (hκ : IsKeystream seed κ)
    (hb : IsBits s .data s.frame.nDataBits.toNat) {i : Nat} (hi : i < s.frame.nDataBits.toNat) :
    (s.scrambled seed).cell .scr i = bitCell (κ (i + 7) ^^ bitAt s .data i) := by
  refine s.scrambled_cell seed ?_
  rw [scrambleOut_getElem? hκ.2 hκ.window, hb.bits_getElem? hi, Nat.zero_add]
  rfl

/-- SCR_STATE after SCRAMBLE is the window of the keystream that ends with the last bit used (R104). -/
theorem State.scrambled_scrState_window {κ : Nat → Bool} (hκ : IsKeystream seed κ) :
    HoldsWindow κ s.frame.nDataBits.toNat (s.scrambled seed).scrState := by
  have h := scrambleEnd_window hκ.2 hκ.window (s.bits .data s.frame.nDataBits.toNat)
  rwa [State.bits_length, Nat.zero_add] at h

end

/-- Settles O15: the keystream is that of the register loaded with the seed, and the scrambler is its closed form. -/
theorem scrambleAddsKeystream : Obligations.ScrambleAddsKeystream := by
  intro s seed hv hl hs hb
  have hκ := keystreamFrom_isKeystream seed
  refine ⟨_, hκ, _, exec_scramble_of_tests hv hl hs hb, State.succeed_succeeded _ _, by simp, ?cells,
    State.scrambled_scrState_window hκ, fun i hi => s.scrambled_cell_of_le seed hi,
    (s.scrambled_completed seed).only.succeed_frame _ (by simp) (.inl (by simp)) (.inr rfl) (.inl (by decide))⟩
  case cells =>
    intro i hi
    rw [State.succeed_cell, State.scrambled_cell_keystream hκ hb hi, bitCell_toNat]

/-- Settles O16: from state 0 the feedback stays 0. -/
theorem scrambleSeedZeroCopies : Obligations.ScrambleSeedZeroCopies := by
  intro s hv hl hb
  obtain ⟨hout, hend⟩ := scramble_zero (s.bits .data s.frame.nDataBits.toNat)
  exact ⟨_, exec_scramble_of_tests hv hl (Nat.zero_le _) hb, State.succeed_succeeded _ _, hend, by simp [hl],
    fun i hi => State.scrambled_cell_eq_data hb hout hi⟩

/-- Settles O17: the second run takes the first run's output as its input, and adds the same keystream to it. -/
theorem scrambleIsSelfInverse : Obligations.ScrambleIsSelfInverse := by
  intro s t u seed hv hl hs hb hexec hframe hlen hcopy
  rw [exec_scramble_of_tests hv hl hs hb] at hexec
  cases hexec
  have hn : ((s.scrambled seed).succeed 0x04).len .scr = s.frame.nDataBits.toNat := by simp
  rw [hn] at hlen hcopy
  have hub : IsBits u .data u.frame.nDataBits.toNat := by
    rw [hframe]
    intro i hi
    rw [hcopy i hi]
    exact s.scrambled_isBits seed i hi
  have hbits : u.bits .data u.frame.nDataBits.toNat =
      scrambleOut (BitVec.ofNat 7 seed) (s.bits .data s.frame.nDataBits.toNat) := by
    rw [← s.scrambled_bits seed, hframe]
    exact List.map_congr_left fun i hi => by rw [hcopy i (List.mem_range.mp hi)]; rfl
  refine ⟨_, exec_scramble_of_tests (by rw [hframe, hv]) (by rw [hframe, hlen]) hs hub, State.succeed_succeeded _ _,
    by simp [hframe, hl], ?state, ?cells⟩
  case state =>
    exact scrambleEnd_congr _ (by simp [hframe])
  case cells =>
    intro i hi
    rw [hl] at hi
    refine State.scrambled_cell_eq_data (by rwa [hframe]) ?_ (by rwa [hframe])
    rw [hbits, scrambleOut_scrambleOut, hframe]

/-! ### The period of the keystream (R105 (b)): one orbit of prime length 127 holds every non-zero state -/

/-- The register's step, which no input bit enters (R103). -/
def scrNext (st : ShiftReg) : ShiftReg := shiftIn st (scrFeedback st)

/-- The number of ones among the first `n` keystream bits of a state, as KeystreamPeriod counts them. -/
def keystreamOnes (n : Nat) (st : ShiftReg) : Nat := ((scrambleOut st (List.replicate n false)).filter id).length

/-- 127 steps return to 0x7F and one does not; 127 is a prime. -/
theorem minimalPeriod_scrNext : Function.minimalPeriod scrNext 0x7F = 127 := by
  have hprime : Fact (Nat.Prime 127) := ⟨by norm_num⟩
  have hreturn : scrNext^[127] 0x7F = 0x7F := by decide +kernel
  have hmove : scrNext 0x7F ≠ 0x7F := by decide
  exact Function.minimalPeriod_eq_prime hreturn hmove

/-- 0 is not on the orbit of 0x7F: it stays 0. -/
theorem scrNext_iterate_ne_zero {k : Nat} (hk : k < 127) : scrNext^[k] 0x7F ≠ 0 := by
  intro h
  have hper : scrNext^[127] 0x7F = 0x7F := minimalPeriod_scrNext ▸ Function.iterate_minimalPeriod
  rw [← Nat.sub_add_cancel hk.le, Function.iterate_add_apply, h, Function.iterate_fixed (by rfl)] at hper
  exact absurd hper (by decide)

/-- The orbit of 0x7F has as many states as there are non-zero ones. -/
theorem exists_scrNext_iterate {st : ShiftReg} (h : st ≠ 0) : ∃ k < 127, scrNext^[k] 0x7F = st := by
  have hinj : Set.InjOn (fun k => scrNext^[k] 0x7F) (Finset.range 127) := by
    have := Function.iterate_injOn_Iio_minimalPeriod (f := scrNext) (x := 0x7F)
    rwa [minimalPeriod_scrNext, ← Finset.coe_range] at this
  have hcard : (Finset.univ.erase (0 : ShiftReg)).card ≤ (Finset.range 127).card := by
    simp [← FinEnum.card_eq_fintypeCard]
  have hsurj := Finset.surjOn_of_injOn_of_card_le (t := Finset.univ.erase 0) _
    (fun k hk => by simpa using scrNext_iterate_ne_zero (by simpa using hk)) hinj hcard
  simpa using hsurj (by simpa using h : st ∈ _)

theorem scrNext_iterate_127 {st : ShiftReg} (h : st ≠ 0) : scrNext^[127] st = st := by
  obtain ⟨k, -, rfl⟩ := exists_scrNext_iterate h
  rw [← minimalPeriod_scrNext]
  exact (Function.isPeriodicPt_minimalPeriod _ _).apply_iterate k

theorem keystreamOnes_succ (n : Nat) (st : ShiftReg) :
    keystreamOnes (n + 1) st = (scrFeedback st).toNat + keystreamOnes n (scrNext st) := by
  simp only [keystreamOnes, List.replicate_succ, scrambleOut, scrNext, Bool.xor_false]
  cases scrFeedback st <;> simp [Nat.add_comm]

theorem keystreamOnes_succ_last (n : Nat) (st : ShiftReg) :
    keystreamOnes (n + 1) st = keystreamOnes n st + (scrFeedback (scrNext^[n] st)).toNat := by
  induction n generalizing st with
  | zero => exact keystreamOnes_succ 0 st |>.trans (Nat.add_comm _ _)
  | succ n ih =>
    rw [keystreamOnes_succ, ih, keystreamOnes_succ n st, Function.iterate_succ_apply]
    omega

/-- A window of one period holds as many ones wherever it starts. -/
theorem keystreamOnes_iterate (k : Nat) : keystreamOnes 127 (scrNext^[k] 0x7F) = keystreamOnes 127 0x7F := by
  induction k with
  | zero => rfl
  | succ k ih =>
    have hper := (Function.isPeriodicPt_minimalPeriod scrNext 0x7F).apply_iterate k
    rw [minimalPeriod_scrNext] at hper
    have hfirst := keystreamOnes_succ 127 (scrNext^[k] 0x7F)
    have hlast := keystreamOnes_succ_last 127 (scrNext^[k] 0x7F)
    rw [hper] at hlast
    rw [Function.iterate_succ_apply', ← ih]
    omega

theorem keystreamOnes_127 {st : ShiftReg} (h : st ≠ 0) : keystreamOnes 127 st = 64 := by
  obtain ⟨k, -, rfl⟩ := exists_scrNext_iterate h
  rw [keystreamOnes_iterate]
  decide +kernel

/-- Settles O18: every non-zero state lies on the orbit of 0x7F, and period and ones are the same along it. -/
theorem keystreamPeriod : Obligations.KeystreamPeriod := by
  have hshort (k : Nat) (hk : k < 126) : ¬ Function.IsPeriodicPt scrNext (k + 1) 0x7F :=
    Function.not_isPeriodicPt_of_pos_of_lt_minimalPeriod k.succ_ne_zero (by rw [minimalPeriod_scrNext]; omega)
  exact ⟨rfl, fun st h => ⟨scrNext_iterate_127 h, keystreamOnes_127 h⟩, hshort, by decide⟩

/-! ### TAIL_RESET -/

theorem exec_tailReset_of_tests {s : State} (hv : s.frame.valid = true) (hl : s.len .scr = s.frame.nDataBits.toNat) :
    exec .tailReset s = .next (s.tailCleared.succeed 0x05) := by
  rw [(exec_of_stage s).2.2.1, tailResetStage_ok hv hl, finish_done]

/-- Settles O19: the six assignments start at T, and no LEN is set. -/
theorem tailResetZeroesSixCells : Obligations.TailResetZeroesSixCells := by
  intro s hv hl
  exact ⟨_, exec_tailReset_of_tests hv hl, State.succeed_succeeded _ _, s.tailCleared_cell,
    s.tailCleared_completed.only.succeed_frame _ (by simp) (.inr rfl) (.inr rfl)
      (.inr (by simp [State.tailCleared, State.writeCells_buf]))⟩

/-- Settles O20: TAIL_RESET finds the LEN that SCRAMBLE left, and its window is the six cells after the payload. -/
theorem tailIsZeroWhateverTheSeed : Obligations.TailIsZeroWhateverTheSeed := by
  intro s seed hr hv hl hs hb
  have hn := hr.nDataBits_eq hv
  have htail : exec .tailReset ((s.scrambled seed).succeed 0x04) =
      .next (((s.scrambled seed).succeed 0x04).tailCleared.succeed 0x05) :=
    exec_tailReset_of_tests hv (by simp)
  have hrun : runCommands [.scramble seed, .tailReset] s =
      .next (((s.scrambled seed).succeed 0x04).tailCleared.succeed 0x05) := by
    rw [runCommands_cons (exec_scramble_of_tests hv hl hs hb), runCommands_cons htail, runCommands]
  refine ⟨_, hrun, State.succeed_succeeded _ _, by omega, by simp, fun i hlo hhi => ?_⟩
  rw [State.succeed_cell, State.tailCleared_cell, if_pos]
  simp only [State.tailStart, tailBits, State.succeed_frame, State.scrambled_frame]
  omega

end Sys2Proof.Machine
end

section
/-! SUPPORT. CONV_ENCODE and PUNCTURE: what each leaves on success, the encoder as a linear map, and how six zero bits
flush it (spec/42_convolutional_puncture.md R115 to R118). -/

namespace Sys2Proof.Machine

/-! ### CONV_ENCODE -/

section
variable {s : State}

theorem exec_convEncode_of_tests (hv : s.frame.valid = true) (hl : s.len .scr = s.frame.nDataBits.toNat)
    (hb : IsBits s .scr s.frame.nDataBits.toNat) : exec .convEncode s = .next (s.convEncoded.succeed 0x06) := by
  obtain ⟨-, -, -, hexec, -⟩ := exec_of_stage s
  rw [hexec, convEncodeStage_ok hv hl hb, finish_done]

/-- CONV_ENCODE writes 2 N_DATA_BITS cells and no cell above them (R116). -/
theorem State.convEncoded_cell_of_le (s : State) {i : Nat} (h : 2 * s.frame.nDataBits.toNat ≤ i) :
    s.convEncoded.cell .enc i = s.cell .enc i := by
  rw [State.convEncoded, State.setEncState_cell, State.setLen_cell, State.writeCells_numbered_cell,
    if_neg (by simp; omega)]

/-- A buffer's bits are an input that starts at step 0, as `convOut_getElem?` and `convEnd_holdsPast` take it. -/
theorem IsBits.bits_getElem?_zero_add {b : BufId} {n : Nat} (h : IsBits s b n) (j : Nat)
    (hj : j < (s.bits b n).length) : (s.bits b n)[j]? = some (bitAt s b (0 + j)) := by
  rw [Nat.zero_add]
  exact h.bits_getElem? (by simpa using hj)

/-- Each input bit leaves its two parities, one after the other (R115). -/
theorem State.convEncoded_cell_parities (hb : IsBits s .scr s.frame.nDataBits.toNat) {n : Nat}
    (hn : n < s.frame.nDataBits.toNat) :
    s.convEncoded.cell .enc (2 * n) = bitCell (parityA (bitAt s .scr) n) ∧
      s.convEncoded.cell .enc (2 * n + 1) = bitCell (parityB (bitAt s .scr) n) := by
  obtain ⟨hfirst, hsecond⟩ :=
    convOut_getElem? (HoldsPast.zero (bitAt s .scr)) _ hb.bits_getElem?_zero_add n (by simpa using hn)
  rw [Nat.zero_add] at hfirst hsecond
  exact ⟨s.convEncoded_cell hfirst, s.convEncoded_cell hsecond⟩

/-- ENC_STATE after CONV_ENCODE holds the last input bits, the newest in bit 0 (R116). -/
theorem State.convEncoded_holdsPast (hb : IsBits s .scr s.frame.nDataBits.toNat) :
    HoldsPast (bitAt s .scr) s.frame.nDataBits.toNat s.convEncoded.encState := by
  have h := convEnd_holdsPast (HoldsPast.zero (bitAt s .scr)) _ hb.bits_getElem?_zero_add
  rwa [State.bits_length, Nat.zero_add] at h

/-- Where the FrameParam keeps R44 (d), LEN_ENC is not cut to 32 bits. -/
theorem RegInv.convEncoded_len (hr : RegInv s) (hv : s.frame.valid = true) :
    s.convEncoded.len .enc = 2 * s.frame.nDataBits.toNat := by
  have hn := (hr.sizesFit hv).encoded
  have hlt := s.frame.nEncodedBits.isLt
  rw [State.convEncoded_len, if_pos rfl, Nat.mod_eq_of_lt (by omega)]

end

/-- Settles O21: the encoder starts at 0, which holds no past, and by R100 there are more than the seven input bits that
ENC_STATE holds. -/
theorem convEncodeEmitsParities : Obligations.ConvEncodeEmitsParities := by
  intro s hr hv hl hb
  have hn := hr.nDataBits_eq hv
  refine ⟨_, exec_convEncode_of_tests hv hl hb, State.succeed_succeeded _ _, hr.convEncoded_len hv, ?parities, ?state,
    fun i hi => s.convEncoded_cell_of_le hi,
    s.convEncoded_completed.only.succeed_frame _ (by simp) (.inr rfl) (.inl (by simp)) (.inl (by decide))⟩
  case parities =>
    intro n hlt
    obtain ⟨hfirst, hsecond⟩ := State.convEncoded_cell_parities hb hlt
    rw [State.succeed_cell, State.succeed_cell, hfirst, hsecond, bitCell_toNat, bitCell_toNat]
    exact ⟨rfl, rfl⟩
  case state =>
    intro k hk
    rw [State.succeed_encState, State.convEncoded_holdsPast hb k hk, if_pos (by omega)]

/-! ### The encoder is linear (R117 (b)) -/

theorem shiftIn_xor (u v : ShiftReg) (x y : Bool) : shiftIn (u ^^^ v) (x ^^ y) = shiftIn u x ^^^ shiftIn v y := by
  refine BitVec.eq_of_getLsbD_eq fun k hk => ?_
  rw [BitVec.getLsbD_xor, shiftIn_getLsbD _ _ k hk, shiftIn_getLsbD _ _ k hk, shiftIn_getLsbD _ _ k hk]
  split
  · rfl
  · rw [BitVec.getLsbD_xor]

theorem parity_xor (u v : ShiftReg) : parity (u ^^^ v) = (parity u ^^ parity v) := by
  have hcomm : Std.Commutative xor := ⟨Bool.xor_comm⟩
  simp only [parity, BitVec.getLsbD_xor]
  ac_rfl

/-- A parity under a generator mask is linear in the state. -/
theorem parity_mask_xor (u v m : ShiftReg) : parity ((u ^^^ v) &&& m) = (parity (u &&& m) ^^ parity (v &&& m)) := by
  have hmask : (u ^^^ v) &&& m = (u &&& m) ^^^ (v &&& m) :=
    BitVec.eq_of_getLsbD_eq fun k _ => by simp only [BitVec.getLsbD_and, BitVec.getLsbD_xor, Bool.and_xor_distrib_right]
  rw [hmask, parity_xor]

/-- From the xor of two states the encoder puts out, for the xor of two inputs, the xor of the two outputs. -/
theorem convOut_xor (u v : ShiftReg) (xs ys : List Bool) :
    convOut (u ^^^ v) (List.zipWith xor xs ys) = List.zipWith xor (convOut u xs) (convOut v ys) := by
  induction xs generalizing u v ys with
  | nil => rfl
  | cons x xs ih =>
    cases ys with
    | nil => simp [convOut]
    | cons y ys =>
      simp only [List.zipWith_cons_cons, convOut, shiftIn_xor, parity_mask_xor, ih]

/-- A zero bit leaves the state 0 and the parities of 0 are 0. -/
theorem convOut_zero_replicate (n : Nat) : convOut 0 (List.replicate n false) = List.replicate (2 * n) false := by
  have hshift : shiftIn 0 false = 0 := rfl
  have hparity0 : parity (0 &&& genMask0) = false := rfl
  have hparity1 : parity (0 &&& genMask1) = false := rfl
  induction n with
  | zero => rfl
  | succ n ih =>
    simp only [List.replicate_succ, convOut, hshift, hparity0, hparity1, ih, Nat.mul_succ]

/-- Settles O22: the shift and the two parities are linear, so the encoder is, from 0 and 0 to 0. -/
theorem convEncoderIsLinear : Obligations.ConvEncoderIsLinear :=
  ⟨fun xs ys _ => convOut_xor 0 0 xs ys, convOut_zero_replicate⟩

/-! ### Six zero bits flush the encoder (R117 (a)) -/

/-- Zero bits push the state up, one place each. -/
theorem convEnd_replicate_getLsbD (st : ShiftReg) (n : Nat) {k : Nat} (hk : k < 7) :
    (convEnd st (List.replicate n false)).getLsbD k = (decide (n ≤ k) && st.getLsbD (k - n)) := by
  induction n generalizing st with
  | zero => simp [convEnd]
  | succ n ih =>
    rw [List.replicate_succ, convEnd, ih]
    by_cases hn : n ≤ k
    · rw [shiftIn_getLsbD _ _ _ (by omega)]
      by_cases h0 : k - n = 0
      · simp [h0, show ¬ n + 1 ≤ k by omega]
      · simp [h0, hn, show n + 1 ≤ k by omega, Nat.sub_sub]
    · simp [hn, show ¬ n + 1 ≤ k by omega]

/-- Only the oldest bit can be left after six zero bits. -/
theorem convEnd_six_zeros (st : ShiftReg) :
    convEnd st (List.replicate 6 false) = 0x00 ∨ convEnd st (List.replicate 6 false) = 0x40 := by
  have hbits (c : ShiftReg) (hlow : ∀ k < 6, c.getLsbD k = false) (htop : c.getLsbD 6 = st.getLsbD 0) :
      convEnd st (List.replicate 6 false) = c := by
    refine BitVec.eq_of_getLsbD_eq fun k hk => ?_
    rw [convEnd_replicate_getLsbD st 6 hk]
    rcases Nat.lt_or_ge k 6 with hlt | hge
    · rw [hlow k hlt, decide_eq_false (by omega), Bool.false_and]
    · obtain rfl : k = 6 := by omega
      rw [htop, decide_eq_true hge, Bool.true_and]
  cases htop : st.getLsbD 0 with
  | false => exact .inl (hbits 0x00 (by decide) htop.symm)
  | true => exact .inr (hbits 0x40 (by decide) htop.symm)

/-- The oldest bit of the state is shifted out before any parity is taken. -/
theorem convOut_oldest_bit (ys : List Bool) : convOut 0x40 ys = convOut 0 ys := by
  cases ys with
  | nil => rfl
  | cons y ys =>
    have hshift : shiftIn 0x40 y = shiftIn 0 y := by cases y <;> rfl
    rw [convOut, convOut, hshift]

/-- Settles O23: the twelve dropped bits are the six zero bits' own, and neither state left tells on the outputs. -/
theorem sixZerosFlushEncoder : Obligations.SixZerosFlushEncoder := by
  intro st ys
  have hend := convEnd_six_zeros st
  refine ⟨hend, ?_⟩
  rw [convOut_append, List.drop_left' (by simp)]
  rcases hend with h | h
  · rw [h]
  · rw [h, convOut_oldest_bit]

/-! ### PUNCTURE -/

theorem exec_puncture_of_tests {s : State} (hv : s.frame.valid = true)
    (hl : s.len .enc = 2 * s.frame.nDataBits.toNat) (hb : IsBits s .enc (2 * s.frame.nDataBits.toNat)) :
    exec .puncture s = .next (s.punctured.succeed 0x07) := by
  obtain ⟨-, -, -, -, hexec, -⟩ := exec_of_stage s
  rw [hexec, punctureStage_ok hv hl hb, finish_done]

/-- PUNCTURE writes 2 N_DATA_BITS cells and no cell above them (R118). -/
theorem State.punctured_cell_of_le (s : State) {i : Nat} (h : 2 * s.frame.nDataBits.toNat ≤ i) :
    s.punctured.cell .pun i = s.cell .pun i := by
  rw [State.punctured, State.setLen_cell, State.writeCells_numbered_cell, if_neg (by simp; omega)]

/-- Settles O24: at the rate 1/2 no coded bit is dropped. -/
theorem punctureKeepsEveryBit : Obligations.PunctureKeepsEveryBit := by
  intro s hv hl hb
  exact ⟨_, exec_puncture_of_tests hv hl hb, State.succeed_succeeded _ _, by simp, fun i hi => s.punctured_cell hi,
    fun i hi => s.punctured_cell_of_le hi,
    s.punctured_completed.only.succeed_frame _ (by simp) (.inr rfl) (.inr rfl) (.inl (by decide))⟩

end Sys2Proof.Machine
end

section
/-! SUPPORT. INTERLEAVE and DEINTERLEAVE: dest as the transpose of a matrix, what each direction leaves on success, and
each direction undoing the other (spec/43_interleaver.md R125 to R132). -/

namespace Sys2Proof.Machine

/-! ### The permutation (R126 to R128) -/

/-- With stride 1 a group holds one position, so the first permutation moves nothing (R126). -/
theorem perm1_one (n k : Nat) : perm1 n 1 k = k := by
  rw [perm1, Nat.div_one, Nat.one_mul, Nat.mod_one, Nat.add_zero]

/-- The second permutation of 16 c positions sends row r, column q of a matrix with c rows to row q, column r of its
transpose (R127). -/
theorem perm2_mul_add {c q r : Nat} (hr : r < c) : perm2 (16 * c) (c * q + r) = 16 * r + q := by
  have hc : 0 < c := by omega
  have hcol : 16 * (c * q + r) / (16 * c) = q := by
    rw [Nat.mul_div_mul_left _ _ (by norm_num), Nat.mul_add_div hc, Nat.div_eq_of_lt hr, Nat.add_zero]
  have hsub : (16 * c - 1) * q = 16 * (c * q) - q := by rw [Nat.sub_mul, Nat.one_mul, Nat.mul_assoc]
  have hle : q ≤ c * q := Nat.le_mul_of_pos_left q hc
  rw [perm2, ilvCols, hcol, hsub]
  omega

/-- Settles O25: with stride 1 only the second permutation acts, on k = c (k div c) + k mod c. -/
theorem destIsColumnTranspose : Obligations.DestIsColumnTranspose := by
  refine ⟨fun _ _ _ => rfl, fun c k hc _ => ?_, by decide, by decide, by decide⟩
  calc dest (16 * c) 1 k
      = perm2 (16 * c) k := by rw [dest, perm1_one]
    _ = perm2 (16 * c) (c * (k / c) + k % c) := by rw [Nat.div_add_mod]
    _ = 16 * (k % c) + k / c := perm2_mul_add (Nat.mod_lt k hc)

/-! ### What each direction leaves on success (R130, R131) -/

section
variable {s : State}

/-- The tests of both directions pass where the block size is one of the five valid ones (R129). -/
theorem RegInv.needInterleave_eq_none (hr : RegInv s) (hv : s.frame.valid = true)
    (hl : s.len .pun = s.frame.nEncodedBits.toNat) (hn : s.ofdm.nCbps.toNat ∈ validBlockSizes)
    (hb : IsBits s .pun s.frame.nEncodedBits.toNat) : s.needInterleave = none :=
  State.needInterleave_eq_none.mpr ⟨hv, hl, (hr.ilvValid_iff (hr.ofdm_of_frame hv)).mpr hn, hb⟩

theorem exec_interleave_of_tests (h : s.needInterleave = none) :
    exec .interleave s = .next (s.interleaved.succeed 0x08) := by
  obtain ⟨-, -, -, -, -, hexec, -⟩ := exec_of_stage s
  rw [hexec, interleaveStage_ok h, finish_done]

theorem exec_deinterleave_of_tests (h : s.needInterleave = none) :
    exec .deinterleave s = .next (s.deinterleaved.succeed 0x09) := by
  obtain ⟨-, -, -, -, -, -, hexec, -⟩ := exec_of_stage s
  rw [hexec, deinterleaveStage_ok h, finish_done]

end

theorem State.deinterleaved_completed (s : State) : Completed .int s.frame.nEncodedBits.toNat s s.deinterleaved :=
  (Completed.write s .int _).setLen _

/-- Assignments to cells below a bound leave the cells from the bound on as they are. -/
theorem State.writeCells_cell_of_le (s : State) (b b' : BufId) {ws : List Host.Cell} {n i : Nat}
    (hws : ∀ c ∈ ws, c.1 < n) (hi : n ≤ i) : (s.writeCells b ws).cell b' i = s.cell b' i := by
  refine s.writeCells_cell_of_notMem b b' fun hmem => ?_
  obtain ⟨c, hc, rfl⟩ := List.mem_map.mp hmem
  exact (hws c hc).not_ge hi

/-- INTERLEAVE writes no cell above the blocks (R130). -/
theorem State.interleaved_cell_of_le (s : State) {i : Nat} (h : s.frame.nSym.toNat * s.ofdm.nCbps.toNat ≤ i) :
    s.interleaved.cell .int i = s.cell .int i := by
  rw [State.interleaved, State.setLen_cell]
  exact s.writeCells_cell_of_le _ _ (fun _ => State.interleaveWrites_lt) h

/-- DEINTERLEAVE with a valid geometry writes no cell above the blocks (R131). -/
theorem State.deinterleaved_cell_of_le (s : State)
    (hg : ilvValid s.ofdm.nCbps.toNat (stride s.ofdm.avgBpsc.toNat) = true) {i : Nat}
    (h : s.frame.nSym.toNat * s.ofdm.nCbps.toNat ≤ i) : s.deinterleaved.cell .int i = s.cell .int i := by
  rw [State.deinterleaved, State.setLen_cell]
  exact s.writeCells_cell_of_le _ _ (fun _ => State.deinterleaveWrites_lt hg) h

/-- Settles O27: R44 (d) makes N_ENCODED_BITS the end of the last block, so each cell below it is assigned once and none
from it on. -/
theorem interleavePermutesBlocks : Obligations.InterleavePermutesBlocks := by
  intro s hr hv hl hn hb
  have hblocks := (hr.sizesFit hv).blocks
  have htests := hr.needInterleave_eq_none hv hl hn hb
  exact ⟨_, exec_interleave_of_tests htests, State.succeed_succeeded _ _, by simp,
    fun m hm k hk => s.interleaved_cell hm hk,
    fun i hi => s.interleaved_cell_of_le (hblocks ▸ hi),
    s.interleaved_completed.only.succeed_frame _ (by simp) (.inr rfl) (.inr rfl) (.inl (by decide))⟩

/-- Settles O28: as for INTERLEAVE, but that each cell is assigned once because dest takes no value twice. -/
theorem deinterleaveInvertsAssignment : Obligations.DeinterleaveInvertsAssignment := by
  intro s hr hv hl hn hb
  have hblocks := (hr.sizesFit hv).blocks
  have htests := hr.needInterleave_eq_none hv hl hn hb
  obtain ⟨-, -, hg, -⟩ := State.needInterleave_eq_none.mp htests
  exact ⟨_, exec_deinterleave_of_tests htests, State.succeed_succeeded _ _, by simp,
    fun m hm k hk => s.deinterleaved_cell hg hm hk,
    fun i hi => s.deinterleaved_cell_of_le hg (hblocks ▸ hi),
    s.deinterleaved_completed.only.succeed_frame _ (by simp) (.inr rfl) (.inr rfl) (.inl (by decide))⟩

/-! ### Each direction undoes the other (R132) -/

/-- `u` has the parameter records of `s` and holds in PUN what `t` holds in INT, N_ENCODED_BITS cells: the host's copy
between the two directions (R132). -/
structure CopiedBack (s t u : State) : Prop where
  ofdm : u.ofdm = s.ofdm
  frame : u.frame = s.frame
  len : u.len .pun = s.frame.nEncodedBits.toNat
  cells : ∀ i < s.frame.nEncodedBits.toNat, u.cell .pun i = t.cell .int i

section
variable {s t u : State}

/-- The tests that passed for the first direction pass for the second, on the bits the first one left. -/
theorem CopiedBack.needInterleave_eq_none (h : CopiedBack s t u) (htests : s.needInterleave = none)
    (hb : IsBits t .int s.frame.nEncodedBits.toNat) : u.needInterleave = none := by
  obtain ⟨hv, -, hg, -⟩ := State.needInterleave_eq_none.mp htests
  refine State.needInterleave_eq_none.mpr ⟨h.frame ▸ hv, h.frame ▸ h.len, h.ofdm ▸ hg, fun i hi => ?_⟩
  rw [h.frame] at hi
  rw [h.cells i hi]
  exact hb i hi

theorem CopiedBack.destOf_eq (h : CopiedBack s t u) (k : Nat) : u.destOf k = s.destOf k := by
  rw [State.destOf, State.destOf, h.ofdm]

/-- DEINTERLEAVE puts cell m n + k back to m n + dest(k), where INTERLEAVE took it from, and dest takes every value
below n. -/
theorem CopiedBack.deinterleaved_cell_eq (h : CopiedBack s s.interleaved u)
    (hg : ilvValid s.ofdm.nCbps.toNat (stride s.ofdm.avgBpsc.toNat) = true)
    (hblocks : s.frame.nEncodedBits.toNat = s.frame.nSym.toNat * s.ofdm.nCbps.toNat) {i : Nat}
    (hi : i < s.frame.nEncodedBits.toNat) : u.deinterleaved.cell .int i = s.cell .pun i := by
  obtain ⟨hm, hj, hindex⟩ := block_index (hblocks ▸ hi)
  obtain ⟨k, hk, hdest⟩ := ilvValid_surj hg hj
  have hput := u.deinterleaved_cell (h.ofdm ▸ hg) (h.frame ▸ hm) (h.ofdm ▸ hk)
  have htake := s.interleaved_cell hm hk
  have hat : s.destOf k = i % s.ofdm.nCbps.toNat := hdest
  rw [h.ofdm, h.destOf_eq, hat, hindex] at hput
  rw [hat, hindex] at htake
  rw [hput, h.cells _ (hblocks ▸ block_lt hm hk), htake]

/-- INTERLEAVE takes cell m n + k from m n + dest(k), where DEINTERLEAVE put it. -/
theorem CopiedBack.interleaved_cell_eq (h : CopiedBack s s.deinterleaved u)
    (hg : ilvValid s.ofdm.nCbps.toNat (stride s.ofdm.avgBpsc.toNat) = true)
    (hblocks : s.frame.nEncodedBits.toNat = s.frame.nSym.toNat * s.ofdm.nCbps.toNat) {i : Nat}
    (hi : i < s.frame.nEncodedBits.toNat) : u.interleaved.cell .int i = s.cell .pun i := by
  obtain ⟨hm, hk, hindex⟩ := block_index (hblocks ▸ hi)
  have htake := u.interleaved_cell (h.frame ▸ hm) (h.ofdm ▸ hk)
  have hput := s.deinterleaved_cell hg hm hk
  have hlt := block_lt hm ((ilvValid_dest hg).1 _ hk)
  rw [h.ofdm, h.destOf_eq, hindex] at htake
  rw [hindex] at hput
  rw [htake, h.cells _ (hblocks ▸ hlt), hput]

end

/-- Settles O29: the bits that the first direction leaves pass the tests of the second, and each cell goes back to where
it was taken from. -/
theorem interleaverRoundTrip : Obligations.InterleaverRoundTrip := by
  intro s hr hv hl hn hb
  have hblocks := (hr.sizesFit hv).blocks
  have htests := hr.needInterleave_eq_none hv hl hn hb
  obtain ⟨-, -, hg, -⟩ := State.needInterleave_eq_none.mp htests
  rintro first second (⟨rfl, rfl⟩ | ⟨rfl, rfl⟩)
  · refine ⟨_, exec_interleave_of_tests htests, fun u ho hf hlen hcells => ?_⟩
    have hcopy : CopiedBack s s.interleaved u := ⟨ho, hf, by simpa using hlen, by simpa using hcells⟩
    have hbits : IsBits s.interleaved .int s.frame.nEncodedBits.toNat :=
      hblocks ▸ State.interleaved_isBits hg (hblocks ▸ hb)
    exact ⟨_, exec_deinterleave_of_tests (hcopy.needInterleave_eq_none htests hbits), State.succeed_succeeded _ _,
      by simp [hf, hl], fun i hi => hcopy.deinterleaved_cell_eq hg hblocks (hl ▸ hi)⟩
  · refine ⟨_, exec_deinterleave_of_tests htests, fun u ho hf hlen hcells => ?_⟩
    have hcopy : CopiedBack s s.deinterleaved u := ⟨ho, hf, by simpa using hlen, by simpa using hcells⟩
    have hbits : IsBits s.deinterleaved .int s.frame.nEncodedBits.toNat :=
      hblocks ▸ State.deinterleaved_isBits hg (hblocks ▸ hb)
    exact ⟨_, exec_interleave_of_tests (hcopy.needInterleave_eq_none htests hbits), State.succeed_succeeded _ _,
      by simp [hf, hl], fun i hi => hcopy.interleaved_cell_eq hg hblocks (hl ▸ hi)⟩

end Sys2Proof.Machine
end

section
/-! SUPPORT. SPLIT: the offsets of the 48 positions in a block, what SPLIT leaves on success, the bits each symbol is
made from, and the range of the symbols (spec/44_symbol_splitter.md R140 to R143). -/

namespace Sys2Proof.Machine

/-! ### The 48 positions of a block (R140, R142) -/

theorem symbolOffset_zero (w : Word) : symbolOffset w 0 = 0 := (symbolDepths_take_sum w (Nat.zero_le 48)).symm

/-- The positions of a symbol end where its block ends. -/
theorem symbolOffset_end (w : Word) : symbolOffset w 48 = 12 * bpscSum w := by
  rw [← symbolDepths_take_sum w (le_refl 48), List.take_of_length_le (by simp), symbolDepths_sum]

theorem symbolOffset_mono (w : Word) : Monotone (symbolOffset w) :=
  monotone_nat_of_le_succ fun p => (symbolOffset_succ w p).symm ▸ Nat.le_add_right _ _

/-- No position reaches beyond its block. -/
theorem symbolOffset_add_depth_le (w : Word) {p : Nat} (hp : p < 48) :
    symbolOffset w p + byteField w (p / 12) ≤ 12 * bpscSum w := by
  rw [← symbolOffset_succ, ← symbolOffset_end]
  exact symbolOffset_mono w hp

/-- The positions before `n` leave no gap below off(n). -/
theorem exists_position_of_lt {w : Word} {k n : Nat} (h : k < symbolOffset w n) :
    ∃ p < n, ∃ b < byteField w (p / 12), k = symbolOffset w p + b := by
  induction n with
  | zero => exact absurd (symbolOffset_zero w ▸ h) (Nat.not_lt_zero k)
  | succ n ih =>
    rcases Nat.lt_or_ge k (symbolOffset w n) with hbelow | hfrom
    · obtain ⟨p, hp, hk⟩ := ih hbelow
      exact ⟨p, by omega, hk⟩
    · rw [symbolOffset_succ] at h
      exact ⟨n, by omega, k - symbolOffset w n, by omega, by omega⟩

/-- The bits of the 48 positions are the bits of the block. -/
theorem forall_position_iff (w : Word) (P : Nat → Prop) :
    (∀ p < 48, ∀ b < byteField w (p / 12), P (symbolOffset w p + b)) ↔ ∀ k < 12 * bpscSum w, P k := by
  constructor
  · intro h k hk
    obtain ⟨p, hp, b, hb, rfl⟩ := exists_position_of_lt (symbolOffset_end w ▸ hk)
    exact h p hp b hb
  · intro h p hp b hb
    have hend := symbolOffset_add_depth_le w hp
    exact h _ (by omega)

/-! ### Packing (R141) -/

/-- Symbols of the same depth are equal only if they are made from the same bits. -/
theorem packLsb_injective {xs ys : List Bool} (hl : xs.length = ys.length) (h : packLsb xs = packLsb ys) : xs = ys := by
  induction xs generalizing ys with
  | nil => exact (List.length_eq_zero_iff.mp hl.symm).symm
  | cons x xs ih =>
    cases ys with
    | nil => simp at hl
    | cons y ys =>
      simp only [packLsb] at h
      have hx := x.toNat_le
      have hy := y.toNat_le
      have hhead : x = y := by
        rw [Bool.eq_iff_iff, ← Bool.toNat_eq_one, ← Bool.toNat_eq_one]
        omega
      rw [hhead, ih (Nat.succ.inj hl) (by omega)]

/-- The splitter reads no further than its depths add up to. -/
theorem splitBits_append {ds : List Nat} {xs : List Bool} (h : ds.sum ≤ xs.length) (ys : List Bool) :
    splitBits ds (xs ++ ys) = splitBits ds xs := by
  induction ds generalizing xs with
  | nil => rfl
  | cons d ds ih =>
    rw [List.sum_cons] at h
    have hd : d ≤ xs.length := by omega
    rw [splitBits, splitBits, List.take_append_of_le_length hd, List.drop_append_of_le_length hd,
      ih (by rw [List.length_drop]; omega)]

/-! ### What SPLIT leaves on success (R141) -/

theorem exec_split_of_tests {s : State} (hv : s.frame.valid = true) (hl : s.len .int = s.frame.nEncodedBits.toNat)
    (hb : IsBits s .int s.frame.nEncodedBits.toNat) : exec .split s = .next (s.symbolsPacked.succeed 0x0A) := by
  obtain ⟨-, -, -, -, -, -, -, hexec⟩ := exec_of_stage s
  rw [hexec, splitStage_ok hv hl hb, finish_done]

/-- A SPLIT that reports no fault has passed all its tests. -/
theorem exec_split_of_code_zero {s t : State} (e : exec .split s = .next t) (hc : t.status.code = 0) :
    s.frame.valid = true ∧ IsBits s .int s.frame.nEncodedBits.toNat ∧ t = s.symbolsPacked.succeed 0x0A := by
  obtain ⟨c, v, hfault, -⟩ | ⟨-, -, -, hv, hl, hbits⟩ := exec_stage_cases (s := s) (i := .split) rfl
  · rw [hfault] at e
    cases e
    exact absurd hc c.code_bounds.1
  · have hb := hbits nofun nofun
    rw [exec_split_of_tests hv hl hb] at e
    cases e
    exact ⟨hv, hb, rfl⟩

/-- SPLIT writes 48 N_SYM cells and no cell above them. -/
theorem State.symbolsPacked_cell_of_le (s : State) {i : Nat} (h : 48 * s.frame.nSym.toNat ≤ i) :
    s.symbolsPacked.cell .sym i = s.cell .sym i := by
  rw [State.symbolsPacked, State.setLen_cell, State.writeCells_numbered_cell, if_neg (by simp; omega)]

/-- Where the FrameParam keeps R44 (d), LEN_SYM is not cut to 32 bits. -/
theorem RegInv.symbolsPacked_len {s : State} (hr : RegInv s) (hv : s.frame.valid = true) :
    s.symbolsPacked.len .sym = 48 * s.frame.nSym.toNat := by
  have hfit := (hr.sizesFit hv).sym
  have hcap := s.cap_lt .sym
  rw [State.symbolsPacked_len, if_pos rfl, Nat.mod_eq_of_lt (by omega)]

/-! ### The bits of one symbol (R141, R142) -/

/-- Where two buffers hold bits, equal bits are equal cells. -/
theorem IsBits.cell_eq_iff {s u : State} {b : BufId} {n i : Nat} (hs : IsBits s b n) (hu : IsBits u b n) (hi : i < n) :
    s.cell b i = u.cell b i ↔ bitAt s b i = bitAt u b i := by
  refine ⟨fun h => by rw [bitAt, h, bitAt], fun h => ?_⟩
  rw [hs.cell_eq hi, hu.cell_eq hi, h]

/-- What SPLIT needs of the parameter records: no depth above 6, and blocks of N_CBPS bits that make up the frame
(10_state.md R44 (b), (d)). It says nothing of the buffers, so states with the same records share it. -/
structure SplitSizes (s : State) : Prop where
  depth : ∀ p < 48, byteField s.ofdm.bpsc (p / 12) ≤ 6
  block : s.ofdm.nCbps.toNat = 12 * bpscSum s.ofdm.bpsc
  blocks : s.frame.nEncodedBits.toNat = s.frame.nSym.toNat * s.ofdm.nCbps.toNat

theorem RegInv.splitSizes {s : State} (hr : RegInv s) (hv : s.frame.valid = true) : SplitSizes s := by
  have ho := hr.ofdm_of_frame hv
  obtain ⟨hblock, -⟩ := hr.ofdm ho
  exact ⟨fun p hp => hr.depth_le ho (by omega), hblock, (hr.sizesFit hv).blocks⟩

theorem SplitSizes.of_eq {s u : State} (h : SplitSizes s) (ho : u.ofdm = s.ofdm) (hf : u.frame = s.frame) :
    SplitSizes u :=
  ⟨ho ▸ h.depth, ho ▸ h.block, ho ▸ hf ▸ h.blocks⟩

/-- The depth(p) bits of INT from m N_CBPS + off(p) on. -/
def State.symbolBits (s : State) (m p : Nat) : List Bool :=
  ((s.bits .int s.frame.nEncodedBits.toNat).drop (m * s.ofdm.nCbps.toNat + symbolOffset s.ofdm.bpsc p)).take
    (byteField s.ofdm.bpsc (p / 12))

section
variable {s u : State} {m p : Nat}

theorem SplitSizes.symbol_le (h : SplitSizes s) (hm : m < s.frame.nSym.toNat) (hp : p < 48) :
    m * s.ofdm.nCbps.toNat + symbolOffset s.ofdm.bpsc p + byteField s.ofdm.bpsc (p / 12) ≤
      s.frame.nEncodedBits.toNat := by
  have hpos : symbolOffset s.ofdm.bpsc p + byteField s.ofdm.bpsc (p / 12) ≤ s.ofdm.nCbps.toNat :=
    h.block ▸ symbolOffset_add_depth_le s.ofdm.bpsc hp
  calc m * s.ofdm.nCbps.toNat + symbolOffset s.ofdm.bpsc p + byteField s.ofdm.bpsc (p / 12)
      ≤ (m + 1) * s.ofdm.nCbps.toNat := by rw [Nat.succ_mul]; omega
    _ ≤ s.frame.nSym.toNat * s.ofdm.nCbps.toNat := Nat.mul_le_mul_right _ hm
    _ = s.frame.nEncodedBits.toNat := h.blocks.symm

theorem SplitSizes.symbolBits_length (h : SplitSizes s) (hm : m < s.frame.nSym.toNat) (hp : p < 48) :
    (s.symbolBits m p).length = byteField s.ofdm.bpsc (p / 12) := by
  have hend := h.symbol_le hm hp
  rw [State.symbolBits, List.length_take, List.length_drop, State.bits_length]
  omega

/-- The bits of a symbol, one by one. -/
theorem SplitSizes.symbolBits_eq_map (h : SplitSizes s) (hb : IsBits s .int s.frame.nEncodedBits.toNat)
    (hm : m < s.frame.nSym.toNat) (hp : p < 48) :
    s.symbolBits m p = (List.range (byteField s.ofdm.bpsc (p / 12))).map fun b =>
      bitAt s .int (m * s.ofdm.nCbps.toNat + (symbolOffset s.ofdm.bpsc p + b)) := by
  have hend := h.symbol_le hm hp
  refine List.ext_getElem? fun b => ?_
  rw [State.symbolBits, List.getElem?_take, List.getElem?_map]
  split
  next hlt =>
    rw [List.getElem?_drop, hb.bits_getElem? (by omega), List.getElem?_range hlt, Nat.add_assoc, Option.map_some]
  next hge => rw [List.getElem?_eq_none (by simpa using hge), Option.map_none]

/-- A packed symbol is below 2^depth(p) (R143). -/
theorem SplitSizes.packLsb_symbolBits_lt (h : SplitSizes s) (hm : m < s.frame.nSym.toNat) (hp : p < 48) :
    packLsb (s.symbolBits m p) < 2 ^ byteField s.ofdm.bpsc (p / 12) :=
  h.symbolBits_length hm hp ▸ packLsb_lt (s.symbolBits m p)

/-- 2^depth(p) is at most 64 (R143). -/
theorem SplitSizes.two_pow_depth_le (h : SplitSizes s) (hp : p < 48) : 2 ^ byteField s.ofdm.bpsc (p / 12) ≤ 64 :=
  Nat.pow_le_pow_right (by norm_num) (h.depth p hp)

/-- Cell 48 m + p of SYM holds its bits packed, and no cell is too narrow for them (R141). -/
theorem SplitSizes.symbolsPacked_cell_toNat (h : SplitSizes s) (hm : m < s.frame.nSym.toNat) (hp : p < 48) :
    (s.symbolsPacked.cell .sym (48 * m + p)).toNat = packLsb (s.symbolBits m p) := by
  have hpack := splitSymbols_getElem? s.ofdm.bpsc (s.bits .int s.frame.nEncodedBits.toNat) hm hp
  rw [← h.block] at hpack
  have hlt := h.packLsb_symbolBits_lt hm hp
  have hle := h.two_pow_depth_le hp
  rw [s.symbolsPacked_cell hpack, ← State.symbolBits, BitVec.toNat_ofNat, Nat.mod_eq_of_lt (by omega)]

/-- Two states with the same records hold the same bits of a symbol exactly if they hold the same cells there. -/
theorem SplitSizes.symbolBits_eq_iff (h : SplitSizes s) (ho : u.ofdm = s.ofdm) (hf : u.frame = s.frame)
    (hs : IsBits s .int s.frame.nEncodedBits.toNat) (hu : IsBits u .int u.frame.nEncodedBits.toNat)
    (hm : m < s.frame.nSym.toNat) (hp : p < 48) :
    s.symbolBits m p = u.symbolBits m p ↔ ∀ b < byteField s.ofdm.bpsc (p / 12),
      s.cell .int (m * s.ofdm.nCbps.toNat + (symbolOffset s.ofdm.bpsc p + b)) =
        u.cell .int (m * s.ofdm.nCbps.toNat + (symbolOffset s.ofdm.bpsc p + b)) := by
  have hend := h.symbol_le hm hp
  rw [h.symbolBits_eq_map hs hm hp, (h.of_eq ho hf).symbolBits_eq_map hu (hf ▸ hm) hp, ho, List.map_inj_left]
  simp only [List.mem_range]
  rw [hf] at hu
  exact forall₂_congr fun b hb => (hs.cell_eq_iff hu (by omega)).symm

/-- Symbol p of OFDM symbol m is the same in two results exactly if it was made from the same cells. -/
theorem SplitSizes.symbolsPacked_cell_eq_iff (h : SplitSizes s) (ho : u.ofdm = s.ofdm) (hf : u.frame = s.frame)
    (hs : IsBits s .int s.frame.nEncodedBits.toNat) (hu : IsBits u .int u.frame.nEncodedBits.toNat)
    (hm : m < s.frame.nSym.toNat) (hp : p < 48) :
    s.symbolsPacked.cell .sym (48 * m + p) = u.symbolsPacked.cell .sym (48 * m + p) ↔
      ∀ b < byteField s.ofdm.bpsc (p / 12),
        s.cell .int (m * s.ofdm.nCbps.toNat + (symbolOffset s.ofdm.bpsc p + b)) =
          u.cell .int (m * s.ofdm.nCbps.toNat + (symbolOffset s.ofdm.bpsc p + b)) := by
  have hus := h.of_eq ho hf
  have hmu : m < u.frame.nSym.toNat := hf ▸ hm
  have hlen : (s.symbolBits m p).length = (u.symbolBits m p).length := by
    rw [h.symbolBits_length hm hp, hus.symbolBits_length hmu hp, ho]
  rw [← h.symbolBits_eq_iff ho hf hs hu hm hp, ← BitVec.toNat_inj, h.symbolsPacked_cell_toNat hm hp,
    hus.symbolsPacked_cell_toNat hmu hp]
  exact ⟨packLsb_injective hlen, congrArg packLsb⟩

/-- OFDM symbol m of SYM is made from exactly block m of INT (R142). -/
theorem SplitSizes.symbol_eq_iff_block_eq (h : SplitSizes s) (ho : u.ofdm = s.ofdm) (hf : u.frame = s.frame)
    (hs : IsBits s .int s.frame.nEncodedBits.toNat) (hu : IsBits u .int u.frame.nEncodedBits.toNat)
    (hm : m < s.frame.nSym.toNat) :
    (∀ p < 48, s.symbolsPacked.cell .sym (48 * m + p) = u.symbolsPacked.cell .sym (48 * m + p)) ↔
      ∀ k < s.ofdm.nCbps.toNat,
        s.cell .int (m * s.ofdm.nCbps.toNat + k) = u.cell .int (m * s.ofdm.nCbps.toNat + k) := by
  rw [h.block, ← forall_position_iff, ← h.block]
  exact forall₂_congr fun p hp => h.symbolsPacked_cell_eq_iff ho hf hs hu hm hp

end

/-! ### The statements about SPLIT -/

/-- Settles O30: by R142 the bits of every symbol lie within the N_ENCODED_BITS cells that were tested, and a cell of
SYM is wide enough for them. -/
theorem splitPacksSymbols : Obligations.SplitPacksSymbols := by
  intro s hr hv hl hb
  have hsizes := hr.splitSizes hv
  refine ⟨_, exec_split_of_tests hv hl hb, State.succeed_succeeded _ _, hr.symbolsPacked_len hv, fun m hm p hp => ?_,
    fun i hi => s.symbolsPacked_cell_of_le hi,
    s.symbolsPacked_completed.only.succeed_frame _ (by simp) (.inr rfl) (.inr rfl) (.inl (by decide))⟩
  rw [State.succeed_cell, hsizes.symbolsPacked_cell_toNat hm hp, State.symbolBits,
    packLsb_bits hb (hsizes.symbol_le hm hp)]

/-- Settles O31: the offsets are the running sums of the depths and end at N_CBPS, so the positions cut every block
without gap or rest, and packing loses no bit. -/
theorem splitConsumesWholeBlocks : Obligations.SplitConsumesWholeBlocks := by
  intro s hr hvalid
  obtain ⟨hblock, -⟩ := hr.ofdm hvalid
  refine ⟨symbolDepths_length _, by rw [symbolDepths_sum, hblock], hblock.symm,
    fun p hp => symbolDepths_take_sum _ hp, symbolOffset_zero _, fun p _ => symbolOffset_succ _ p,
    ?lastEnd, fun hv => ?frame⟩
  case lastEnd =>
    calc symbolOffset s.ofdm.bpsc 47 + depth s.ofdm.bpsc 47
        = symbolOffset s.ofdm.bpsc 48 := (symbolOffset_succ _ 47).symm
      _ = s.ofdm.nCbps.toNat := by rw [symbolOffset_end, hblock]
  case frame =>
    have hsizes := hr.splitSizes hv
    have hsum : (frameDepths s.ofdm.bpsc s.frame.nSym.toNat).sum = s.frame.nEncodedBits.toNat := by
      rw [frameDepths_sum, ← hblock, hsizes.blocks]
    refine ⟨hsizes.blocks.symm, hsum, fun xs ys hxs => splitBits_append (by rw [hsum, hxs]) ys, ?_⟩
    intro u t t' ho hf es eu hcs hcu m hm
    obtain ⟨-, hs, rfl⟩ := exec_split_of_code_zero es hcs
    obtain ⟨-, hu, rfl⟩ := exec_split_of_code_zero eu hcu
    exact hsizes.symbol_eq_iff_block_eq ho hf hs hu hm

/-- Settles O32: a symbol packs depth(p) bits, at most 6. -/
theorem symbolsStayInRange : Obligations.SymbolsStayInRange := by
  intro s t hr e hc m hm p hp
  obtain ⟨hv, -, rfl⟩ := exec_split_of_code_zero e hc
  have hsizes := hr.splitSizes hv
  have hlt := hsizes.packLsb_symbolBits_lt hm hp
  rw [State.succeed_cell, hsizes.symbolsPacked_cell_toNat hm hp]
  exact ⟨hlt, hlt.trans_le (hsizes.two_pow_depth_le hp)⟩

end Sys2Proof.Machine
end

section
/-! SUPPORT. ENCODE_FRAME against its seven stage commands: why clearing the LEN registers first and reporting once at
the end make no difference, what no stage touches, and where the chain ends for each failing test
(spec/45_encode_frame.md R147 to R149). -/

namespace Sys2Proof.Machine

/-! ### The LEN of a destination does not matter to its stage, and passes through the other stages -/

theorem State.clearStageLens_eq_setLen (s : State) : s.clearStageLens =
    (((((s.setLen .data 0).setLen .scr 0).setLen .enc 0).setLen .pun 0).setLen .int 0).setLen .sym 0 := by
  simp only [State.setLen, State.setBuf, State.buf, Buffers.set, Buffers.get, State.clearStageLens, Buffers.clearStageLens]
  rfl

theorem State.setLen_assembled (s : State) (b : BufId) (n : Nat) :
    (s.setLen b n).assembled = if b = .data then s.assembled else s.assembled.setLen b n := by
  cases b <;> rfl

theorem State.setLen_scrambled (s : State) (seed : Nat) (b : BufId) (n : Nat) :
    (s.setLen b n).scrambled seed = if b = .scr then s.scrambled seed else (s.scrambled seed).setLen b n := by
  cases b <;> rfl

/-- TAIL_RESET writes no LEN register, so it keeps that of its destination too (R109). -/
theorem State.setLen_tailCleared (s : State) (b : BufId) (n : Nat) :
    (s.setLen b n).tailCleared = s.tailCleared.setLen b n := by
  cases b <;> rfl

theorem State.setLen_convEncoded (s : State) (b : BufId) (n : Nat) :
    (s.setLen b n).convEncoded = if b = .enc then s.convEncoded else s.convEncoded.setLen b n := by
  cases b <;> rfl

theorem State.setLen_punctured (s : State) (b : BufId) (n : Nat) :
    (s.setLen b n).punctured = if b = .pun then s.punctured else s.punctured.setLen b n := by
  cases b <;> rfl

theorem State.setLen_interleaved (s : State) (b : BufId) (n : Nat) :
    (s.setLen b n).interleaved = if b = .int then s.interleaved else s.interleaved.setLen b n := by
  cases b <;> rfl

theorem State.setLen_symbolsPacked (s : State) (b : BufId) (n : Nat) :
    (s.setLen b n).symbolsPacked = if b = .sym then s.symbolsPacked else s.symbolsPacked.setLen b n := by
  cases b <;> rfl

/-- After ASSEMBLE only the LEN registers of the later buffers still show that they were cleared (R147). -/
theorem State.clearStageLens_assembled (s : State) : s.clearStageLens.assembled =
    ((((s.assembled.setLen .scr 0).setLen .enc 0).setLen .pun 0).setLen .int 0).setLen .sym 0 := by
  simp [State.clearStageLens_eq_setLen, State.setLen_assembled]

theorem State.clearStageLens_afterFive (s : State) (seed : Nat) :
    s.clearStageLens.afterFive seed = ((s.afterFive seed).setLen .int 0).setLen .sym 0 := by
  simp [State.afterFive, State.clearStageLens_assembled, State.setLen_scrambled, State.setLen_tailCleared,
    State.setLen_convEncoded, State.setLen_punctured]

/-- Every LEN register that was cleared has been written when the last stage is done (R147, R149). -/
theorem State.clearStageLens_afterSeven (s : State) (seed : Nat) :
    (s.clearStageLens.afterFive seed).interleaved.symbolsPacked = (s.afterFive seed).interleaved.symbolsPacked := by
  simp [State.clearStageLens_afterFive, State.setLen_interleaved, State.setLen_symbolsPacked]

theorem State.clearStageLens_assembled_cell (s : State) (b : BufId) (i : Nat) :
    s.clearStageLens.assembled.cell b i = s.assembled.cell b i := by
  simp [State.clearStageLens_assembled]

/-! ### No stage reads the report, so the reports in between do not matter -/

theorem State.succeed_succeed (s : State) (op o : Byte) : (s.succeed o).succeed op = s.succeed op := rfl

theorem finish_runStage_congr {op g : Byte} {test test' : Option FaultCause} {ab ab' co co' : State} (ht : test = test')
    (ha : ∀ c, ab.faultEntry c op g = ab'.faultEntry c op g) (hc : co.succeed op = co'.succeed op) :
    finish op (runStage g test ab co) = finish op (runStage g test' ab' co') := by
  subst ht
  cases test with
  | none => rw [runStage_none, runStage_none, finish_done, finish_done, hc]
  | some c => rw [runStage_some, runStage_some, finish_raised, finish_raised, ha]

theorem exec_succeed_of_stageOf {i : Instr} {f : State → StageResult} (h : stageOf i = some f) (s : State) (o : Byte) :
    exec i (s.succeed o) = exec i s := by
  cases i <;> cases h <;> exact finish_runStage_congr rfl (fun _ => rfl) rfl

theorem exec_of_stage_done {i : Instr} {f : State → StageResult} (h : stageOf i = some f) {s t : State}
    (hd : f s = .done t) : exec i s = .next (t.succeed i.opcode) := by
  rw [exec_of_stageOf h, hd, finish_done]

theorem runCommands_succeed_of_stageOf {i : Instr} {f : State → StageResult} (h : stageOf i = some f) (is : List Instr)
    (s : State) (o : Byte) : runCommands (i :: is) (s.succeed o) = runCommands (i :: is) s := by
  rw [runCommands, exec_succeed_of_stageOf h, runCommands]

/-- A stage command that succeeds, with another stage command after it, hands on the state of its stage. -/
theorem runCommands_of_stage_done {i j : Instr} {f g : State → StageResult} (hi : stageOf i = some f)
    (hj : stageOf j = some g) {s t : State} (hd : f s = .done t) (js : List Instr) :
    runCommands (i :: j :: js) s = runCommands (j :: js) t := by
  rw [runCommands_cons (exec_of_stage_done hi hd), runCommands_succeed_of_stageOf hj]

theorem runCommands_append {is : List Instr} {s t : State} (h : runCommands is s = .next t) (js : List Instr) :
    runCommands (is ++ js) s = runCommands js t := by
  induction is generalizing s with
  | nil => cases h; rfl
  | cons i is ih =>
    cases hi : exec i s with
    | next u =>
      rw [runCommands_cons hi] at h
      rw [List.cons_append, runCommands_cons hi, ih h]
    | fault f => simp [runCommands, hi] at h
    | refused r => simp [runCommands, hi] at h

/-- ASSEMBLE to PUNCTURE one after the other, where these stages complete (R147). -/
theorem runCommands_take_five {seed : Nat} {s t : State} (h : fiveStages seed s = .done t) :
    runCommands ((sevenCommands seed).take 5) s = .next (t.succeed 0x07) := by
  simp only [fiveStages, StageResult.andThen_eq_done] at h
  obtain ⟨s4, ⟨s3, ⟨s2, ⟨s1, h1, h2⟩, h3⟩, h4⟩, h5⟩ := h
  show runCommands [.assemble, .scramble seed, .tailReset, .convEncode, .puncture] s = _
  rw [runCommands_of_stage_done rfl rfl h1, runCommands_of_stage_done rfl rfl h2, runCommands_of_stage_done rfl rfl h3,
    runCommands_of_stage_done rfl rfl h4, runCommands_cons (exec_of_stage_done rfl h5)]
  rfl

/-- All seven commands one after the other, where these stages complete (R147). -/
theorem runCommands_seven {seed : Nat} {s t : State} (h : chainStages seed s = .done t) :
    runCommands (sevenCommands seed) s = .next (t.succeed 0x0A) := by
  simp only [chainStages_eq, StageResult.andThen_eq_done] at h
  obtain ⟨s6, ⟨s5, h5, h6⟩, h7⟩ := h
  have hsplit : sevenCommands seed = (sevenCommands seed).take 5 ++ [.interleave, .split] := rfl
  rw [hsplit, runCommands_append (runCommands_take_five h5), runCommands_succeed_of_stageOf rfl,
    runCommands_of_stage_done rfl rfl h6, runCommands_cons (exec_of_stage_done rfl h7)]
  rfl

/-! ### What ENCODE_FRAME keeps in any case: the parameter records, PSDU, and what is outside (R147) -/

/-- The state `t` differs from `s` in the buffers 1 to 6, the shift registers, the event counter and the report only. -/
structure KeepsPayload (s t : State) : Prop where
  ofdm : t.ofdm = s.ofdm
  frame : t.frame = s.frame
  outside : SameOutside s t
  psduLen : (t.buf .psdu).len = (s.buf .psdu).len
  psduCell : ∀ i, t.cell .psdu i = s.cell .psdu i

theorem KeepsPayload.clearStageLens (s : State) : KeepsPayload s s.clearStageLens :=
  ⟨rfl, rfl, ⟨rfl, rfl, rfl⟩, rfl, fun _ => rfl⟩

theorem KeepsPayload.trans_onlyDst {s t u : State} (h : KeepsPayload s t) {dst : BufId} (hd : .psdu ≠ dst)
    (hu : OnlyDst dst t u) : KeepsPayload s u where
  ofdm := hu.ofdm.trans h.ofdm
  frame := hu.frame.trans h.frame
  outside :=
    let ⟨hmax, hpending, hreply⟩ := h.outside
    ⟨hu.psduMax.trans hmax, hu.pending.trans hpending, hu.reply.trans hreply⟩
  psduLen := by rw [hu.buf _ hd, h.psduLen]
  psduCell i := (hu.cell hd i).trans (h.psduCell i)

theorem KeepsPayload.succeed {s t : State} (h : KeepsPayload s t) (op : Byte) : KeepsPayload s (t.succeed op) :=
  ⟨h.ofdm, h.frame, h.outside, h.psduLen, h.psduCell⟩

theorem KeepsPayload.faultEntry {s t : State} (h : KeepsPayload s t) (c : FaultCause) (op stage : Byte) :
    KeepsPayload s (t.faultEntry c op stage) :=
  ⟨h.ofdm, h.frame, h.outside, h.psduLen, h.psduCell⟩

theorem KeepsPayload.sameCells {s t : State} (h : KeepsPayload s t) :
    SameCellsBut [.data, .scr, .enc, .pun, .int, .sym] s t := by
  intro b hb i
  cases b with
  | psdu => exact h.psduCell i
  | _ => simp at hb

theorem KeepsPayload.sameRegs {s t : State} (h : KeepsPayload s t) :
    SameRegsBut [0, 1, 13, 14, 17, 18, 19, 20, 21, 22] s t := by
  refine sameRegsBut_of_fields (by simp) (by simp) (.inr h.ofdm) (.inr (by rw [h.ofdm])) (.inr h.frame)
    (.inr (by rw [h.frame])) (by simp) (by simp) fun b => ?_
  cases b with
  | psdu => exact .inr h.psduLen
  | _ => simp [BufId.id]

/-- No stage writes PSDU (20_memory.md R64). -/
theorem stageTable_dst_ne_psdu {s : State} {i : Instr} {src dst : BufId} {n : Nat}
    (h : stageTable s i = some (src, n, dst)) : .psdu ≠ dst := by
  cases i <;> cases h <;> exact nofun

/-- The stage of a stage command changes its destination only, completed or abandoned (20_memory.md R64,
60_exceptions.md R170). -/
theorem stage_onlyDst {i : Instr} {f : State → StageResult} (hi : stageOf i = some f) {s : State} {src dst : BufId}
    {n : Nat} (ht : stageTable s i = some (src, n, dst)) : (f s).All (OnlyDst dst s) := by
  cases i <;> cases hi <;> cases ht
  case assemble => exact runStage_all (Abandoned.lose s .data).only fun _ => s.assembled_completed.only
  case scramble seed =>
    exact runStage_all ((Abandoned.lose s .scr).scr _).only fun _ => (s.scrambled_completed seed).only
  case tailReset => exact runStage_all (Abandoned.lose s .scr).only fun _ => s.tailCleared_completed.only
  case convEncode => exact runStage_all ((Abandoned.lose s .enc).enc _).only fun _ => s.convEncoded_completed.only
  case puncture => exact runStage_all (Abandoned.lose s .pun).only fun _ => s.punctured_completed.only
  case interleave => exact runStage_all (Abandoned.lose s .int).only fun _ => s.interleaved_completed.only
  case deinterleave => exact runStage_all (Abandoned.lose s .int).only fun _ => s.deinterleaved_completed.only
  case split => exact runStage_all (Abandoned.lose s .sym).only fun _ => s.symbolsPacked_completed.only

theorem StageResult.All.imp {P Q : State → Prop} {r : StageResult} (h : r.All P) (hpq : ∀ t, P t → Q t) : r.All Q := by
  cases r with
  | done t => exact hpq t h
  | raised g c t => exact hpq t h

theorem KeepsPayload.stage {i : Instr} {f : State → StageResult} (hi : stageOf i = some f) {s t : State}
    {src dst : BufId} {n : Nat} (ht : stageTable t i = some (src, n, dst)) (h : KeepsPayload s t) :
    (f t).All (KeepsPayload s) :=
  (stage_onlyDst hi ht).imp fun _ => h.trans_onlyDst (stageTable_dst_ne_psdu ht)

theorem KeepsPayload.chain {s t : State} (h : KeepsPayload s t) (seed : Nat) :
    (chainStages seed t).All (KeepsPayload s) :=
  chainStages_all (fun _ => stage (i := .assemble) rfl rfl) (fun _ => stage (i := .scramble seed) rfl rfl)
    (fun _ => stage (i := .tailReset) rfl rfl) (fun _ => stage (i := .convEncode) rfl rfl)
    (fun _ => stage (i := .puncture) rfl rfl) (fun _ => stage (i := .interleave) rfl rfl)
    (fun _ => stage (i := .split) rfl rfl) h

theorem KeepsPayload.finish {s t : State} {op : Byte} {r : StageResult} (h : r.All (KeepsPayload s))
    (e : Machine.finish op r = .next t) : KeepsPayload s t := by
  cases r with
  | done u =>
    cases e
    exact succeed h op
  | raised g c u =>
    cases e
    exact faultEntry h c op g

theorem exec_encodeFrame_keepsPayload {s t : State} {seed : Nat} (e : exec (.encodeFrame seed) s = .next t) :
    KeepsPayload s t := by
  obtain ⟨c, -, rfl⟩ | ⟨-, hchain⟩ := exec_encodeFrame_cases e
  · exact ⟨rfl, rfl, ⟨rfl, rfl, rfl⟩, rfl, fun _ => rfl⟩
  · exact KeepsPayload.finish ((KeepsPayload.clearStageLens s).chain seed) hchain

/-! ### Valid bit buffers (R149) -/

/-- Buffer `b` is valid: its LEN is `n` and the cells below hold bits. -/
structure HoldsBits (s : State) (b : BufId) (n : Nat) : Prop where
  len : s.len b = n
  bits : IsBits s b n

theorem HoldsBits.isBits_len {s : State} {b : BufId} {n : Nat} (h : HoldsBits s b n) : IsBits s b (s.len b) := by
  rw [h.len]
  exact h.bits

theorem HoldsBits.faultEntry {s : State} {b : BufId} {n : Nat} (h : HoldsBits s b n) (c : FaultCause) (op stage : Byte) :
    HoldsBits (s.faultEntry c op stage) b n := ⟨h.len, h.bits⟩

theorem HoldsBits.of_eq {s t : State} {b : BufId} {n : Nat} (h : HoldsBits s b n) (hl : t.len b = s.len b)
    (hc : ∀ i, t.cell b i = s.cell b i) : HoldsBits t b n where
  len := hl.trans h.len
  bits i hi := by
    rw [hc i]
    exact h.bits i hi

theorem State.assembled_holdsBits (s : State) : HoldsBits s.assembled .data s.frame.nDataBits.toNat :=
  ⟨by simp, s.assembled_isBits⟩

/-- 2 N_DATA_BITS is a register value, since N_ENCODED_BITS is (10_state.md R44 (d)). -/
theorem RegInv.two_nDataBits_lt {s : State} (hr : RegInv s) (hv : s.frame.valid = true) :
    2 * s.frame.nDataBits.toNat < 2 ^ 32 := by
  have henc := (hr.sizesFit hv).encoded
  have hlt := s.frame.nEncodedBits.isLt
  omega

/-- The first five stages leave four valid buffers: none of them writes the destination of one before it, but for the
tail in SCR. -/
theorem RegInv.afterFive_holdsBits {s : State} (hr : RegInv s) (hv : s.frame.valid = true) (seed : Nat) :
    HoldsBits (s.afterFive seed) .data s.frame.nDataBits.toNat ∧
      HoldsBits (s.afterFive seed) .scr s.frame.nDataBits.toNat ∧
      HoldsBits (s.afterFive seed) .enc s.frame.nEncodedBits.toNat ∧
      HoldsBits (s.afterFive seed) .pun s.frame.nEncodedBits.toNat := by
  have henc := (hr.sizesFit hv).encoded
  have hlt := hr.two_nDataBits_lt hv
  have hscr : HoldsBits (s.assembled.scrambled seed).tailCleared .scr s.frame.nDataBits.toNat :=
    ⟨by simp, State.tailCleared_isBits (s.assembled.scrambled_isBits seed)⟩
  have hencoded : HoldsBits (s.assembled.scrambled seed).tailCleared.convEncoded .enc s.frame.nEncodedBits.toNat :=
    ⟨by simp [State.convEncoded_len]; omega, henc ▸ (s.assembled.scrambled seed).tailCleared.convEncoded_isBits⟩
  refine ⟨s.assembled_holdsBits.of_eq ?_ fun i => ?_, hscr.of_eq ?_ fun i => ?_, hencoded.of_eq ?_ fun i => ?_,
    by simp [State.afterFive], henc ▸ s.afterFive_isBits seed⟩ <;>
    simp [State.afterFive, State.convEncoded_len, State.scrambled_cell_of_ne, State.tailCleared_cell_of_ne,
      State.convEncoded_cell_of_ne, State.punctured_cell_of_ne]

/-! ### Where the chain ends (R148) -/

theorem exec_encodeFrame_of_raised {s u : State} {seed : Nat} {g : Byte} {c : FaultCause} (hv : s.frame.valid = true)
    (h : chainStages seed s.clearStageLens = .raised g c u) :
    exec (.encodeFrame seed) s = .next (u.faultEntry c 0x0B g) := by
  rw [exec_encodeFrame_of_frame hv, h, finish_raised]

section
variable {s : State} {seed : Nat}

theorem chainStages_of_psdu_len (hv : s.frame.valid = true) (hl : s.len .psdu ≠ s.frame.psduSize.toNat) :
    chainStages seed s = .raised 0x03 (.inputLength .psdu) (s.loseBuf .data) := by
  have htest : s.needFrame.or (s.needLen .psdu s.frame.psduSize.toNat) = some (.inputLength .psdu) := by
    rw [State.needFrame_eq_none.mpr hv, State.needLen_eq_some.mpr ⟨hl, rfl⟩, Option.none_or]
  have hstage : assembleStage s = .raised 0x03 (.inputLength .psdu) (s.loseBuf .data) := by
    rw [assembleStage, htest, runStage_some]
  simp only [chainStages, hstage, StageResult.andThen_raised]

/-- What is left where the seed is out of range: ASSEMBLE has completed, SCRAMBLE has lost its destination and its
register (R148; log 6). -/
def State.scrambleLost (s : State) : State :=
  (s.assembled.loseBuf .scr).setScrState (Config.freeScrState s.freeCount)

theorem State.scrambleLost_len (s : State) (b : BufId) :
    s.scrambleLost.len b = if b = .scr then 0 else s.assembled.len b := by
  rw [State.scrambleLost, State.setScrState_len, State.loseBuf_len]

theorem State.scrambleLost_cell_of_ne (s : State) {b : BufId} (h : b ≠ .scr) (i : Nat) :
    s.scrambleLost.cell b i = s.assembled.cell b i := by
  rw [State.scrambleLost, State.setScrState_cell, State.loseBuf_cell_of_ne _ h]

theorem State.clearStageLens_scrambleLost_cell (s : State) {b : BufId} (h : b ≠ .scr) (i : Nat) :
    s.clearStageLens.scrambleLost.cell b i = s.assembled.cell b i := by
  rw [State.scrambleLost_cell_of_ne _ h, State.clearStageLens_assembled_cell]

theorem State.clearStageLens_scrambleLost_holdsBits (s : State) :
    HoldsBits s.clearStageLens.scrambleLost .data s.frame.nDataBits.toNat :=
  s.assembled_holdsBits.of_eq (by simp [State.scrambleLost_len]) (s.clearStageLens_scrambleLost_cell (by decide))

theorem State.scrambleLost_encState (s : State) : s.scrambleLost.encState = s.encState := by
  rw [State.scrambleLost, State.setScrState_encState, State.loseBuf_encState, State.assembled_encState]

theorem chainStages_of_seed (hv : s.frame.valid = true) (hl : s.len .psdu = s.frame.psduSize.toNat)
    (hs : 127 < seed) : chainStages seed s = .raised 0x04 .seedRange s.scrambleLost := by
  have htest : ((s.assembled.needFrame.or (s.assembled.needLen .data s.assembled.frame.nDataBits.toNat)).or
      (needSeed seed)).or (s.assembled.needBits .data s.assembled.frame.nDataBits.toNat) = some .seedRange := by
    rw [State.needFrame_eq_none.mpr (by rw [State.assembled_frame, hv]), State.needLen_eq_none.mpr (by simp),
      needSeed_eq_some.mpr ⟨hs, rfl⟩]
    rfl
  have hstage : scrambleStage seed s.assembled = .raised 0x04 .seedRange s.scrambleLost := by
    rw [scrambleStage, htest, runStage_some]
    rfl
  simp only [chainStages, assembleStage_ok hv hl, StageResult.andThen_done, hstage, StageResult.andThen_raised]

/-- What is left where the block size is not valid: five stages have completed, INTERLEAVE has lost its destination
(R148). -/
def State.interleaveLost (s : State) (seed : Nat) : State := (s.afterFive seed).loseBuf .int

theorem State.clearStageLens_interleaveLost_len (s : State) (seed : Nat) (b : BufId) :
    (s.clearStageLens.interleaveLost seed).len b = if b = .int ∨ b = .sym then 0 else (s.afterFive seed).len b := by
  rw [State.interleaveLost, State.clearStageLens_afterFive]
  cases b <;> simp

theorem State.clearStageLens_interleaveLost_cell (s : State) (seed : Nat) {b : BufId} (h : b ≠ .int) (i : Nat) :
    (s.clearStageLens.interleaveLost seed).cell b i = (s.afterFive seed).cell b i := by
  rw [State.interleaveLost, State.clearStageLens_afterFive, State.loseBuf_cell_of_ne _ h, State.setLen_cell,
    State.setLen_cell]

theorem HoldsBits.interleaveLost {s : State} {seed : Nat} {b : BufId} {n : Nat} (h : HoldsBits (s.afterFive seed) b n)
    (hint : b ≠ .int) (hsym : b ≠ .sym) : HoldsBits (s.clearStageLens.interleaveLost seed) b n :=
  h.of_eq (by rw [State.clearStageLens_interleaveLost_len, if_neg (by simp [hint, hsym])])
    (s.clearStageLens_interleaveLost_cell seed hint)

theorem RegInv.interleaveLost_holdsBits (hr : RegInv s) (hv : s.frame.valid = true) (seed : Nat) :
    HoldsBits (s.clearStageLens.interleaveLost seed) .data s.frame.nDataBits.toNat ∧
      HoldsBits (s.clearStageLens.interleaveLost seed) .scr s.frame.nDataBits.toNat ∧
      HoldsBits (s.clearStageLens.interleaveLost seed) .enc s.frame.nEncodedBits.toNat ∧
      HoldsBits (s.clearStageLens.interleaveLost seed) .pun s.frame.nEncodedBits.toNat := by
  obtain ⟨hdata, hscr, henc, hpun⟩ := hr.afterFive_holdsBits hv seed
  exact ⟨hdata.interleaveLost nofun nofun, hscr.interleaveLost nofun nofun, henc.interleaveLost nofun nofun,
    hpun.interleaveLost nofun nofun⟩

theorem State.clearStageLens_interleaveLost_shiftRegs (s : State) (seed : Nat) :
    (s.clearStageLens.interleaveLost seed).scrState = (s.afterFive seed).scrState ∧
      (s.clearStageLens.interleaveLost seed).encState = (s.afterFive seed).encState := by
  rw [State.interleaveLost, State.clearStageLens_afterFive]
  simp

theorem chainStages_of_geometry (hv : s.frame.valid = true) (hl : s.len .psdu = s.frame.psduSize.toNat)
    (hs : seed ≤ 127) (hn : 2 * s.frame.nDataBits.toNat < 2 ^ 32)
    (hg : ilvValid s.ofdm.nCbps.toNat (stride s.ofdm.avgBpsc.toNat) = false) :
    chainStages seed s = .raised 0x08 .ilvGeometry (s.interleaveLost seed) := by
  have htest : (s.afterFive seed).needInterleave = some .ilvGeometry := by
    rw [State.needInterleave, State.needFrame_eq_none.mpr (by rw [State.afterFive_frame, hv]),
      State.needLen_eq_none.mpr (by simp [State.afterFive]),
      State.needGeometry_eq_some.mpr ⟨by rw [State.afterFive_ofdm, hg], rfl⟩]
    rfl
  have hstage : interleaveStage (s.afterFive seed) = .raised 0x08 .ilvGeometry (s.interleaveLost seed) := by
    rw [interleaveStage, htest, runStage_some, State.interleaveLost]
  rw [chainStages_eq, fiveStages_ok hv hl hs hn, StageResult.andThen_done, hstage, StageResult.andThen_raised]

end

/-- Under the invariant of R44 the whole chain completes for a valid block size, whether the LEN registers were cleared
before it or not (R148, R149). -/
theorem RegInv.chainStages_ok {s : State} {seed : Nat} (hr : RegInv s) (hv : s.frame.valid = true)
    (hl : s.len .psdu = s.frame.psduSize.toNat) (hs : seed ≤ 127) (hn : s.ofdm.nCbps.toNat ∈ validBlockSizes) :
    chainStages seed s = .done (s.afterFive seed).interleaved.symbolsPacked ∧
      chainStages seed s.clearStageLens = .done (s.afterFive seed).interleaved.symbolsPacked := by
  have hfit := hr.sizesFit hv
  have hg := (hr.ilvValid_iff (hr.ofdm_of_frame hv)).mpr hn
  refine ⟨Machine.chainStages_ok hv hl hs hfit.encoded hfit.blocks hg, ?_⟩
  rw [← s.clearStageLens_afterSeven]
  exact Machine.chainStages_ok hv (by simpa using hl) hs hfit.encoded hfit.blocks hg

/-! ### The two statements -/

/-- Settles O33: both ways go through the same seven stages; the LEN registers cleared first are all written again, and
no stage reads the reports in between. -/
theorem encodeFrameIsSevenCommands : Obligations.EncodeFrameIsSevenCommands := by
  intro s seed hr hv hl hs hn
  obtain ⟨hchain, hcleared⟩ := hr.chainStages_ok hv hl hs hn
  have e : exec (.encodeFrame seed) s = .next ((s.afterFive seed).interleaved.symbolsPacked.succeed 0x0B) := by
    rw [exec_encodeFrame_of_frame hv, hcleared, finish_done]
  have keep := exec_encodeFrame_keepsPayload e
  have hsym : 48 * s.frame.nSym.toNat < 2 ^ 32 := (hr.sizesFit hv).sym.trans_lt (s.cap_lt .sym)
  obtain ⟨hdata, hscr, henc, hpun⟩ := hr.afterFive_holdsBits hv seed
  have hsymLen : (s.afterFive seed).interleaved.symbolsPacked.len .sym = 48 * s.frame.nSym.toNat := by
    rw [State.symbolsPacked_len, if_pos rfl, State.interleaved_frame, State.afterFive_frame, Nat.mod_eq_of_lt hsym]
  refine ⟨_, e, State.succeed_succeeded _ _, ?_, ?_, ?_, ?_, ?_, ?_,
    by rw [State.succeed_succeed, runCommands_seven hchain], keep.sameRegs, keep.sameCells, keep.outside⟩ <;>
    simp [State.symbolsPacked_len, hdata.len, hscr.len, henc.len, hpun.len, (hr.sizesFit hv).encoded, hsymLen]

/-- Settles O34: the tests in the order in which the chain makes them; no other test can fail, since each stage leaves
its successor the LEN and the bits that it asks for. -/
theorem encodeFrameFaults : Obligations.EncodeFrameFaults := by
  intro s seed hr
  obtain ⟨t, e⟩ := exec_encodeFrame_completes seed s
  have keep := exec_encodeFrame_keepsPayload e
  refine ⟨t, e, keep.ofdm, keep.frame, keep.sameCells, congrArg BitVec.toNat keep.psduLen, ?_⟩
  split_ifs with hinv hl hs hn
  case pos =>
    -- no FrameParam: SEQUENCE sub 1
    rw [exec_encodeFrame_of_needFrame seed (State.needFrame_eq_some.mpr ⟨hinv, rfl⟩)] at e
    cases e
    exact ⟨⟨rfl, rfl⟩, State.faultEntry_sameRegsBut _ _ _ _, fun _ _ _ => rfl⟩
  all_goals have hv : s.frame.valid = true := by simpa using hinv
  case pos =>
    -- wrong LEN_PSDU: SEQUENCE sub 2 of ASSEMBLE
    rw [exec_encodeFrame_of_raised hv (chainStages_of_psdu_len hv (by simpa using hl))] at e
    cases e
    refine ⟨⟨rfl, rfl⟩, fun b hb => by simp [hb], rfl, rfl, fun b hb i => ?_⟩
    simp [State.loseBuf_cell_of_ne _ (List.mem_singleton.not.mp hb)]
  all_goals
    have hl' : s.len .psdu = s.frame.psduSize.toNat := not_not.mp hl
    have hcl : s.clearStageLens.len .psdu = s.frame.psduSize.toNat := by simpa using hl'
  case pos =>
    -- seed above 127: CONFIG sub 4 of SCRAMBLE
    rw [exec_encodeFrame_of_raised hv (chainStages_of_seed hv hcl hs)] at e
    cases e
    have hdata := s.clearStageLens_scrambleLost_holdsBits.faultEntry .seedRange 0x0B 0x04
    refine ⟨⟨rfl, rfl⟩, hdata.len, hdata.isBits_len, fun b h0 h1 => ?lens, ?enc, _, exec_assemble_of_tests hv hl',
      fun b hb i => ?cells⟩
    case lens => simp [State.scrambleLost_len, h0, h1]
    case enc => simp [State.scrambleLost_encState]
    case cells => simp [State.clearStageLens_scrambleLost_cell _ (List.mem_singleton.not.mp hb)]
  case pos =>
    -- every test passes
    rw [exec_encodeFrame_of_frame hv, (hr.chainStages_ok hv hl' (not_lt.mp hs) hn).2, finish_done] at e
    cases e
    exact State.succeed_succeeded _ _
  case neg =>
    -- block size not valid: CONFIG sub 5 of INTERLEAVE
    have hlt := hr.two_nDataBits_lt hv
    have hg : ilvValid s.ofdm.nCbps.toNat (stride s.ofdm.avgBpsc.toNat) = false :=
      Bool.eq_false_iff.mpr ((hr.ilvValid_iff (hr.ofdm_of_frame hv)).not.mpr hn)
    rw [exec_encodeFrame_of_raised hv (chainStages_of_geometry hv hcl (not_lt.mp hs) hlt hg)] at e
    cases e
    obtain ⟨hdata, hscr, henc, hpun⟩ := hr.interleaveLost_holdsBits hv seed
    refine ⟨⟨rfl, rfl⟩, (hdata.faultEntry _ _ _).len, (hscr.faultEntry _ _ _).len, (henc.faultEntry _ _ _).len,
      (hpun.faultEntry _ _ _).len, (hdata.faultEntry _ _ _).isBits_len, (hscr.faultEntry _ _ _).isBits_len,
      (henc.faultEntry _ _ _).isBits_len, (hpun.faultEntry _ _ _).isBits_len, ?int, ?sym, _,
      runCommands_take_five (fiveStages_ok hv hl' (not_lt.mp hs) hlt), ?scr, ?enc, fun b hb i => ?cells⟩
    case int => simp [State.clearStageLens_interleaveLost_len]
    case sym => simp [State.clearStageLens_interleaveLost_len]
    case scr => simp [State.clearStageLens_interleaveLost_shiftRegs]
    case enc => simp [State.clearStageLens_interleaveLost_shiftRegs]
    case cells => simp [s.clearStageLens_interleaveLost_cell seed (List.mem_singleton.not.mp hb)]

end Sys2Proof.Machine
end

section
/-! SUPPORT. The faults of 60_exceptions.md: all the tests of a stage command as one list in the order of R167, what the
first failing one leaves (R170), and the bits that are left where none fails (R163). -/

namespace Sys2Proof.Machine

/-! ### The tests of a stage command, in order (R167) -/

/-- The tests of a stage command after those of the FrameParam and of the input's LEN: the seed or the geometry, then
the bits of the input. ASSEMBLE and TAIL_RESET have none. -/
def State.operandTest (s : State) : Instr → Option FaultCause
  | .ofdmParam _ _ _ _ => none
  | .frameParam _ => none
  | .assemble => none
  | .tailReset => none
  | .scramble seed => (needSeed seed).or (s.needBits .data s.frame.nDataBits.toNat)
  | .convEncode => s.needBits .scr s.frame.nDataBits.toNat
  | .puncture => s.needBits .enc (2 * s.frame.nDataBits.toNat)
  | .interleave => s.needGeometry.or (s.needBits .pun s.frame.nEncodedBits.toNat)
  | .deinterleave => s.needGeometry.or (s.needBits .pun s.frame.nEncodedBits.toNat)
  | .split => s.needBits .int s.frame.nEncodedBits.toNat
  | .encodeFrame _ => none

/-- The first failing test of the stage command `i`, whose input is `src` with the demanded LEN `n`. -/
def State.stageTest (s : State) (i : Instr) (src : BufId) (n : Nat) : Option FaultCause :=
  (s.needFrame.or (s.needLen src n)).or (s.operandTest i)

/-- The state that the stage of `i` completes with; that of a command that is no stage is the state itself. -/
def State.afterStage (s : State) : Instr → State
  | .ofdmParam _ _ _ _ => s
  | .frameParam _ => s
  | .assemble => s.assembled
  | .scramble seed => s.scrambled seed
  | .tailReset => s.tailCleared
  | .convEncode => s.convEncoded
  | .puncture => s.punctured
  | .interleave => s.interleaved
  | .deinterleave => s.deinterleaved
  | .split => s.symbolsPacked
  | .encodeFrame _ => s

section
variable {s t : State} {i : Instr} {src dst : BufId} {n : Nat}

/-- A stage command is the stage with these tests and this completed state, and the report. -/
theorem exec_eq_stageTest (h : stageTable s i = some (src, n, dst)) :
    ∃ ab, exec i s = finish i.opcode (runStage i.opcode (s.stageTest i src n) ab (s.afterStage i)) ∧
      Abandoned dst s ab := by
  cases i <;> cases h
  case assemble | tailReset =>
    exact ⟨_, by rw [State.stageTest, State.operandTest, Option.or_none]; rfl, .lose s _⟩
  case scramble seed =>
    exact ⟨_, by rw [State.stageTest, State.operandTest, ← Option.or_assoc]; rfl, (Abandoned.lose s .scr).scr _⟩
  case convEncode => exact ⟨_, rfl, (Abandoned.lose s .enc).enc _⟩
  case puncture | split => exact ⟨_, rfl, .lose s _⟩
  case interleave | deinterleave =>
    exact ⟨_, by rw [State.stageTest, State.operandTest, ← Option.or_assoc]; rfl, .lose s .int⟩

theorem exec_stage_of_stageTest_none (h : stageTable s i = some (src, n, dst)) (ht : s.stageTest i src n = none) :
    exec i s = .next ((s.afterStage i).succeed i.opcode) := by
  obtain ⟨ab, e, -⟩ := exec_eq_stageTest h
  rw [e, ht, runStage_none, finish_done]

theorem exec_stage_of_stageTest_some {c : FaultCause} (h : stageTable s i = some (src, n, dst))
    (ht : s.stageTest i src n = some c) :
    ∃ ab, exec i s = .next (ab.faultEntry c i.opcode i.opcode) ∧ Abandoned dst s ab := by
  obtain ⟨ab, e, hab⟩ := exec_eq_stageTest h
  exact ⟨ab, by rw [e, ht, runStage_some, finish_raised], hab⟩

/-- A stage command reports CODE 0 only where no test fails (R160). -/
theorem stageTest_eq_none_of_code_zero (h : stageTable s i = some (src, n, dst)) (e : exec i s = .next t)
    (hc : t.status.code = 0) : s.stageTest i src n = none ∧ t = (s.afterStage i).succeed i.opcode := by
  cases ht : s.stageTest i src n with
  | none =>
    rw [exec_stage_of_stageTest_none h ht] at e
    cases e
    exact ⟨rfl, rfl⟩
  | some c =>
    obtain ⟨ab, e', -⟩ := exec_stage_of_stageTest_some h ht
    rw [e'] at e
    cases e
    exact absurd hc c.code_bounds.1

theorem Abandoned.len (h : Abandoned dst s t) : t.len dst = 0 := by
  rw [State.len, h.lost]
  rfl

/-- What a stage command leaves when its first failing test gives the cause `c` (R170). -/
theorem exec_stage_fault {c : FaultCause} {info : Nat} (h : stageTable s i = some (src, n, dst))
    (ht : s.stageTest i src n = some c) (hinfo : c.info = BitVec.ofNat 32 info) :
    ∃ t, exec i s = .next t ∧ Faulted t c.code c.sub i.opcode i.opcode info ∧ t.len dst = 0 ∧
      SameRegsBut [0, 1, 13, 14, 16 + dst.id] s t ∧ ShiftRegsKept i s t ∧ SameCellsBut [dst] s t := by
  obtain ⟨ab, e, hab⟩ := exec_stage_of_stageTest_some h ht
  have only := hab.only.faultEntry c i.opcode i.opcode
  exact ⟨_, e, ⟨rfl, hinfo⟩, hab.len, only.regs, exec_stage_shiftRegs h e, only.cells⟩

/-! ### Which test is the first to fail -/

theorem State.stageTest_of_no_frame (hv : s.frame.valid = false) : s.stageTest i src n = some .noParams := by
  rw [State.stageTest, State.needFrame_eq_some.mpr ⟨hv, rfl⟩]
  rfl

theorem State.stageTest_of_len_ne (hv : s.frame.valid = true) (hl : s.len src ≠ n) :
    s.stageTest i src n = some (.inputLength src) := by
  rw [State.stageTest, State.needFrame_eq_none.mpr hv, State.needLen_eq_some.mpr ⟨hl, rfl⟩]
  rfl

theorem State.stageTest_of_len (hv : s.frame.valid = true) (hl : s.len src = n) :
    s.stageTest i src n = s.operandTest i := by
  rw [State.stageTest, State.needFrame_eq_none.mpr hv, State.needLen_eq_none.mpr hl]
  rfl

theorem State.stageTest_eq_none :
    s.stageTest i src n = none ↔ s.frame.valid = true ∧ s.len src = n ∧ s.operandTest i = none := by
  simp [State.stageTest, and_assoc]

theorem State.operandTest_of_seed {seed : Nat} (hs : 127 < seed) :
    s.operandTest (.scramble seed) = some .seedRange := by
  rw [State.operandTest, needSeed_eq_some.mpr ⟨hs, rfl⟩]
  rfl

/-- The two directions of the interleaver share their tests (43_interleaver.md R131). -/
theorem RegInv.operandTest_of_geometry (hr : RegInv s) (hv : s.frame.valid = true)
    (hn : s.ofdm.nCbps.toNat ∉ validBlockSizes) :
    s.operandTest .interleave = some .ilvGeometry ∧ s.operandTest .deinterleave = some .ilvGeometry := by
  have hg : ilvValid s.ofdm.nCbps.toNat (stride s.ofdm.avgBpsc.toNat) = false :=
    Bool.eq_false_iff.mpr ((hr.ilvValid_iff (hr.ofdm_of_frame hv)).not.mpr hn)
  have htest : s.needGeometry.or (s.needBits .pun s.frame.nEncodedBits.toNat) = some .ilvGeometry := by
    rw [State.needGeometry_eq_some.mpr ⟨hg, rfl⟩]
    rfl
  exact ⟨htest, htest⟩

/-- Where the seed and the block size are legal, a stage that reads bits has only the CONTRACT test left, on the cells
of its input. -/
theorem RegInv.operandTest_eq_needBits (hr : RegInv s) (hv : s.frame.valid = true)
    (h : stageTable s i = some (src, n, dst))
    (hi : i ∈ [.convEncode, .puncture, .split] ∨ (∃ seed ≤ 127, i = .scramble seed) ∨
      (i ∈ [.interleave, .deinterleave] ∧ s.ofdm.nCbps.toNat ∈ validBlockSizes)) :
    s.operandTest i = s.needBits src n := by
  simp only [List.mem_cons, List.not_mem_nil, or_false] at hi
  obtain (rfl | rfl | rfl) | ⟨seed, hs, rfl⟩ | ⟨hi, hn⟩ := hi
  case inl.inl | inl.inr.inl | inl.inr.inr =>
    cases h
    rfl
  case inr.inl =>
    cases h
    rw [State.operandTest, needSeed_eq_none.mpr hs, Option.none_or]
  case inr.inr =>
    have hg : s.needGeometry = none :=
      State.needGeometry_eq_none.mpr ((hr.ilvValid_iff (hr.ofdm_of_frame hv)).mpr hn)
    obtain rfl | rfl := hi <;> cases h <;> rw [State.operandTest, hg, Option.none_or]

theorem State.operandTest_of_reads_no_bit (hi : i ∈ [.assemble, .tailReset]) : s.operandTest i = none := by
  simp only [List.mem_cons, List.not_mem_nil, or_false] at hi
  obtain rfl | rfl := hi <;> rfl

end

/-! ### SEQUENCE (R165) -/

theorem State.needPayload_of_no_ofdm {s : State} (hv : s.ofdm.valid = false) (len : Int) :
    s.needPayload len = some .noParams := by
  simp [State.needPayload, hv]

/-- Settles O36: the FrameParam and the LEN of the input are the first tests of every stage command, the parameter
record the first of FRAME_PARAM and ENCODE_FRAME. -/
theorem sequenceFaults : Obligations.SequenceFaults := by
  intro s
  refine ⟨fun len hv => ?frameParam, fun seed hv => ?encodeFrame, fun i src n dst h => ⟨fun hv => ?noFrame,
    fun hv hl => ?inputLength⟩⟩
  case frameParam =>
    exact ⟨_, exec_frameParam_of_some (State.needPayload_of_no_ofdm hv len), ⟨rfl, rfl⟩,
      discardFrame_faultEntry_frameDiscarded s _ _ _⟩
  case encodeFrame =>
    exact ⟨_, exec_encodeFrame_of_needFrame seed (State.needFrame_eq_some.mpr ⟨hv, rfl⟩), ⟨rfl, rfl⟩,
      State.faultEntry_sameRegsBut _ _ _ _, fun _ _ _ => rfl, rfl, rfl, rfl⟩
  case noFrame => exact exec_stage_fault h (State.stageTest_of_no_frame hv) rfl
  case inputLength => exact exec_stage_fault h (State.stageTest_of_len_ne hv hl) rfl

/-! ### CONFIG (R161) -/

/-- The causes of CODE 1 are numbered 1 to 5. -/
theorem FaultCause.sub_of_code_one {c : FaultCause} (h : c.code = 1) : 1 ≤ c.sub.toNat ∧ c.sub.toNat ≤ 5 := by
  cases c <;> simp [FaultCause.code, FaultCause.sub] at h ⊢

/-- A report with CODE 1 has a cause of that code. -/
theorem Reports.sub_of_code_one {op : Byte} {stageOk : Byte → Prop} {t : State} (h : Reports op stageOk t)
    (hc : t.status.code = 1) : 1 ≤ t.status.sub.toNat ∧ t.status.sub.toNat ≤ 5 := by
  obtain ⟨hs, -⟩ | ⟨c, stage, hs, -, -⟩ := h <;> rw [hs] at hc ⊢
  · have hzero : (0 : BitVec 4) = 1 := hc
    exact absurd hzero (by decide)
  · exact FaultCause.sub_of_code_one hc

section
variable {s : State}

theorem exec_scramble_seed_fault {seed : Nat} (hv : s.frame.valid = true) (hs : 127 < seed)
    (hl : s.len .data = s.frame.nDataBits.toNat) :
    ∃ t, exec (.scramble seed) s = .next t ∧ Faulted t 1 4 0x04 0x04 0 ∧ t.len .scr = 0 := by
  have htest := (State.stageTest_of_len hv hl).trans (State.operandTest_of_seed hs)
  obtain ⟨t, e, hf, hlen, -⟩ := exec_stage_fault rfl htest rfl
  exact ⟨t, e, hf, hlen⟩

theorem RegInv.exec_interleave_geometry_fault (hr : RegInv s) (hv : s.frame.valid = true)
    (hn : s.ofdm.nCbps.toNat ∉ validBlockSizes) (hl : s.len .pun = s.frame.nEncodedBits.toNat) :
    (∃ t, exec .interleave s = .next t ∧ Faulted t 1 5 0x08 0x08 0 ∧ t.len .int = 0) ∧
      ∃ t, exec .deinterleave s = .next t ∧ Faulted t 1 5 0x09 0x09 0 ∧ t.len .int = 0 := by
  obtain ⟨hilv, hdeilv⟩ := hr.operandTest_of_geometry hv hn
  obtain ⟨t, e, hf, hlen, -⟩ := exec_stage_fault rfl ((State.stageTest_of_len hv hl).trans hilv) rfl
  obtain ⟨t', e', hf', hlen', -⟩ := exec_stage_fault rfl ((State.stageTest_of_len hv hl).trans hdeilv) rfl
  exact ⟨⟨t, e, hf, hlen⟩, t', e', hf', hlen'⟩

theorem RegInv.exec_encodeFrame_seed_fault (hr : RegInv s) (hv : s.frame.valid = true) {seed : Nat} (hs : 127 < seed)
    (hl : s.len .psdu = s.frame.psduSize.toNat) :
    ∃ t, exec (.encodeFrame seed) s = .next t ∧ Faulted t 1 4 0x0B 0x04 0 ∧ t.len .scr = 0 := by
  obtain ⟨t, e, -, -, -, -, h⟩ := encodeFrameFaults s seed hr
  rw [if_neg (by simp [hv]), if_neg (not_not.mpr hl), if_pos hs] at h
  obtain ⟨hf, -, -, hlens, -⟩ := h
  exact ⟨t, e, hf, hlens .scr nofun nofun⟩

theorem RegInv.exec_encodeFrame_geometry_fault (hr : RegInv s) (hv : s.frame.valid = true) {seed : Nat}
    (hs : seed ≤ 127) (hn : s.ofdm.nCbps.toNat ∉ validBlockSizes) (hl : s.len .psdu = s.frame.psduSize.toNat) :
    ∃ t, exec (.encodeFrame seed) s = .next t ∧ Faulted t 1 5 0x0B 0x08 0 ∧ t.len .int = 0 := by
  obtain ⟨t, e, -, -, -, -, h⟩ := encodeFrameFaults s seed hr
  rw [if_neg (by simp [hv]), if_neg (not_not.mpr hl), if_neg (not_lt.mpr hs), if_pos hn] at h
  obtain ⟨hf, -, -, -, -, -, -, -, -, hint, -⟩ := h
  exact ⟨t, e, hf, hint⟩

end

/-- Settles O37: the parameter commands test their operands as O9 and O11 say, ENCODE_FRAME as O34 says, a stage command
right after the LEN of its input; and a report names one of the causes. -/
theorem configFaults : Obligations.ConfigFaults := by
  intro s hr
  refine ⟨fun c0 c1 c2 c3 b hb hbad hlow => ?code, fun len hv hneg => ?negative, fun len hv hgt => ?tooLarge,
    fun seed hv hs => ⟨exec_scramble_seed_fault hv hs, hr.exec_encodeFrame_seed_fault hv hs⟩,
    fun hv hn => ⟨hr.exec_interleave_geometry_fault hv hn,
      fun seed hs hl => hr.exec_encodeFrame_geometry_fault hv hs hn hl⟩,
    fun i t e hc => (exec_reports e).sub_of_code_one hc⟩
  case code =>
    obtain ⟨t, e, hf, -⟩ := ofdmParamRejectsBadCode s c0 c1 c2 c3 b hb hbad hlow
    exact ⟨t, e, hf⟩
  case negative =>
    obtain ⟨t, e, hf, -⟩ := (payloadLengthIsTested s len hv).1 hneg
    exact ⟨t, e, hf⟩
  case tooLarge =>
    obtain ⟨t, e, hf, -⟩ := (payloadLengthIsTested s len hv).2.1 hgt
    exact ⟨t, e, hf⟩

/-! ### CONTRACT (R163) -/

/-- Settles O38: the cell is the one that the last test finds, and the two stages that read no bit have no test after
the LEN of their input. -/
theorem contractFaults : Obligations.ContractFaults := by
  intro s i src n dst hr hv h hl
  have htest : s.stageTest i src n = s.operandTest i := State.stageTest_of_len hv hl
  refine ⟨fun hi k hk hbad hlow => ?readsBits, fun hi => ?readsNoBit⟩
  case readsBits =>
    have hbits : s.operandTest i = some (.bitValue k) :=
      (hr.operandTest_eq_needBits hv h hi).trans (State.needBits_eq_some.mpr ⟨k, hk, hbad, hlow, rfl⟩)
    exact exec_stage_fault h (htest.trans hbits) rfl
  case readsNoBit =>
    exact ⟨_, exec_stage_of_stageTest_none h (htest.trans (State.operandTest_of_reads_no_bit hi)),
      State.succeed_succeeded _ _⟩

/-! ### The bits that a stage leaves (R163, 30_encoding.md R80) -/

/-- Both directions of the interleaver move every tested bit into the frame's blocks (43_interleaver.md R130, R131). -/
theorem RegInv.interleaver_holdsBits {s : State} (hr : RegInv s) (hv : s.frame.valid = true)
    (ht : s.needGeometry.or (s.needBits .pun s.frame.nEncodedBits.toNat) = none) :
    HoldsBits s.interleaved .int s.frame.nEncodedBits.toNat ∧
      HoldsBits s.deinterleaved .int s.frame.nEncodedBits.toNat := by
  have hblocks := (hr.sizesFit hv).blocks
  obtain ⟨hg, hbits⟩ := Option.or_eq_none_iff.mp ht
  rw [State.needGeometry_eq_none] at hg
  rw [State.needBits_eq_none, hblocks] at hbits
  exact ⟨⟨by simp, hblocks ▸ State.interleaved_isBits hg hbits⟩,
    ⟨by simp, hblocks ▸ State.deinterleaved_isBits hg hbits⟩⟩

/-- A stage that completes makes its destination a valid bit buffer: it writes bits, or moves the bits of its tested
input, into every cell below the new LEN; TAIL_RESET only adds zeros to what SCR holds. -/
theorem RegInv.afterStage_holdsBits {s : State} {i : Instr} {src dst : BufId} {n : Nat} (hr : RegInv s)
    (h : stageTable s i = some (src, n, dst)) (hd : dst ≠ .sym)
    (htail : i = .tailReset → IsBits s .scr (s.len .scr)) (ht : s.stageTest i src n = none) :
    HoldsBits (s.afterStage i) dst (destLen s i) := by
  obtain ⟨hv, hl, hop⟩ := State.stageTest_eq_none.mp ht
  have henc := (hr.sizesFit hv).encoded
  cases i <;> cases h
  case assemble => exact s.assembled_holdsBits
  case scramble seed => exact ⟨by simp [State.afterStage, destLen], s.scrambled_isBits seed⟩
  case tailReset => exact ⟨s.tailCleared_len .scr, State.tailCleared_isBits (htail rfl)⟩
  case convEncode => exact ⟨hr.convEncoded_len hv, s.convEncoded_isBits⟩
  case puncture =>
    have hbits : IsBits s.punctured .pun s.frame.nEncodedBits.toNat :=
      henc ▸ State.punctured_isBits (State.needBits_eq_none.mp hop)
    exact ⟨by simp [State.afterStage, destLen], hbits⟩
  case interleave => exact (hr.interleaver_holdsBits hv hop).1
  case deinterleave => exact (hr.interleaver_holdsBits hv hop).2
  case split => exact absurd rfl hd

/-- Settles O39: success means that every test passed and the stage completed; the report changes no buffer. -/
theorem stagesWriteOnlyBits : Obligations.StagesWriteOnlyBits := by
  intro s t i src n dst hr h hd htail e hc
  obtain ⟨htest, rfl⟩ := stageTest_eq_none_of_code_zero h e hc
  exact (hr.afterStage_holdsBits h hd htail htest).isBits_len

end Sys2Proof.Machine
end

section
/-! SUPPORT. Reset, what discards a frame, and which buffer a command can change (spec/70_reset_and_hazards.md R190,
R191, R197, R200, R202). -/

namespace Sys2Proof.Machine

/-! ### Reset (R190, R191) -/

theorem Status.zero_word : Status.zero.word = 0 := by decide

/-- The register table of 10_state.md R43. -/
theorem State.resetOf_regRead (m : Config.PsduMax) {n : Nat} (hn : n ≤ 22) : (State.resetOf m).regRead n = some 0 := by
  interval_cases n
  · exact congrArg some Status.zero_word
  all_goals rfl

/-- The registers after the reset input are those of the reset state: they do not depend on the event number. -/
theorem State.externalReset_regRead (s : State) (n : Nat) :
    s.externalReset.regRead n = (State.resetOf s.psduMax).regRead n := rfl

/-- Settles O6: at reset there is neither record, so each command but OFDM_PARAM fails its first test. -/
theorem afterResetOnlyOfdmParamSucceeds : Obligations.AfterResetOnlyOfdmParamSucceeds := by
  intro m
  obtain ⟨frameParam, encodeFrame, stage⟩ := sequenceFaults (State.resetOf m)
  refine ⟨fun n => State.resetOf_regRead m, fun i hi => ?others, fun a b c d ha hb hc hd => ?ofdmParam⟩
  case others =>
    have noFrame {src dst : BufId} {n : Nat} (h : stageTable (State.resetOf m) i = some (src, n, dst)) :
        ∃ t, exec i (State.resetOf m) = .next t ∧ Faulted t 4 1 i.opcode i.opcode 0 := by
      obtain ⟨t, e, hfault, -⟩ := (stage i src n dst h).1 rfl
      exact ⟨t, e, hfault⟩
    cases i with
    | ofdmParam a b c d => exact absurd rfl (hi a b c d)
    | frameParam len =>
      obtain ⟨t, e, hfault, -⟩ := frameParam len rfl
      exact ⟨t, e, hfault⟩
    | encodeFrame seed =>
      obtain ⟨t, e, hfault, -⟩ := encodeFrame seed rfl
      exact ⟨t, e, hfault⟩
    | _ => exact noFrame rfl
  case ofdmParam =>
    obtain ⟨t, e, hok, -⟩ := ofdmParamDerivesRecord (State.resetOf m) a b c d ha hb hc hd
    exact ⟨t, e, hok⟩

/-- Settles O7: the step takes the reset input off the list and performs it. -/
theorem resetInputClearsRegisters : Obligations.ResetInputClearsRegisters := by
  intro s rest hp
  refine ⟨(s.setPending rest).externalReset, step_of_pending hp, fun n hn => ?_, rfl, rfl⟩
  rw [State.externalReset_regRead, State.resetOf_regRead _ hn]

/-! ### The parameter commands discard the frame (R200) -/

theorem exec_ofdmParam_discards {s t : State} {c0 c1 c2 c3 : Nat} (e : exec (.ofdmParam c0 c1 c2 c3) s = .next t) :
    t.frame = .none ∧ ParamUpdate s t := by
  obtain ⟨b, -, rfl⟩ | ⟨a, -, rfl⟩ := exec_ofdmParam_cases e
  · exact ⟨rfl, ((ParamUpdate.discardFrame s).setOfdm _).faultEntry _ _ _⟩
  · exact ⟨rfl, ((ParamUpdate.discardFrame s).setOfdm _).succeed _⟩

theorem exec_frameParam_paramUpdate {s t : State} {len : Int} (e : exec (.frameParam len) s = .next t) :
    ParamUpdate s t := by
  obtain ⟨c, -, rfl⟩ | ⟨-, rfl⟩ := exec_frameParam_cases e
  · exact (ParamUpdate.discardFrame s).faultEntry _ _ _
  · exact ((ParamUpdate.discardFrame s).setFrame _).succeed _

theorem ParamUpdate.len_psdu {s t : State} (h : ParamUpdate s t) : t.len .psdu = s.len .psdu := by
  rw [State.len, h.buf, ← State.len, State.discardFrame_len, if_pos rfl]

/-- Settles O12: both commands start by discarding the frame, before any test of their operand. -/
theorem parameterChangesDiscardFrame : Obligations.ParameterChangesDiscardFrame := by
  refine fun s t => ⟨fun c0 c1 c2 c3 e => ?ofdmParam, fun len e => ?frameParam⟩
  case ofdmParam =>
    obtain ⟨hframe, kept⟩ := exec_ofdmParam_discards e
    exact ⟨hframe, kept.stageLensZero, kept.len_psdu⟩
  case frameParam =>
    have kept := exec_frameParam_paramUpdate e
    exact ⟨kept.stageLensZero, kept.len_psdu⟩

/-! ### The buffer a command can change (R197, R202) -/

/-- A stage command changes its destination only, whether its stage was abandoned or completed. -/
theorem exec_stage_onlyDst {s t : State} {i : Instr} {src dst : BufId} {n : Nat}
    (h : stageTable s i = some (src, n, dst)) (e : exec i s = .next t) : OnlyDst dst s t := by
  obtain ⟨c, u, e', abandoned⟩ | ⟨u, e', completed, -⟩ := exec_stage_cases h
  · cases e'.symm.trans e
    exact abandoned.only.faultEntry c _ _
  · cases e'.symm.trans e
    exact completed.only.succeed _

/-- Settles O45: the frame of the destination, and the shift registers by the command that owns them. -/
theorem onlyDestinationBufferChanges : Obligations.OnlyDestinationBufferChanges := by
  intro s t i src n dst h e
  have only := exec_stage_onlyDst h e
  exact ⟨only.cells, only.regs, only.outside, exec_stage_shiftRegs h e⟩

/-- Settles O46: the parameter commands clear LEN[1..6] only, ENCODE_FRAME keeps PSDU through its chain, and no stage
command has PSDU as its destination. -/
theorem noCommandTouchesPayload : Obligations.NoCommandTouchesPayload := by
  intro s t i e
  have param (kept : ParamUpdate s t) : t.len .psdu = s.len .psdu ∧ ∀ j, t.cell .psdu j = s.cell .psdu j :=
    ⟨kept.len_psdu, kept.sameCells _ List.not_mem_nil⟩
  have stage {src dst : BufId} {n : Nat} (h : stageTable s i = some (src, n, dst)) :
      t.len .psdu = s.len .psdu ∧ ∀ j, t.cell .psdu j = s.cell .psdu j :=
    have only := exec_stage_onlyDst h e
    have hdst := stageTable_dst_ne_psdu h
    ⟨only.len hdst, only.cell hdst⟩
  cases i with
  | ofdmParam => exact param (exec_ofdmParam_discards e).2
  | frameParam => exact param (exec_frameParam_paramUpdate e)
  | encodeFrame =>
    have kept := exec_encodeFrame_keepsPayload e
    exact ⟨congrArg BitVec.toNat kept.psduLen, kept.psduCell⟩
  | _ => exact stage rfl

end Sys2Proof.Machine
end
